-- ==== Sys2Proof/Word.lean ====
section
/-! DEFINITION. The 32-bit word of the machine (spec/00_scope.md rules R9 and R10): the type, its two views as an
integer, and truncation. Nothing here depends on a parameter of the machine. -/

namespace Sys2Proof

/-- A word: 32 bits, bit 0 the least significant (R10). -/
abbrev Word := BitVec 32

/-- `uint(w)`: the word read as a natural number (R10). -/
abbrev uint (w : Word) : Nat := w.toNat

/-- `sint(w)`: the word read in two's complement (R10). -/
abbrev sint (w : Word) : Int := w.toInt

/-- `trunc32(n)`: the word congruent to `n` modulo 2^32 (R10). -/
abbrev trunc32 (n : Int) : Word := BitVec.ofInt 32 n

end Sys2Proof
end

