-- ==== Sys2Proof/Config.lean ====
section
/-! DEFINITION. The parameters of the machine (spec/00_scope.md rule R9) as one record of plain data, with the default
of each that has one, and the two texts the spec leaves to any value (spec/93_implementation_defined.md section 1).
A State carries its parameters, so every statement about a State covers every setting (DEDUCED, safe, log 5). -/

namespace Sys2Proof

/-- `IMM_POLICY` (R9, R100): how a word is built from an integer outside the signed range. -/
inductive ImmPolicy where
  | saturate
  | wrap
  deriving DecidableEq, Repr

/-- `N_FLAG_SOURCE` (R9, R101): where N of an add or subtract comes from. -/
inductive NFlagSource where
  | truncated
  | wide
  deriving DecidableEq, Repr

/-- `SBC_BORROW_IN` (R9, R141): the borrow-in of SBC and RSC. -/
inductive BorrowSource where
  | flagC
  | notFlagC
  deriving DecidableEq, Repr

/-- `LOGIC_CV` (R9, R107): what a logical flag update does to C and V. -/
inductive LogicCV where
  | preserve
  | clear
  deriving DecidableEq, Repr

/-- `NARROW_STORE` (R9, R168): what a narrow store does to the other bits of its cell. -/
inductive NarrowStore where
  | zeroFill
  | merge
  deriving DecidableEq, Repr

/-- `FLAG_POS` (R9, R25): the bit of SR that holds each flag. -/
structure FlagPos where
  n : Fin 32 := 31
  z : Fin 32 := 30
  c : Fin 32 := 29
  v : Fin 32 := 28
  deriving DecidableEq, Repr

/-- The parameters a machine is built with (R9). `memSize` is `MEM_SIZE`, the number of cells; the spec gives it no
default. Each other field's default is the one of R9. -/
structure Params where
  memSize : Nat
  immPolicy : ImmPolicy := .saturate
  nFlagSource : NFlagSource := .truncated
  sbcBorrowIn : BorrowSource := .flagC
  logicCV : LogicCV := .preserve
  narrowStore : NarrowStore := .zeroFill
  flagPos : FlagPos := {}
  deriving DecidableEq, Repr

/-- The four flags lie at four different bits. -/
abbrev FlagPos.wf (p : FlagPos) : Prop :=
  p.n ≠ p.z ∧ p.n ≠ p.c ∧ p.n ≠ p.v ∧ p.z ≠ p.c ∧ p.z ≠ p.v ∧ p.c ≠ p.v

/-- Parameters R9 admits: 1 ≤ MEM_SIZE ≤ 2^32 and four different flag positions. -/
abbrev Params.wf (p : Params) : Prop :=
  1 ≤ p.memSize ∧ p.memSize ≤ 2 ^ 32 ∧ p.flagPos.wf

/-- The text of the diagnostic for a skipped line, by line number: any value (93_implementation_defined.md; DESIGN CHOICE,
safe, log 17). -/
opaque Config.diagnosticText : Nat → List Char

/-- The text of a register dump, from R0..R15 and SR: any value (93_implementation_defined.md; R213; DESIGN CHOICE, safe,
log 17). -/
opaque Config.registerDumpText : List Word → Word → List Char

end Sys2Proof
end

