-- ==== Sys2Proof/Syntax.lean ====
section
/-! DEFINITION. The syntax of instructions: the fields of the decoded record (spec/30_encoding.md rule R86) and `Instr`,
with one constructor for each row of spec/opcode_table.json (R96). -/

namespace Sys2Proof

/-- The opcode of a decoded record: the 21 of R86, or a code outside them, which only a record built directly can hold
(R91). -/
inductive Opcode where
  | add | adc | cmn | sub | sbc | rsb | rsc | cmp
  | and | orr | eor | bic | tst | teq
  | ldr | str | ldm | stm
  | b | bl | swi
  | unknown (code : Nat)
  deriving DecidableEq, Repr

/-- The condition field (R68, R86): `none` is NONE. A code outside the table can stand only in a record built directly
(R111). -/
inductive Cond where
  | none
  | eq | ne | cs | cc | mi | pl | vs | vc | hi | ls | ge | lt | gt | le | al
  | unmapped (code : Nat)
  deriving DecidableEq, Repr

/-- The update mode (R69). -/
inductive UpdateMode where
  | none | ia | ib | da | db
  deriving DecidableEq, Repr

/-- The suffix (R70). -/
inductive Suffix where
  | none | s | b | h | sh | sb | d
  deriving DecidableEq, Repr

/-- The decoded record (R86). `regs` holds register indices; for B and BL its one entry is the target index. -/
structure Record where
  opcode : Opcode
  cond : Cond
  mode : UpdateMode
  suffix : Suffix
  regs : List Nat
  imm : Option Word
  deriving DecidableEq, Repr

/-- An instruction: one constructor per row of spec/opcode_table.json. A row fixes the opcode and, for LDR and STR, the
suffix, for LDM and STM the mode; the constructor carries the fields the row leaves to the text, ignored ones too (R93).
The `sSuffix` of LDR and STR says whether the ignored suffix S was written. -/
inductive Instr where
  | add (cond : Cond) (mode : UpdateMode) (suffix : Suffix) (regs : List Nat) (imm : Option Word)
  | adc (cond : Cond) (mode : UpdateMode) (suffix : Suffix) (regs : List Nat) (imm : Option Word)
  | sub (cond : Cond) (mode : UpdateMode) (suffix : Suffix) (regs : List Nat) (imm : Option Word)
  | sbc (cond : Cond) (mode : UpdateMode) (suffix : Suffix) (regs : List Nat) (imm : Option Word)
  | rsb (cond : Cond) (mode : UpdateMode) (suffix : Suffix) (regs : List Nat) (imm : Option Word)
  | rsc (cond : Cond) (mode : UpdateMode) (suffix : Suffix) (regs : List Nat) (imm : Option Word)
  | and (cond : Cond) (mode : UpdateMode) (suffix : Suffix) (regs : List Nat) (imm : Option Word)
  | orr (cond : Cond) (mode : UpdateMode) (suffix : Suffix) (regs : List Nat) (imm : Option Word)
  | eor (cond : Cond) (mode : UpdateMode) (suffix : Suffix) (regs : List Nat) (imm : Option Word)
  | bic (cond : Cond) (mode : UpdateMode) (suffix : Suffix) (regs : List Nat) (imm : Option Word)
  | cmn (cond : Cond) (mode : UpdateMode) (suffix : Suffix) (regs : List Nat) (imm : Option Word)
  | cmp (cond : Cond) (mode : UpdateMode) (suffix : Suffix) (regs : List Nat) (imm : Option Word)
  | tst (cond : Cond) (mode : UpdateMode) (suffix : Suffix) (regs : List Nat) (imm : Option Word)
  | teq (cond : Cond) (mode : UpdateMode) (suffix : Suffix) (regs : List Nat) (imm : Option Word)
  | ldr (cond : Cond) (mode : UpdateMode) (sSuffix : Bool) (regs : List Nat) (imm : Option Word)
  | ldrb (cond : Cond) (mode : UpdateMode) (regs : List Nat) (imm : Option Word)
  | ldrh (cond : Cond) (mode : UpdateMode) (regs : List Nat) (imm : Option Word)
  | ldrsb (cond : Cond) (mode : UpdateMode) (regs : List Nat) (imm : Option Word)
  | ldrsh (cond : Cond) (mode : UpdateMode) (regs : List Nat) (imm : Option Word)
  | ldrd (cond : Cond) (mode : UpdateMode) (regs : List Nat) (imm : Option Word)
  | str (cond : Cond) (mode : UpdateMode) (sSuffix : Bool) (regs : List Nat) (imm : Option Word)
  | strb (cond : Cond) (mode : UpdateMode) (regs : List Nat) (imm : Option Word)
  | strh (cond : Cond) (mode : UpdateMode) (regs : List Nat) (imm : Option Word)
  | strsb (cond : Cond) (mode : UpdateMode) (regs : List Nat) (imm : Option Word)
  | strsh (cond : Cond) (mode : UpdateMode) (regs : List Nat) (imm : Option Word)
  | strd (cond : Cond) (mode : UpdateMode) (regs : List Nat) (imm : Option Word)
  | ldm (cond : Cond) (suffix : Suffix) (regs : List Nat) (imm : Option Word)
  | ldmia (cond : Cond) (suffix : Suffix) (regs : List Nat) (imm : Option Word)
  | ldmib (cond : Cond) (suffix : Suffix) (regs : List Nat) (imm : Option Word)
  | ldmda (cond : Cond) (suffix : Suffix) (regs : List Nat) (imm : Option Word)
  | ldmdb (cond : Cond) (suffix : Suffix) (regs : List Nat) (imm : Option Word)
  | stm (cond : Cond) (suffix : Suffix) (regs : List Nat) (imm : Option Word)
  | stmia (cond : Cond) (suffix : Suffix) (regs : List Nat) (imm : Option Word)
  | stmib (cond : Cond) (suffix : Suffix) (regs : List Nat) (imm : Option Word)
  | stmda (cond : Cond) (suffix : Suffix) (regs : List Nat) (imm : Option Word)
  | stmdb (cond : Cond) (suffix : Suffix) (regs : List Nat) (imm : Option Word)
  | b (cond : Cond) (mode : UpdateMode) (suffix : Suffix) (regs : List Nat) (imm : Option Word)
  | bl (cond : Cond) (mode : UpdateMode) (suffix : Suffix) (regs : List Nat) (imm : Option Word)
  | swi (cond : Cond) (mode : UpdateMode) (suffix : Suffix) (regs : List Nat) (imm : Option Word)
  deriving DecidableEq, Repr

/-- The decoded record an instruction stands for: the fields its row of the table fixes, and its own (R86, R96). -/
def Instr.record : Instr → Record
  | .add c m x rs im => ⟨.add, c, m, x, rs, im⟩
  | .adc c m x rs im => ⟨.adc, c, m, x, rs, im⟩
  | .sub c m x rs im => ⟨.sub, c, m, x, rs, im⟩
  | .sbc c m x rs im => ⟨.sbc, c, m, x, rs, im⟩
  | .rsb c m x rs im => ⟨.rsb, c, m, x, rs, im⟩
  | .rsc c m x rs im => ⟨.rsc, c, m, x, rs, im⟩
  | .and c m x rs im => ⟨.and, c, m, x, rs, im⟩
  | .orr c m x rs im => ⟨.orr, c, m, x, rs, im⟩
  | .eor c m x rs im => ⟨.eor, c, m, x, rs, im⟩
  | .bic c m x rs im => ⟨.bic, c, m, x, rs, im⟩
  | .cmn c m x rs im => ⟨.cmn, c, m, x, rs, im⟩
  | .cmp c m x rs im => ⟨.cmp, c, m, x, rs, im⟩
  | .tst c m x rs im => ⟨.tst, c, m, x, rs, im⟩
  | .teq c m x rs im => ⟨.teq, c, m, x, rs, im⟩
  | .ldr c m f rs im => ⟨.ldr, c, m, if f then .s else .none, rs, im⟩
  | .ldrb c m rs im => ⟨.ldr, c, m, .b, rs, im⟩
  | .ldrh c m rs im => ⟨.ldr, c, m, .h, rs, im⟩
  | .ldrsb c m rs im => ⟨.ldr, c, m, .sb, rs, im⟩
  | .ldrsh c m rs im => ⟨.ldr, c, m, .sh, rs, im⟩
  | .ldrd c m rs im => ⟨.ldr, c, m, .d, rs, im⟩
  | .str c m f rs im => ⟨.str, c, m, if f then .s else .none, rs, im⟩
  | .strb c m rs im => ⟨.str, c, m, .b, rs, im⟩
  | .strh c m rs im => ⟨.str, c, m, .h, rs, im⟩
  | .strsb c m rs im => ⟨.str, c, m, .sb, rs, im⟩
  | .strsh c m rs im => ⟨.str, c, m, .sh, rs, im⟩
  | .strd c m rs im => ⟨.str, c, m, .d, rs, im⟩
  | .ldm c x rs im => ⟨.ldm, c, .none, x, rs, im⟩
  | .ldmia c x rs im => ⟨.ldm, c, .ia, x, rs, im⟩
  | .ldmib c x rs im => ⟨.ldm, c, .ib, x, rs, im⟩
  | .ldmda c x rs im => ⟨.ldm, c, .da, x, rs, im⟩
  | .ldmdb c x rs im => ⟨.ldm, c, .db, x, rs, im⟩
  | .stm c x rs im => ⟨.stm, c, .none, x, rs, im⟩
  | .stmia c x rs im => ⟨.stm, c, .ia, x, rs, im⟩
  | .stmib c x rs im => ⟨.stm, c, .ib, x, rs, im⟩
  | .stmda c x rs im => ⟨.stm, c, .da, x, rs, im⟩
  | .stmdb c x rs im => ⟨.stm, c, .db, x, rs, im⟩
  | .b c m x rs im => ⟨.b, c, m, x, rs, im⟩
  | .bl c m x rs im => ⟨.bl, c, m, x, rs, im⟩
  | .swi c m x rs im => ⟨.swi, c, m, x, rs, im⟩

end Sys2Proof
end

