-- ==== Sys2Proof/WellFormed.lean ====
section
/-! DEFINITION. Well-formed instructions: those the decoder can make (spec/30_encoding.md rules R81 and R86, R89). A
record that is not well-formed can only be built directly (R91, R201); the machine still gives it a meaning. -/

namespace Sys2Proof

/-- The seven formats (R81). -/
inductive Format where
  | dp3 | cmp2 | ls | lsd | lsm | br | sys
  deriving DecidableEq, Repr

/-- The format of an instruction, fixed by its opcode and, for LDR and STR, its suffix (R81). -/
def Instr.format : Instr → Format
  | .add .. | .adc .. | .sub .. | .sbc .. | .rsb .. | .rsc .. => .dp3
  | .and .. | .orr .. | .eor .. | .bic .. => .dp3
  | .cmn .. | .cmp .. | .tst .. | .teq .. => .cmp2
  | .ldr .. | .ldrb .. | .ldrh .. | .ldrsb .. | .ldrsh .. => .ls
  | .str .. | .strb .. | .strh .. | .strsb .. | .strsh .. => .ls
  | .ldrd .. | .strd .. => .lsd
  | .ldm .. | .ldmia .. | .ldmib .. | .ldmda .. | .ldmdb .. => .lsm
  | .stm .. | .stmia .. | .stmib .. | .stmda .. | .stmdb .. => .lsm
  | .b .. | .bl .. => .br
  | .swi .. => .sys

/-- A decoded register list of `n` entries, with or without an immediate, fits the format (the record column of R82 to
R85: for a branch the one entry is the label's value). -/
def Format.fits : Format → (n : Nat) → (hasImm : Bool) → Bool
  | .dp3, n, hasImm => if hasImm then n == 2 else n == 3
  | .cmp2, n, hasImm => if hasImm then n == 1 else n == 2
  | .ls, n, _ => n == 2
  | .lsd, n, _ => n == 3
  | .lsm, n, hasImm => decide (1 ≤ n) && !hasImm
  | .br, n, hasImm => n == 1 && !hasImm
  | .sys, n, hasImm => n == 0 && !hasImm

/-- A condition of the table of R68. -/
def Cond.mapped : Cond → Bool
  | .unmapped _ => false
  | _ => true

/-- B with the condition LS, LT or LE cannot be written: `BLS`, `BLT` and `BLE` select the opcode BL (R89, R237; DEDUCED,
safe, log 16). -/
def Cond.clashesWithBl : Cond → Bool
  | .ls | .lt | .le => true
  | _ => false

/-- An instruction the decoder can make: its operands fit its format, its condition is one of the table, and it is not a
B whose spelling selects BL. -/
def Instr.wf (i : Instr) : Bool :=
  i.format.fits i.record.regs.length i.record.imm.isSome
    && i.record.cond.mapped
    && !(i.record.opcode == .b && i.record.cond.clashesWithBl)

end Sys2Proof
end

