-- ==== Sys2Proof/Decode.lean ====
section
/-! DEFINITION. The decoder: the two-pass assembler from source text to decoded records (spec/30_encoding.md), total on
any text, refusing by name; then the encoder, which writes a well-formed instruction as a line of text. -/

namespace Sys2Proof

/-- A text: a list of characters. A source file's bytes are the characters of the same codes. -/
abbrev Text := List Char

/-! ### Words from integers -/

/-- `from_int(v)` (R100): the word a host integer or an immediate becomes; on any integer (DESIGN CHOICE, safe, log 18). -/
def fromInt (policy : ImmPolicy) (v : Int) : Word :=
  match policy with
  | .saturate =>
    if v > 2 ^ 31 - 1 then 0x7FFFFFFF#32
    else if v < -2 ^ 31 then 0x80000000#32
    else trunc32 v
  | .wrap => trunc32 v

/-! ### Why a program is refused -/

/-- The reasons of R90. -/
inductive DecodeReason where
  /-- R63: the label line's name is not a label name. -/
  | badLabel
  /-- R63: text follows a label's name. -/
  | labelTrailingText
  /-- R65: the label is already defined. -/
  | duplicateLabel
  /-- R71: characters remain in the mnemonic token. -/
  | residual (rest : Text)
  /-- R74: a token of no kind. -/
  | badToken
  /-- R74: a second immediate. -/
  | twoImmediates
  /-- R74: an identifier that is not the last token. -/
  | labelNotTrailing
  /-- R76: a range whose first index is the greater. -/
  | badRange
  /-- R77: an immediate outside 64 bits. -/
  | immRange
  /-- R81: the operands do not fit the format. -/
  | operandShape
  /-- R80: a label never defined. -/
  | unresolvedLabel (name : Text)
  deriving DecidableEq, Repr

/-- A refusal: the reason and the line it arose on (R90), lines counted from 1 (DESIGN CHOICE, unsafe, log 13). -/
structure DecodeRefusal where
  reason : DecodeReason
  line : Nat
  deriving DecidableEq, Repr

/-! ### Lines (R60 to R62) -/

/-- Whitespace: space and horizontal tab (R60). -/
def isWs (c : Char) : Bool := c == ' ' || c == '\t'

/-- The pieces of a text between line feeds (R60). -/
def splitLf : Text → List Text
  | [] => [[]]
  | c :: cs =>
    if c = '\n' then [] :: splitLf cs
    else
      match splitLf cs with
      | [] => [[c]]
      | l :: ls => (c :: l) :: ls

/-- A line without the one carriage return before its end (R60); of a last line with no line feed too (DEDUCED, unsafe,
log 11). -/
def dropCr (l : Text) : Text := if l.getLast? = some '\r' then l.dropLast else l

/-- The lines of a source file, in order (R60). -/
def sourceLines (t : Text) : List Text := (splitLf t).map dropCr

/-- The class of a line (R61): blank or comment; label line, kept whole; instruction line, its leading whitespace
stripped. -/
inductive LineClass where
  | blank
  | label (line : Text)
  | statement (stripped : Text)
  deriving DecidableEq, Repr

/-- R61: the first rule that applies. -/
def classifyLine (l : Text) : LineClass :=
  match l.dropWhile isWs with
  | [] => .blank
  | c :: cs =>
    if c = ';' ∨ c = '@' then .blank
    else if (l.head?.map isWs) = some true then .statement (c :: cs)
    else .label l

/-! ### Operand tokens (R73 to R77) -/

/-- A letter. The spec does not say which alphabet; the model takes the ASCII letters (DESIGN CHOICE, safe, log 10). -/
def isLetter (c : Char) : Bool := c.isAlpha

/-- A decimal digit. -/
def isDigit (c : Char) : Bool := c.isDigit

/-- A hexadecimal digit, of either case (R72). -/
def isHexDigit (c : Char) : Bool :=
  isDigit c || (decide ('a' ≤ c) && decide (c ≤ 'f')) || (decide ('A' ≤ c) && decide (c ≤ 'F'))

/-- The first character of an identifier (R74). -/
def isIdentStart (c : Char) : Bool := isLetter c || c == '_' || c == '.'

/-- A later character of an identifier (R74). -/
def isIdentRest (c : Char) : Bool := isIdentStart c || isDigit c

/-- An identifier (R74). -/
def isIdentifier : Text → Bool
  | [] => false
  | c :: cs => isIdentStart c && cs.all isIdentRest

/-- The separators of the operand tail: space, tab, comma, brackets and braces (R73). The braces are the characters 123
and 125. Where a bracket closes is not kept, so a post-indexed text reads as the offset form, whatever R84 says of it (DESIGN
CHOICE, unsafe, log 24). -/
def isSeparator (c : Char) : Bool :=
  isWs c || c == ',' || c == '[' || c == ']' || c == Char.ofNat 123 || c == Char.ofNat 125

/-- The tokens of an operand tail, `cur` being the characters of the current token, last first (R73). Brackets and braces leave
no trace: see log 24 (DESIGN CHOICE, unsafe) for the post-indexed texts of R84. -/
def splitTokens (cur : Text) : Text → List Text
  | [] => if cur.isEmpty then [] else [cur.reverse]
  | c :: cs =>
    if isSeparator c then
      if cur.isEmpty then splitTokens [] cs else cur.reverse :: splitTokens [] cs
    else splitTokens (c :: cur) cs

/-- The operand tail up to the first `;`, split into tokens (R62, R73). -/
def operandTokens (tail : Text) : List Text := splitTokens [] (tail.takeWhile (· != ';'))

/-- The value of decimal digits. -/
def decValue (ds : Text) : Nat := ds.foldl (fun n c => 10 * n + (c.toNat - 48)) 0

/-- The value of one hexadecimal digit. -/
def hexDigitValue (c : Char) : Nat :=
  if isDigit c then c.toNat - 48 else if 'a' ≤ c then c.toNat - 87 else c.toNat - 55

/-- The value of hexadecimal digits. -/
def hexValue (ds : Text) : Nat := ds.foldl (fun n c => 16 * n + hexDigitValue c) 0

/-- `ds` is one or more decimal digits. -/
def isDecimal (ds : Text) : Bool := !ds.isEmpty && ds.all isDigit

/-- A register token and its index, of any size (R75). -/
def parseRegister : Text → Option Nat
  | 'r' :: ds => if isDecimal ds then some (decValue ds) else none
  | _ => none

/-- A range token and its two indices (R76). -/
def parseRange : Text → Option (Nat × Nat)
  | 'r' :: ds =>
    match ds.dropWhile isDigit with
    | '-' :: last =>
      if isDecimal (ds.takeWhile isDigit) then
        (parseRegister last).map fun y => (decValue (ds.takeWhile isDigit), y)
      else none
    | _ => none
  | _ => none

/-- The magnitude of an immediate: `0x` or `0X` and hexadecimal digits, or decimal digits (R77). -/
def parseMagnitude (ds : Text) : Option Nat :=
  match ds with
  | '0' :: x :: hs =>
    if (x == 'x' || x == 'X') && !hs.isEmpty && hs.all isHexDigit then some (hexValue hs)
    else if isDecimal ds then some (decValue ds) else none
  | _ => if isDecimal ds then some (decValue ds) else none

/-- An immediate token and its integer (R77). -/
def parseImmediate : Text → Option Int
  | '#' :: '-' :: ds => (parseMagnitude ds).map fun n => -(n : Int)
  | '#' :: ds => (parseMagnitude ds).map fun n => (n : Int)
  | _ => none

/-- The kinds of token (R74). -/
inductive Token where
  | register (i : Nat)
  | range (first last : Nat)
  | immediate (v : Int)
  | identifier (name : Text)
  deriving DecidableEq, Repr

/-- The kind of a token, tested in the order of R74; `none` is a token of no kind. -/
def classifyToken (t : Text) : Option Token :=
  match parseRegister t with
  | some i => some (.register i)
  | none =>
    match parseRange t with
    | some (x, y) => some (.range x y)
    | none =>
      match parseImmediate t with
      | some v => some (.immediate v)
      | none => if isIdentifier t then some (.identifier t) else none

/-- Every token's kind, or `none` when one has no kind. -/
def classifyTokens : List Text → Option (List Token)
  | [] => some []
  | t :: ts =>
    match classifyToken t, classifyTokens ts with
    | some k, some ks => some (k :: ks)
    | _, _ => none

/-- The register indices a token adds to the register list (R75, R76). -/
def Token.registers : Token → List Nat
  | .register i => [i]
  | .range x y => (List.range (y + 1 - x)).map (x + ·)
  | _ => []

/-- The integer of an immediate token. -/
def Token.immediate? : Token → Option Int
  | .immediate v => some v
  | _ => none

/-- The name of an identifier token. -/
def Token.identifier? : Token → Option Text
  | .identifier n => some n
  | _ => none

/-- A range that runs downwards, which R76 refuses. -/
def Token.badRange : Token → Bool
  | .range x y => decide (y < x)
  | _ => false

/-- An immediate outside the host's 64 bits, which R77 refuses. -/
def Token.outOfRange : Token → Bool
  | .immediate v => decide (v < -2 ^ 63 ∨ 2 ^ 63 - 1 < v)
  | _ => false

/-- What an operand tail names: register indices, the immediate, the label. -/
structure Operands where
  regs : List Nat
  imm : Option Int
  label : Option Text
  deriving DecidableEq, Repr

/-- The operands of a tail, or the first cause of refusal in the order of R74, R76 and R77 (R90; DEDUCED, unsafe, log 14). -/
def parseOperands (tail : Text) : Except DecodeReason Operands :=
  match classifyTokens (operandTokens tail) with
  | none => .error .badToken
  | some ks =>
    if 1 < (ks.filterMap Token.immediate?).length then .error .twoImmediates
    else if (ks.dropLast.filterMap Token.identifier?) ≠ [] then .error .labelNotTrailing
    else if ks.any Token.badRange then .error .badRange
    else if ks.any Token.outOfRange then .error .immRange
    else .ok ⟨ks.flatMap Token.registers, (ks.filterMap Token.immediate?).head?,
      (ks.filterMap Token.identifier?).head?⟩

/-! ### The mnemonic token (R66 to R72) -/

/-- The 21 opcode mnemonics (R67). -/
def opcodeNames : List (Text × Opcode) :=
  [(['A', 'D', 'D'], .add), (['A', 'D', 'C'], .adc), (['C', 'M', 'N'], .cmn), (['S', 'U', 'B'], .sub),
   (['S', 'B', 'C'], .sbc), (['R', 'S', 'B'], .rsb), (['R', 'S', 'C'], .rsc), (['C', 'M', 'P'], .cmp),
   (['A', 'N', 'D'], .and), (['O', 'R', 'R'], .orr), (['E', 'O', 'R'], .eor), (['B', 'I', 'C'], .bic),
   (['T', 'S', 'T'], .tst), (['T', 'E', 'Q'], .teq), (['L', 'D', 'R'], .ldr), (['S', 'T', 'R'], .str),
   (['L', 'D', 'M'], .ldm), (['S', 'T', 'M'], .stm), (['S', 'W', 'I'], .swi), (['B', 'L'], .bl), (['B'], .b)]

/-- The 15 condition mnemonics (R68). -/
def condNames : List (Text × Cond) :=
  [(['E', 'Q'], .eq), (['N', 'E'], .ne), (['C', 'S'], .cs), (['C', 'C'], .cc), (['M', 'I'], .mi), (['P', 'L'], .pl),
   (['V', 'S'], .vs), (['V', 'C'], .vc), (['H', 'I'], .hi), (['L', 'S'], .ls), (['G', 'E'], .ge), (['L', 'T'], .lt),
   (['G', 'T'], .gt), (['L', 'E'], .le), (['A', 'L'], .al)]

/-- The four update modes (R69). -/
def modeNames : List (Text × UpdateMode) :=
  [(['I', 'A'], .ia), (['I', 'B'], .ib), (['D', 'A'], .da), (['D', 'B'], .db)]

/-- The suffixes of two characters (R70). -/
def longSuffixNames : List (Text × Suffix) := [(['S', 'H'], .sh), (['S', 'B'], .sb)]

/-- The suffixes of one character (R70). -/
def shortSuffixNames : List (Text × Suffix) := [(['S'], .s), (['B'], .b), (['H'], .h), (['D'], .d)]

/-- Tries the first `k` characters of `m` in a table: the value found and the characters left. A try is made only when
`m` has at least `k` characters (R67, R70). -/
def takeField {α : Type} (table : List (Text × α)) (k : Nat) (m : Text) : Option (α × Text) :=
  if k ≤ m.length then (table.lookup (m.take k)).map fun a => (a, m.drop k) else none

/-- The opcode of a token: 3 characters, then 2, then 1 (R67). -/
def takeOpcode (m : Text) : Option (Opcode × Text) :=
  (takeField opcodeNames 3 m).or ((takeField opcodeNames 2 m).or (takeField opcodeNames 1 m))

/-- The condition, NONE when the next 2 characters are no condition (R68). -/
def takeCond (m : Text) : Cond × Text := (takeField condNames 2 m).getD (.none, m)

/-- The update mode, NONE when the next 2 characters are no mode (R69). -/
def takeMode (m : Text) : UpdateMode × Text := (takeField modeNames 2 m).getD (.none, m)

/-- The suffix: 2 characters, then 1, else NONE (R70). -/
def takeSuffix (m : Text) : Suffix × Text :=
  ((takeField longSuffixNames 2 m).or (takeField shortSuffixNames 1 m)).getD (.none, m)

/-- The fields a mnemonic token selects. -/
structure Mnemonic where
  opcode : Opcode
  cond : Cond
  mode : UpdateMode
  suffix : Suffix
  deriving DecidableEq, Repr

/-- The decoder's verdict on a mnemonic token: no opcode (R78), characters left over (R71), or its fields. -/
inductive MnemonicVerdict where
  | unknown
  | residual (rest : Text)
  | fields (f : Mnemonic)
  deriving DecidableEq, Repr

/-- The mnemonic token, decoded in the fixed order opcode, condition, mode, suffix (R66). -/
def decodeMnemonic (m : Text) : MnemonicVerdict :=
  match takeOpcode m with
  | none => .unknown
  | some (op, m1) =>
    let (cond, m2) := takeCond m1
    let (mode, m3) := takeMode m2
    let (suffix, m4) := takeSuffix m3
    if m4.isEmpty then .fields ⟨op, cond, mode, suffix⟩ else .residual m4

/-! ### One line -/

/-- The operand-shape check on the text's operands (R81): how many register indices, whether an immediate, whether a
label. No format is fixed for a code outside the 21, which no text has. The tokens of a post-indexed text, `rt, [rn], #imm`,
fit the format of the offset form (DESIGN CHOICE, unsafe, log 24). -/
def operandsFit (op : Opcode) (suffix : Suffix) (nRegs : Nat) (hasImm hasLabel : Bool) : Bool :=
  match op with
  | .add | .adc | .sub | .sbc | .rsb | .rsc | .and | .orr | .eor | .bic =>
    (if hasImm then nRegs == 2 else nRegs == 3) && !hasLabel
  | .cmn | .cmp | .tst | .teq => (if hasImm then nRegs == 1 else nRegs == 2) && !hasLabel
  | .ldr | .str => (if suffix = .d then nRegs == 3 else nRegs == 2) && !hasLabel
  | .ldm | .stm => decide (1 ≤ nRegs) && !hasImm && !hasLabel
  | .b | .bl => nRegs == 0 && !hasImm && hasLabel
  | .swi => nRegs == 0 && !hasImm && !hasLabel
  | .unknown _ => false

/-- The decoder's verdict on one line. An emitted record lacks the entry of its label reference, which is resolved by the
passes (R79, R80). -/
inductive LineVerdict where
  | blank
  | label (name : Text)
  | skip
  | refuse (reason : DecodeReason)
  | emit (record : Record) (label : Option Text)
  deriving DecidableEq, Repr

/-- A character that ends a label's name (R63). -/
def endsLabel (c : Char) : Bool := isWs c || c == ':' || c == ';'

/-- What may follow a label's name: one `:`, whitespace, a comment (R63; DEDUCED, unsafe, log 19). -/
def labelTailOk (rest : Text) : Bool :=
  let rest := match rest with
    | ':' :: cs => cs
    | cs => cs
  match rest.dropWhile isWs with
  | [] => true
  | c :: _ => c == ';' || c == '@'

/-- A label line (R63). A line with a bad name and text after it is refused for its name, the first reason R63 gives (DESIGN
CHOICE, unsafe, log 25). -/
def decodeLabel (line : Text) : LineVerdict :=
  let name := line.takeWhile fun c => !endsLabel c
  if !isIdentifier name || (parseRegister name).isSome then .refuse .badLabel
  else if labelTailOk (line.dropWhile fun c => !endsLabel c) then .label name
  else .refuse .labelTrailingText

/-- An instruction line, its leading whitespace stripped (R66 to R82). -/
def decodeStatement (policy : ImmPolicy) (stmt : Text) : LineVerdict :=
  let inToken : Char → Bool := fun c => !(isWs c || c == ';')
  match decodeMnemonic (stmt.takeWhile inToken) with
  | .unknown => .skip
  | .residual rest => .refuse (.residual rest)
  | .fields f =>
    match parseOperands (stmt.dropWhile inToken) with
    | .error e => .refuse e
    | .ok o =>
      if operandsFit f.opcode f.suffix o.regs.length o.imm.isSome o.label.isSome then
        .emit ⟨f.opcode, f.cond, f.mode, f.suffix, o.regs, o.imm.map (fromInt policy)⟩ o.label
      else .refuse .operandShape

/-- One line of the source file (R61). -/
def decodeLine (policy : ImmPolicy) (line : Text) : LineVerdict :=
  match classifyLine line with
  | .blank => .blank
  | .label l => decodeLabel l
  | .statement s => decodeStatement policy s

/-! ### The two passes (R64, R65, R79, R80) -/

/-- A label reference awaiting pass 2: its name, the index of its instruction, and its line. -/
structure Pending where
  name : Text
  index : Nat
  line : Nat
  deriving DecidableEq, Repr

/-- The decoder's tables after some lines: the records emitted, the symbol table, the unresolved-label list and the
skipped lines. -/
structure Pass where
  records : List Record := []
  symbols : List (Text × Nat) := []
  pending : List Pending := []
  diag : List Nat := []
  deriving DecidableEq, Repr

/-- A record with one more entry at the end of its register list (R79). -/
def Record.addEntry (r : Record) (v : Nat) : Record := { r with regs := r.regs ++ [v] }

/-- Pass 1 on one line, numbered `n`. -/
def passLine (policy : ImmPolicy) (p : Pass) (n : Nat) (line : Text) : Except DecodeRefusal Pass :=
  match decodeLine policy line with
  | .blank => .ok p
  | .label name =>
    match p.symbols.lookup name with
    | some _ => .error ⟨.duplicateLabel, n⟩
    | none => .ok { p with symbols := p.symbols ++ [(name, p.records.length)] }
  | .skip => .ok { p with diag := p.diag ++ [n] }
  | .refuse e => .error ⟨e, n⟩
  | .emit r none => .ok { p with records := p.records ++ [r] }
  | .emit r (some name) =>
    match p.symbols.lookup name with
    | some v => .ok { p with records := p.records ++ [r.addEntry v] }
    | none =>
      .ok { p with records := p.records ++ [r], pending := p.pending ++ [⟨name, p.records.length, n⟩] }

/-- Pass 1 on the lines from the one numbered `n` on. -/
def passLines (policy : ImmPolicy) (p : Pass) (n : Nat) : List Text → Except DecodeRefusal Pass
  | [] => .ok p
  | l :: ls =>
    match passLine policy p n l with
    | .error e => .error e
    | .ok q => passLines policy q (n + 1) ls

/-- Pass 2: the unresolved-label list, drained in order (R80). -/
def resolve (symbols : List (Text × Nat)) : List Pending → List Record → Except DecodeRefusal (List Record)
  | [], rs => .ok rs
  | q :: qs, rs =>
    match symbols.lookup q.name with
    | none => .error ⟨.unresolvedLabel q.name, q.line⟩
    | some v => resolve symbols qs (rs.modify q.index (·.addEntry v))

/-- The decoder's verdict on a source text (R90, R95): a program image and the skipped lines, or a refusal. -/
inductive Verdict where
  | program (image : List Record) (diag : List Nat)
  | refused (r : DecodeRefusal)
  deriving DecidableEq, Repr

/-- The decoder on the lines of a source file: pass 1 over them, then pass 2. The program's length is not checked (DESIGN
CHOICE, unsafe beyond 2^32 instructions, log 22). -/
def assembleLines (policy : ImmPolicy) (lines : List Text) : Verdict :=
  match passLines policy {} 1 lines with
  | .error e => .refused e
  | .ok p =>
    match resolve p.symbols p.pending p.records with
    | .error e => .refused e
    | .ok rs => .program rs p.diag

/-- The decoder on a source text (R90, R95). -/
def assemble (policy : ImmPolicy) (text : Text) : Verdict := assembleLines policy (sourceLines text)

/-- The program image of a verdict, when there is one. -/
def Verdict.image? : Verdict → Option (List Record)
  | .program image _ => some image
  | .refused _ => none

/-! ### The row of a record -/

/-- The row of the opcode table a record selects (R96), `none` for an opcode outside the 21 (R91). -/
def Record.instr? (r : Record) : Option Instr :=
  match r.opcode with
  | .add => some (.add r.cond r.mode r.suffix r.regs r.imm)
  | .adc => some (.adc r.cond r.mode r.suffix r.regs r.imm)
  | .sub => some (.sub r.cond r.mode r.suffix r.regs r.imm)
  | .sbc => some (.sbc r.cond r.mode r.suffix r.regs r.imm)
  | .rsb => some (.rsb r.cond r.mode r.suffix r.regs r.imm)
  | .rsc => some (.rsc r.cond r.mode r.suffix r.regs r.imm)
  | .and => some (.and r.cond r.mode r.suffix r.regs r.imm)
  | .orr => some (.orr r.cond r.mode r.suffix r.regs r.imm)
  | .eor => some (.eor r.cond r.mode r.suffix r.regs r.imm)
  | .bic => some (.bic r.cond r.mode r.suffix r.regs r.imm)
  | .cmn => some (.cmn r.cond r.mode r.suffix r.regs r.imm)
  | .cmp => some (.cmp r.cond r.mode r.suffix r.regs r.imm)
  | .tst => some (.tst r.cond r.mode r.suffix r.regs r.imm)
  | .teq => some (.teq r.cond r.mode r.suffix r.regs r.imm)
  | .ldr =>
    match r.suffix with
    | .none => some (.ldr r.cond r.mode false r.regs r.imm)
    | .s => some (.ldr r.cond r.mode true r.regs r.imm)
    | .b => some (.ldrb r.cond r.mode r.regs r.imm)
    | .h => some (.ldrh r.cond r.mode r.regs r.imm)
    | .sb => some (.ldrsb r.cond r.mode r.regs r.imm)
    | .sh => some (.ldrsh r.cond r.mode r.regs r.imm)
    | .d => some (.ldrd r.cond r.mode r.regs r.imm)
  | .str =>
    match r.suffix with
    | .none => some (.str r.cond r.mode false r.regs r.imm)
    | .s => some (.str r.cond r.mode true r.regs r.imm)
    | .b => some (.strb r.cond r.mode r.regs r.imm)
    | .h => some (.strh r.cond r.mode r.regs r.imm)
    | .sb => some (.strsb r.cond r.mode r.regs r.imm)
    | .sh => some (.strsh r.cond r.mode r.regs r.imm)
    | .d => some (.strd r.cond r.mode r.regs r.imm)
  | .ldm =>
    match r.mode with
    | .none => some (.ldm r.cond r.suffix r.regs r.imm)
    | .ia => some (.ldmia r.cond r.suffix r.regs r.imm)
    | .ib => some (.ldmib r.cond r.suffix r.regs r.imm)
    | .da => some (.ldmda r.cond r.suffix r.regs r.imm)
    | .db => some (.ldmdb r.cond r.suffix r.regs r.imm)
  | .stm =>
    match r.mode with
    | .none => some (.stm r.cond r.suffix r.regs r.imm)
    | .ia => some (.stmia r.cond r.suffix r.regs r.imm)
    | .ib => some (.stmib r.cond r.suffix r.regs r.imm)
    | .da => some (.stmda r.cond r.suffix r.regs r.imm)
    | .db => some (.stmdb r.cond r.suffix r.regs r.imm)
  | .b => some (.b r.cond r.mode r.suffix r.regs r.imm)
  | .bl => some (.bl r.cond r.mode r.suffix r.regs r.imm)
  | .swi => some (.swi r.cond r.mode r.suffix r.regs r.imm)
  | .unknown _ => none

/-! ### A text packed in a number -/

/-- The `n` characters of a text packed in a number, eight bits each, the first in the low bits. -/
def unpackChars : (n w : Nat) → Text
  | 0, _ => []
  | n + 1, w => Char.ofNat (w % 256) :: unpackChars n (w / 256)

/-- The text of an instruction whose bits are `w`: its characters, as many as `nbits` covers, without the zero bytes at
the end, which are no characters of the text (DESIGN CHOICE, safe, log 12). -/
def wordText (nbits w : Nat) : Text :=
  ((unpackChars ((nbits + 7) / 8) w).reverse.dropWhile (· == '\x00')).reverse

/-- The one record of the source file that holds the instruction text `t` as an instruction line, with whatever label
lines `t` goes on with; `none` when the file is refused or does not hold exactly one instruction (log 12). -/
def decodeOne (policy : ImmPolicy) (t : Text) : Option Record :=
  match assemble policy (' ' :: t) with
  | .program [r] _ => some r
  | _ => none

/-- The instruction the decoder reads from an instruction whose bits are `w`. -/
def decodeTableWord (nbits w : Nat) : Option Instr :=
  (decodeOne .saturate (wordText nbits w)).bind Record.instr?

/-! ### The encoder -/

/-- The name a table gives to a value, empty when it has none. -/
def nameIn {α : Type} [DecidableEq α] (table : List (Text × α)) (a : α) : Text :=
  match table.find? fun e => decide (e.2 = a) with
  | some e => e.1
  | none => []

/-- The mnemonic token of a record: opcode, condition, mode, suffix (R66). -/
def Record.mnemonic (r : Record) : Text :=
  nameIn opcodeNames r.opcode ++ nameIn condNames r.cond ++ nameIn modeNames r.mode
    ++ nameIn (longSuffixNames ++ shortSuffixNames) r.suffix

/-- One decimal digit. -/
def digitChar (d : Nat) : Char := Char.ofNat (48 + d)

/-- The decimal digits of `n`, for `n` less than the fuel. -/
def decDigits : (fuel n : Nat) → Text
  | 0, _ => []
  | fuel + 1, n => if n < 10 then [digitChar n] else decDigits fuel (n / 10) ++ [digitChar (n % 10)]

/-- A number in decimal. -/
def decText (n : Nat) : Text := decDigits (n + 1) n

/-- A register token (R75). -/
def registerText (i : Nat) : Text := 'r' :: decText i

/-- An immediate token that denotes the word: its signed value in decimal (R77). -/
def immediateText (w : Word) : Text :=
  if sint w < 0 then '#' :: '-' :: decText (sint w).natAbs else '#' :: decText (sint w).natAbs

/-- The label the encoder gives to instruction index `k`. -/
def labelText (k : Nat) : Text := 'L' :: decText k

/-- Operands with a comma and a space between them. -/
def joinOperands : List Text → Text
  | [] => []
  | [t] => t
  | t :: ts => t ++ [',', ' '] ++ joinOperands ts

/-- The operand texts of a record: labels for a branch, else registers and the immediate. -/
def Record.operandTexts (r : Record) : List Text :=
  match r.opcode with
  | .b | .bl => r.regs.map labelText
  | _ => r.regs.map registerText ++ (r.imm.map immediateText).toList

/-- The statement of an instruction, with no whitespace before it. -/
def statementText (i : Instr) : Text :=
  i.record.mnemonic ++ ' ' :: joinOperands i.record.operandTexts

/-- The encoding of an instruction: its line of text. A branch names its target `k` by the label `L<k>`. -/
def encode (i : Instr) : Text := [' ', ' '] ++ statementText i

/-- The lines of a program whose first instruction has index `k`: before each instruction, and at the end, the label of
its index. -/
def encodeFrom (k : Nat) : List Instr → List Text
  | [] => [labelText k ++ [':']]
  | i :: is => (labelText k ++ [':']) :: encode i :: encodeFrom (k + 1) is

/-- Lines, each with the line feed that ends it. -/
def joinLines (ls : List Text) : Text := ls.flatMap fun l => l ++ ['\n']

/-- The source text of a program. -/
def encodeProgram (is : List Instr) : Text := joinLines (encodeFrom 0 is)

end Sys2Proof
end

