-- ==== Sys2Proof/Machine/State.lean ====
section
/-! DEFINITION. The state of the machine as plain data (spec/10_state.md), the reasons an instruction can fault
(spec/60_exceptions.md rule R201), and the state after reset (R34, R230). -/

namespace Sys2Proof.Machine

/-- The faults of R201, each with what it records; `index` is the index of the instruction. All are the spec's own: a
fault writes nothing and ends the run, so it is safe. -/
inductive Fault where
  /-- R113: an opcode outside the 21. Raised by `execRecord`. Safe. -/
  | unknownOpcode (index : Nat)
  /-- R12, R20: a register index of 16 or more. Raised by every meaning with register operands, and by the host's register
  access. Safe. -/
  | regIndex (index register : Nat)
  /-- R173: a pair of suffix D that is not even and consecutive. Raised by LDRD and STRD. Safe. -/
  | regPair (index first second : Nat)
  /-- R43: a cell index of MEM_SIZE or more. Raised by LDR, STR, LDM, STM in all forms, and by the host's memory access.
  Safe. -/
  | memIndex (index cell : Nat)
  /-- R201: a record whose operands do not fit its format. Raised by every meaning. Safe. -/
  | malformed (index : Nat)
  deriving DecidableEq, Repr

/-- Why an instruction has no meaning. -/
inductive Refusal where
  /-- The instruction has no meaning yet. Raised by no arm of this model. Safe. -/
  | notModelled (mnemonic : String)
  deriving DecidableEq, Repr

/-- The run status (R31). -/
inductive RunStatus where
  | idle
  | running
  | completed
  | halted
  | budgetExhausted
  | faulted (reason : Fault)
  deriving DecidableEq, Repr

/-- What the last `execute` returned (R114): Continue(false), Continue(true), Halt. The model's own field, read by the
loop and put back to `sequential` after each step (DEDUCED, safe, log 7). -/
inductive Signal where
  | sequential
  | branched
  | halt
  deriving DecidableEq, Repr

/-- Data memory (R29): the cells that differ from what an unlisted cell reads as, by rising index
(DEDUCED, safe, log 4). -/
abbrev Memory := List (Nat × Word)

/-- What a cell that nothing has written reads as. The spec leaves it open (INIT_MEM): DESIGN CHOICE, unsafe, log 2. -/
abbrev initCell : Word := 0#32

/-- The canonical form: cell indices strictly rising, and no entry equal to what an unlisted cell reads as. -/
abbrev Memory.wf (m : Memory) : Prop :=
  m.Pairwise (fun x y => x.1 < y.1) ∧ ∀ e ∈ m, e.2 ≠ initCell

/-- The machine: R0..R15 (R15 is the program counter), SR and MEM with the parameters it was built with, the program
image and step budget of the run, and the run's bookkeeping (R20, R25, R29, R30, R31; DEDUCED, safe, log 5, 6). -/
structure State where
  regs : Vector Word 16
  sr : Word
  mem : Memory
  params : Params
  program : List Record
  budget : Nat
  status : RunStatus
  executed : Nat
  signal : Signal
  deriving DecidableEq, Repr

/-- The machine right after construction (R34, R230): PC = 0, SR = 0, Idle, nothing executed. R0..R14, the cells and
MEM_SIZE are OPEN in the spec: DESIGN CHOICE zero, zero and 2^32, unsafe, log 1, 2, 3. The image and the budget are arguments
of a run, which has not begun: DESIGN CHOICE empty and 0, unsafe, log 26. -/
def State.reset : State where
  regs := Vector.replicate 16 0#32
  sr := 0#32
  mem := []
  params := { memSize := 2 ^ 32 }
  program := []
  budget := 0
  status := .idle
  executed := 0
  signal := .sequential

end Sys2Proof.Machine
end

