-- ==== Sys2Proof/Machine/Ops.lean ====
section
/-! DEFINITION. The named operations over registers, memory and the run status, and the bit-serial adder and subtractor:
what every instruction is written with. -/

namespace Sys2Proof.Machine

/-- The outcome of a meaning or of a step. -/
abbrev Out := Host.Outcome State Fault Refusal

/-! ### Registers (R12, R20, R21) -/

/-- `x[i]`; the checks of `regFault` come before any read, so the value for `i` of 16 or more is never used. -/
def State.reg (s : State) (i : Nat) : Word := s.regs[i]?.getD 0#32

/-- The program counter, `x[15]` (R21). -/
def State.pc (s : State) : Word := s.reg 15

/-- The index of the instruction being executed (R21). -/
def State.index (s : State) : Nat := uint s.pc

/-- `x[i] <- v`. A write to R15 is a branch, whatever the value (R21, R121). -/
def State.writeReg (s : State) (i : Nat) (v : Word) : State :=
  { s with
    regs := s.regs.setIfInBounds i v
    signal := if i = 15 then .branched else s.signal }

/-- `x[i] <- v` for each pair in turn (R174: a later duplicate wins). -/
def State.writeRegs (s : State) : List (Nat × Word) → State
  | [] => s
  | (i, v) :: l => (s.writeReg i v).writeRegs l

/-- The first index of the list that is 16 or more, as a fault (R12, R203). -/
def State.regFault (s : State) (is : List Nat) : Option Fault :=
  (is.find? fun i => decide (16 ≤ i)).map (.regIndex s.index)

/-- What `execute` returns to the loop (R114). -/
def State.setSignal (s : State) (g : Signal) : State := { s with signal := g }

/-! ### Memory (R13, R43) -/

/-- The cell of index `a`. -/
def Memory.read : Memory → Nat → Word
  | [], _ => initCell
  | (k, v) :: m, a => if a = k then v else Memory.read m a

/-- The memory without an entry for `a`. -/
def Memory.erase (m : Memory) (a : Nat) : Memory := m.filter fun e => e.1 ≠ a

/-- The memory with an entry for `a` put in its place, `a` not being listed. -/
def Memory.insert (a : Nat) (v : Word) : Memory → Memory
  | [] => [(a, v)]
  | (k, w) :: m => if a < k then (a, v) :: (k, w) :: m else (k, w) :: Memory.insert a v m

/-- The memory with cell `a` replaced, in canonical form: writing what an unlisted cell reads as removes the entry. -/
def Memory.write (m : Memory) (a : Nat) (v : Word) : Memory :=
  if v = initCell then Memory.erase m a else Memory.insert a v (Memory.erase m a)

/-- `MemRead(addr, 1)` past its bounds check (R42, R43). -/
def State.cell (s : State) (addr : Word) : Word := Memory.read s.mem (uint addr)

/-- `MemWrite(addr, 1, v)` past its bounds check (R42, R43). -/
def State.writeCell (s : State) (addr v : Word) : State :=
  { s with mem := Memory.write s.mem (uint addr) v }

/-- `MemWrite` for each pair in turn. -/
def State.writeCells (s : State) : List (Word × Word) → State
  | [] => s
  | (a, v) :: l => (s.writeCell a v).writeCells l

/-- The first address of the list at MEM_SIZE or beyond, as a fault (R43, R203). -/
def State.memFault (s : State) (as : List Word) : Option Fault :=
  (as.find? fun a => decide (s.params.memSize ≤ uint a)).map fun a => .memIndex s.index (uint a)

/-! ### Faults (R114, R115, R202) -/

/-- Goes on only when no check failed (R115). -/
def unlessFault (f : Option Fault) (out : Out) : Out :=
  match f with
  | some r => .fault r
  | none => out

/-- TAKING A FAULT (R120, R202): the run status becomes Faulted(reason); registers, SR, memory and the PC stay. There is
no vector, no saved state and no return from it (R205, R206). The loop takes it (DEDUCED, safe, log 8). -/
def State.takeFault (s : State) (reason : Fault) : State := { s with status := .faulted reason }

/-! ### The bit-serial adder and subtractor (R102, R104) -/

/-- One bit `b` at position `k` of a word. -/
def bitAt (k : Nat) (b : Bool) : Word := if b then 1#32 <<< k else 0#32

/-- Bits 0 to `k - 1` of `add_bits(a, b, cin)`, and the carry out of them. -/
def addBitsTo (a b : Word) (cin : Bool) : (k : Nat) → Word × Bool
  | 0 => (0#32, cin)
  | k + 1 =>
    let (r, c) := addBitsTo a b cin k
    let x := a.getLsbD k
    let y := b.getLsbD k
    (r ||| bitAt k (x ^^ y ^^ c), (x && y) || (c && (x ^^ y)))

/-- `add_bits(a, b, cin)` (R102): the sum and the carry out of bit 31, least significant bit first. -/
def addBits (a b : Word) (cin : Bool) : Word × Bool := addBitsTo a b cin 32

/-- Bits 0 to `k - 1` of `sub_bits(a, b, bin)`, and the borrow out of them. -/
def subBitsTo (a b : Word) (bin : Bool) : (k : Nat) → Word × Bool
  | 0 => (0#32, bin)
  | k + 1 =>
    let (r, w) := subBitsTo a b bin k
    let x := a.getLsbD k
    let y := b.getLsbD k
    (r ||| bitAt k (x ^^ y ^^ w), (!x && y) || (w && !(x ^^ y)))

/-- `sub_bits(a, b, bin)` (R104): the difference and the borrow out of bit 31. -/
def subBits (a b : Word) (bin : Bool) : Word × Bool := subBitsTo a b bin 32

/-- What an add or subtract hands to the flag update: the result word, the wide result and the C value (R103, R105). -/
structure ArithResult where
  value : Word
  wide : Int
  carry : Bool
  deriving DecidableEq, Repr

/-- The add family's computation (R102, R105): C is the carry. -/
def arithAdd (a b : Word) (cin : Bool) : ArithResult :=
  ⟨(addBits a b cin).1, sint a + sint b + cin.toInt, (addBits a b cin).2⟩

/-- The subtract family's computation (R104, R105): C is NOT borrow. -/
def arithSub (a b : Word) (bin : Bool) : ArithResult :=
  ⟨(subBits a b bin).1, sint a - sint b - bin.toInt, !(subBits a b bin).2⟩

end Sys2Proof.Machine
end

