-- ==== Sys2Proof/Machine/Flags.lean ====
section
/-! DEFINITION. The status register: reading and writing its flags, the two flag updates (spec/40_execution_core.md rules
R103 and R107), and the condition evaluator (R110). -/

namespace Sys2Proof.Machine

/-- A word with bit `p` replaced. -/
def setBit (w : Word) (p : Fin 32) (b : Bool) : Word :=
  if b then w ||| 1#32 <<< p.val else w &&& ~~~(1#32 <<< p.val)

/-- `SR.N`. -/
def State.flagN (s : State) : Bool := s.sr.getLsbD s.params.flagPos.n

/-- `SR.Z`. -/
def State.flagZ (s : State) : Bool := s.sr.getLsbD s.params.flagPos.z

/-- `SR.C`. -/
def State.flagC (s : State) : Bool := s.sr.getLsbD s.params.flagPos.c

/-- `SR.V`. -/
def State.flagV (s : State) : Bool := s.sr.getLsbD s.params.flagPos.v

/-- The status register with the four flags replaced and its other bits kept (R26). -/
def State.withFlags (s : State) (n z c v : Bool) : State :=
  let p := s.params.flagPos
  { s with sr := setBit (setBit (setBit (setBit s.sr p.n n) p.z z) p.c c) p.v v }

/-- Whether the signed wide result is outside 32 bits (R103). -/
def wideOverflow (wide : Int) : Bool := decide (wide < -2 ^ 31 ∨ 2 ^ 31 - 1 < wide)

/-- N of an add or subtract (R101). -/
def arithN (source : NFlagSource) (r : ArithResult) : Bool :=
  match source with
  | .truncated => r.value.msb
  | .wide => decide (r.wide < 0)

/-- `set_arith_flags` (R103). -/
def State.setArithFlags (s : State) (r : ArithResult) : State :=
  s.withFlags (arithN s.params.nFlagSource r) (r.value == 0#32) r.carry (wideOverflow r.wide)

/-- `set_logic_flags` (R107). -/
def State.setLogicFlags (s : State) (r : Word) : State :=
  match s.params.logicCV with
  | .preserve => s.withFlags r.msb (r == 0#32) s.flagC s.flagV
  | .clear => s.withFlags r.msb (r == 0#32) false false

/-- The borrow-in of SBC and RSC (R141). -/
def State.borrowIn (s : State) : Bool :=
  match s.params.sbcBorrowIn with
  | .flagC => s.flagC
  | .notFlagC => !s.flagC

/-- `meets_condition` (R110) on the four flags. A code outside the table is true (R111). -/
def condHolds (c : Cond) (n z cf v : Bool) : Bool :=
  match c with
  | .none | .al => true
  | .eq => z
  | .ne => !z
  | .cs => cf
  | .cc => !cf
  | .mi => n
  | .pl => !n
  | .vs => v
  | .vc => !v
  | .hi => cf && !z
  | .ls => !cf || z
  | .ge => n == v
  | .lt => n != v
  | .gt => !z && n == v
  | .le => z || n != v
  | .unmapped _ => true

/-- `meets_condition(cond, SR)` (R110). -/
def State.meets (s : State) (c : Cond) : Bool := condHolds c s.flagN s.flagZ s.flagC s.flagV

/-- The condition gate (R112): `body` runs only when the condition holds; otherwise nothing happens and `execute` returns
Continue(false) (R114). -/
def gated (c : Cond) (s : State) (body : State → Out) : Out :=
  if s.meets c then body (s.setSignal .sequential) else .next (s.setSignal .sequential)

end Sys2Proof.Machine
end

