-- ==== Sys2Proof/Machine/Operands.lean ====
section
/-! DEFINITION. The operand roles (spec/30_encoding.md rule R87), in one place: how a handler reads a record's register
list and immediate, format by format. `none` is a record that does not fit its format (MALFORMED, R201). -/

namespace Sys2Proof.Machine

/-- The second operand: an immediate word or a register (R108). -/
inductive Operand2 where
  | imm (w : Word)
  | reg (m : Nat)
  deriving DecidableEq, Repr

/-- The register index a second operand names. -/
def Operand2.registers : Operand2 → List Nat
  | .imm _ => []
  | .reg m => [m]

/-- The immediate field of a record with this second operand. -/
def Operand2.imm? : Operand2 → Option Word
  | .imm w => some w
  | .reg _ => none

/-- `op2(ins)` (R108). -/
def Operand2.value (s : State) : Operand2 → Word
  | .imm w => w
  | .reg m => s.reg m

/-- DP3: destination, first operand, second operand. -/
structure Dp3Operands where
  d : Nat
  n : Nat
  op2 : Operand2
  deriving DecidableEq, Repr

/-- The roles of format DP3. -/
def dp3Operands : List Nat → Option Word → Option Dp3Operands
  | [d, n], some w => some ⟨d, n, .imm w⟩
  | [d, n, m], none => some ⟨d, n, .reg m⟩
  | _, _ => none

/-- CMP2: first operand, second operand. -/
structure Cmp2Operands where
  n : Nat
  op2 : Operand2
  deriving DecidableEq, Repr

/-- The roles of format CMP2. -/
def cmp2Operands : List Nat → Option Word → Option Cmp2Operands
  | [n], some w => some ⟨n, .imm w⟩
  | [n, m], none => some ⟨n, .reg m⟩
  | _, _ => none

/-- LS: transfer register, base, offset. -/
structure LsOperands where
  t : Nat
  n : Nat
  offset : Word
  deriving DecidableEq, Repr

/-- The roles of format LS; an absent immediate is the offset 0. -/
def lsOperands : List Nat → Option Word → Option LsOperands
  | [t, n], imm => some ⟨t, n, imm.getD 0#32⟩
  | _, _ => none

/-- LSD: the two transfer registers, base, offset. -/
structure LsdOperands where
  t : Nat
  t2 : Nat
  n : Nat
  offset : Word
  deriving DecidableEq, Repr

/-- The roles of format LSD. -/
def lsdOperands : List Nat → Option Word → Option LsdOperands
  | [t, t2, n], imm => some ⟨t, t2, n, imm.getD 0#32⟩
  | _, _ => none

/-- LSM: base and register list. -/
structure LsmOperands where
  n : Nat
  list : List Nat
  deriving DecidableEq, Repr

/-- The roles of format LSM. -/
def lsmOperands : List Nat → Option Word → Option LsmOperands
  | n :: list, none => some ⟨n, list⟩
  | _, _ => none

/-- The role of format BR: the target index, a value. -/
def brOperand : List Nat → Option Word → Option Nat
  | [target], none => some target
  | _, _ => none

/-- Format SYS has no operand: whether the record fits it. -/
def sysOperands : List Nat → Option Word → Option Unit
  | [], none => some ()
  | _, _ => none

/-- Goes on with a record's operands, or raises MALFORMED (R201, R203). -/
def withOperands {α : Type} (s : State) (o : Option α) (body : α → Out) : Out :=
  match o with
  | none => .fault (.malformed s.index)
  | some a => body a

/-- `ea(ins)` (R160): base plus offset, modulo 2^32. -/
def effectiveAddress (s : State) (n : Nat) (offset : Word) : Word := s.reg n + offset

/-- `check_pair(t, t2)` (R173). -/
def State.pairFault (s : State) (t t2 : Nat) : Option Fault :=
  if t % 2 = 0 ∧ t2 = t + 1 ∧ t2 ≤ 15 then none else some (.regPair s.index t t2)

/-- The address of list element `j` (R174, R183), modulo 2^32. -/
def blockAddress (mode : UpdateMode) (base : Word) (j : Nat) : Word :=
  match mode with
  | .none | .ia => base + BitVec.ofNat 32 j
  | .ib => base + BitVec.ofNat 32 (j + 1)
  | .da => base - BitVec.ofNat 32 j
  | .db => base - BitVec.ofNat 32 (j + 1)

/-- The addresses of a list of `k` elements, in transfer order (R174). -/
def blockAddresses (mode : UpdateMode) (base : Word) (k : Nat) : List Word :=
  (List.range k).map (blockAddress mode base)

end Sys2Proof.Machine
end

