-- ==== Sys2Proof/Machine/Handlers.lean ====
section
/-! DEFINITION. The shape every instruction of a format shares: the condition gate, the operand roles, the checks of
spec/60_exceptions.md rule R203 in their order, and only then the writes (spec/40_execution_core.md rule R115). Each
meaning is one line over one of these. -/

namespace Sys2Proof.Machine

/-! ### Data processing (R82, R83) -/

/-- Format DP3: `compute` is given x[n] and op2, and the state they were read in. -/
def dp3 (c : Cond) (regs : List Nat) (imm : Option Word) (s : State)
    (write : (d : Nat) → (a b : Word) → State → State) : Out :=
  gated c s fun s =>
    withOperands s (dp3Operands regs imm) fun o =>
      unlessFault (s.regFault (o.d :: o.n :: o.op2.registers)) <|
        .next (write o.d (s.reg o.n) (o.op2.value s) s)

/-- Format CMP2: as DP3 without a destination (R109). -/
def cmp2 (c : Cond) (regs : List Nat) (imm : Option Word) (s : State)
    (write : (a b : Word) → State → State) : Out :=
  gated c s fun s =>
    withOperands s (cmp2Operands regs imm) fun o =>
      unlessFault (s.regFault (o.n :: o.op2.registers)) <|
        .next (write (s.reg o.n) (o.op2.value s) s)

/-- Writes an add or subtract's result, then the flags when the suffix is S (R28, R103). -/
def writeArith (x : Suffix) (d : Nat) (r : ArithResult) (s : State) : State :=
  if x = .s then (s.writeReg d r.value).setArithFlags r else s.writeReg d r.value

/-- Writes a logical result, then the flags when the suffix is S (R28, R107). -/
def writeLogic (x : Suffix) (d : Nat) (r : Word) (s : State) : State :=
  if x = .s then (s.writeReg d r).setLogicFlags r else s.writeReg d r

/-! ### Single and doubleword transfers (R160, R84) -/

/-- A load of one cell; `extend` makes the register's word of the cell's (R161 to R165). -/
def loadCell (c : Cond) (regs : List Nat) (imm : Option Word) (s : State) (extend : Word → Word) : Out :=
  gated c s fun s =>
    withOperands s (lsOperands regs imm) fun o =>
      unlessFault (s.regFault [o.t, o.n]) <|
        let a := effectiveAddress s o.n o.offset
        unlessFault (s.memFault [a]) <|
          .next (s.writeReg o.t (extend (s.cell a)))

/-- A store of one cell; `place` makes the cell's new word of its old one and the register's (R167 to R171). -/
def storeCell (c : Cond) (regs : List Nat) (imm : Option Word) (s : State) (place : (old v : Word) → Word) : Out :=
  gated c s fun s =>
    withOperands s (lsOperands regs imm) fun o =>
      unlessFault (s.regFault [o.t, o.n]) <|
        let a := effectiveAddress s o.n o.offset
        unlessFault (s.memFault [a]) <|
          .next (s.writeCell a (place (s.cell a) (s.reg o.t)))

/-- The pair check, the register checks and the bounds checks of a doubleword transfer, in the order of R203; `body` is
given the operands and the two addresses (R166, R172). -/
def doubleword (c : Cond) (regs : List Nat) (imm : Option Word) (s : State)
    (body : LsdOperands → (a a2 : Word) → State → State) : Out :=
  gated c s fun s =>
    withOperands s (lsdOperands regs imm) fun o =>
      unlessFault (s.pairFault o.t o.t2) <|
        unlessFault (s.regFault [o.t, o.t2, o.n]) <|
          let a := effectiveAddress s o.n o.offset
          unlessFault (s.memFault [a, a + 1#32]) <|
            .next (body o a (a + 1#32) s)

/-! ### Narrow transfers (R44) -/

/-- Bits 7:0, zero-extended (R162). -/
def zeroByte (w : Word) : Word := (w.setWidth 8).setWidth 32

/-- Bits 15:0, zero-extended (R163). -/
def zeroHalf (w : Word) : Word := (w.setWidth 16).setWidth 32

/-- Bits 7:0, sign-extended (R164). -/
def signByte (w : Word) : Word := (w.setWidth 8).signExtend 32

/-- Bits 15:0, sign-extended (R165). -/
def signHalf (w : Word) : Word := (w.setWidth 16).signExtend 32

/-- The cell after a byte store (R168). -/
def placeByte (policy : NarrowStore) (old v : Word) : Word :=
  match policy with
  | .zeroFill => zeroByte v
  | .merge => (old &&& 0xFFFFFF00#32) ||| zeroByte v

/-- The cell after a halfword store (R169). -/
def placeHalf (policy : NarrowStore) (old v : Word) : Word :=
  match policy with
  | .zeroFill => zeroHalf v
  | .merge => (old &&& 0xFFFF0000#32) ||| zeroHalf v

/-! ### Multiple transfers (R174) -/

/-- `ldm_stm(ins, load)` up to its writes; `body` is given the operands and the addresses in transfer order. -/
def multiple (mode : UpdateMode) (c : Cond) (regs : List Nat) (imm : Option Word) (s : State)
    (body : LsmOperands → List Word → State → State) : Out :=
  gated c s fun s =>
    withOperands s (lsmOperands regs imm) fun o =>
      unlessFault (s.regFault (o.n :: o.list)) <|
        let as := blockAddresses mode (s.reg o.n) o.list.length
        unlessFault (s.memFault as) <|
          .next (body o as s)

/-- LDM: every cell is read before the first register is written (R174). -/
def loadMultiple (mode : UpdateMode) (c : Cond) (regs : List Nat) (imm : Option Word) (s : State) : Out :=
  multiple mode c regs imm s fun o as s => s.writeRegs (o.list.zip (as.map s.cell))

/-- STM: every register is read before the first cell is written (R174). -/
def storeMultiple (mode : UpdateMode) (c : Cond) (regs : List Nat) (imm : Option Word) (s : State) : Out :=
  multiple mode c regs imm s fun o as s => s.writeCells (as.zip (o.list.map s.reg))

end Sys2Proof.Machine
end

