-- ==== Sys2Proof/Machine/Add.lean ====
section
/-! DEFINITION. The add family: ADD, ADC, CMN (spec/41_add_family.md). The update mode is ignored, and every suffix but S (R93). -/

namespace Sys2Proof.Machine

/-- ADD (R130). -/
def execAdd (c : Cond) (_m : UpdateMode) (x : Suffix) (rs : List Nat) (im : Option Word) (s : State) : Out :=
  dp3 c rs im s fun d a b s => writeArith x d (arithAdd a b false) s

/-- ADC (R131): the carry-in is SR.C, read before any flag is written. -/
def execAdc (c : Cond) (_m : UpdateMode) (x : Suffix) (rs : List Nat) (im : Option Word) (s : State) : Out :=
  dp3 c rs im s fun d a b s => writeArith x d (arithAdd a b s.flagC) s

/-- CMN (R132): ADD with the result discarded and the flags always updated. -/
def execCmn (c : Cond) (_m : UpdateMode) (_x : Suffix) (rs : List Nat) (im : Option Word) (s : State) : Out :=
  cmp2 c rs im s fun a b s => s.setArithFlags (arithAdd a b false)

end Sys2Proof.Machine
end

