-- ==== Sys2Proof/Machine/Control.lean ====
section
/-! DEFINITION. Control transfer and the software-interrupt class: B, BL, SWI (spec/45_control_transfer.md). The update mode and the suffix
are ignored (R93). -/

namespace Sys2Proof.Machine

/-- B (R190): the target is a value, never a register index. -/
def execB (c : Cond) (_m : UpdateMode) (_x : Suffix) (rs : List Nat) (im : Option Word) (s : State) : Out :=
  gated c s fun s =>
    withOperands s (brOperand rs im) fun target => .next (s.writeReg 15 (trunc32 target))

/-- BL (R191): the link register gets the BL's own index plus one, then the PC its target. -/
def execBl (c : Cond) (_m : UpdateMode) (_x : Suffix) (rs : List Nat) (im : Option Word) (s : State) : Out :=
  gated c s fun s =>
    withOperands s (brOperand rs im) fun target =>
      .next ((s.writeReg 14 (s.pc + 1#32)).writeReg 15 (trunc32 target))

/-- SWI (R193): the halt signal, and no other change. -/
def execSwi (c : Cond) (_m : UpdateMode) (_x : Suffix) (rs : List Nat) (im : Option Word) (s : State) : Out :=
  gated c s fun s =>
    withOperands s (sysOperands rs im) fun _ => .next (s.setSignal .halt)

end Sys2Proof.Machine
end

