-- ==== Sys2Proof/Machine/Logical.lean ====
section
/-! DEFINITION. The logical family: AND, ORR, EOR, BIC, TST, TEQ (spec/43_logical_family.md). The update mode is ignored, and every
suffix but S (R93). -/

namespace Sys2Proof.Machine

/-- AND (R151). -/
def execAnd (c : Cond) (_m : UpdateMode) (x : Suffix) (rs : List Nat) (im : Option Word) (s : State) : Out :=
  dp3 c rs im s fun d a b s => writeLogic x d (a &&& b) s

/-- ORR (R152). -/
def execOrr (c : Cond) (_m : UpdateMode) (x : Suffix) (rs : List Nat) (im : Option Word) (s : State) : Out :=
  dp3 c rs im s fun d a b s => writeLogic x d (a ||| b) s

/-- EOR (R153). -/
def execEor (c : Cond) (_m : UpdateMode) (x : Suffix) (rs : List Nat) (im : Option Word) (s : State) : Out :=
  dp3 c rs im s fun d a b s => writeLogic x d (a ^^^ b) s

/-- BIC (R154). -/
def execBic (c : Cond) (_m : UpdateMode) (x : Suffix) (rs : List Nat) (im : Option Word) (s : State) : Out :=
  dp3 c rs im s fun d a b s => writeLogic x d (a &&& ~~~b) s

/-- TST (R155). -/
def execTst (c : Cond) (_m : UpdateMode) (_x : Suffix) (rs : List Nat) (im : Option Word) (s : State) : Out :=
  cmp2 c rs im s fun a b s => s.setLogicFlags (a &&& b)

/-- TEQ (R156). -/
def execTeq (c : Cond) (_m : UpdateMode) (_x : Suffix) (rs : List Nat) (im : Option Word) (s : State) : Out :=
  cmp2 c rs im s fun a b s => s.setLogicFlags (a ^^^ b)

end Sys2Proof.Machine
end

