-- ==== Sys2Proof/Machine/Multiple.lean ====
section
/-! DEFINITION. Multiple transfers: LDM and STM with their update modes (spec/44_data_transfer.md section 2). The suffix is ignored (R183). -/

namespace Sys2Proof.Machine

/-- LDM (R183): no mode is IA. -/
def execLdm (c : Cond) (_x : Suffix) (rs : List Nat) (im : Option Word) (s : State) : Out :=
  loadMultiple .none c rs im s

/-- LDMIA (R175). -/
def execLdmia (c : Cond) (_x : Suffix) (rs : List Nat) (im : Option Word) (s : State) : Out :=
  loadMultiple .ia c rs im s

/-- LDMIB (R176). -/
def execLdmib (c : Cond) (_x : Suffix) (rs : List Nat) (im : Option Word) (s : State) : Out :=
  loadMultiple .ib c rs im s

/-- LDMDA (R177). -/
def execLdmda (c : Cond) (_x : Suffix) (rs : List Nat) (im : Option Word) (s : State) : Out :=
  loadMultiple .da c rs im s

/-- LDMDB (R178). -/
def execLdmdb (c : Cond) (_x : Suffix) (rs : List Nat) (im : Option Word) (s : State) : Out :=
  loadMultiple .db c rs im s

/-- STM (R183): no mode is IA. -/
def execStm (c : Cond) (_x : Suffix) (rs : List Nat) (im : Option Word) (s : State) : Out :=
  storeMultiple .none c rs im s

/-- STMIA (R179). -/
def execStmia (c : Cond) (_x : Suffix) (rs : List Nat) (im : Option Word) (s : State) : Out :=
  storeMultiple .ia c rs im s

/-- STMIB (R180). -/
def execStmib (c : Cond) (_x : Suffix) (rs : List Nat) (im : Option Word) (s : State) : Out :=
  storeMultiple .ib c rs im s

/-- STMDA (R181). -/
def execStmda (c : Cond) (_x : Suffix) (rs : List Nat) (im : Option Word) (s : State) : Out :=
  storeMultiple .da c rs im s

/-- STMDB (R182). -/
def execStmdb (c : Cond) (_x : Suffix) (rs : List Nat) (im : Option Word) (s : State) : Out :=
  storeMultiple .db c rs im s

end Sys2Proof.Machine
end

