-- ==== Sys2Proof/Machine/Subtract.lean ====
section
/-! DEFINITION. The subtract family: SUB, SBC, RSB, RSC, CMP (spec/42_subtract_family.md). The update mode is ignored, and every suffix
but S (R93). -/

namespace Sys2Proof.Machine

/-- SUB (R140). -/
def execSub (c : Cond) (_m : UpdateMode) (x : Suffix) (rs : List Nat) (im : Option Word) (s : State) : Out :=
  dp3 c rs im s fun d a b s => writeArith x d (arithSub a b false) s

/-- SBC (R141). -/
def execSbc (c : Cond) (_m : UpdateMode) (x : Suffix) (rs : List Nat) (im : Option Word) (s : State) : Out :=
  dp3 c rs im s fun d a b s => writeArith x d (arithSub a b s.borrowIn) s

/-- RSB (R142): op2 minus x[n]. -/
def execRsb (c : Cond) (_m : UpdateMode) (x : Suffix) (rs : List Nat) (im : Option Word) (s : State) : Out :=
  dp3 c rs im s fun d a b s => writeArith x d (arithSub b a false) s

/-- RSC (R143): op2 minus x[n] minus the borrow-in. -/
def execRsc (c : Cond) (_m : UpdateMode) (x : Suffix) (rs : List Nat) (im : Option Word) (s : State) : Out :=
  dp3 c rs im s fun d a b s => writeArith x d (arithSub b a s.borrowIn) s

/-- CMP (R144): SUB with the result discarded and the flags always updated. -/
def execCmp (c : Cond) (_m : UpdateMode) (_x : Suffix) (rs : List Nat) (im : Option Word) (s : State) : Out :=
  cmp2 c rs im s fun a b s => s.setArithFlags (arithSub a b false)

end Sys2Proof.Machine
end

