-- ==== Sys2Proof/Machine/Transfer.lean ====
section
/-! DEFINITION. Single and doubleword transfers: LDR and STR with their width suffixes (spec/44_data_transfer.md section 1). The update
mode is ignored, and the suffix S (R93). -/

namespace Sys2Proof.Machine

/-- LDR (R161). -/
def execLdr (c : Cond) (_m : UpdateMode) (_f : Bool) (rs : List Nat) (im : Option Word) (s : State) : Out :=
  loadCell c rs im s id

/-- LDRB (R162). -/
def execLdrb (c : Cond) (_m : UpdateMode) (rs : List Nat) (im : Option Word) (s : State) : Out :=
  loadCell c rs im s zeroByte

/-- LDRH (R163). -/
def execLdrh (c : Cond) (_m : UpdateMode) (rs : List Nat) (im : Option Word) (s : State) : Out :=
  loadCell c rs im s zeroHalf

/-- LDRSB (R164). -/
def execLdrsb (c : Cond) (_m : UpdateMode) (rs : List Nat) (im : Option Word) (s : State) : Out :=
  loadCell c rs im s signByte

/-- LDRSH (R165). -/
def execLdrsh (c : Cond) (_m : UpdateMode) (rs : List Nat) (im : Option Word) (s : State) : Out :=
  loadCell c rs im s signHalf

/-- LDRD (R166): both cells are read before either register is written. -/
def execLdrd (c : Cond) (_m : UpdateMode) (rs : List Nat) (im : Option Word) (s : State) : Out :=
  doubleword c rs im s fun o a a2 s => (s.writeReg o.t (s.cell a)).writeReg o.t2 (s.cell a2)

/-- STR (R167). -/
def execStr (c : Cond) (_m : UpdateMode) (_f : Bool) (rs : List Nat) (im : Option Word) (s : State) : Out :=
  storeCell c rs im s fun _ v => v

/-- STRB (R168). -/
def execStrb (c : Cond) (_m : UpdateMode) (rs : List Nat) (im : Option Word) (s : State) : Out :=
  storeCell c rs im s (placeByte s.params.narrowStore)

/-- STRH (R169). -/
def execStrh (c : Cond) (_m : UpdateMode) (rs : List Nat) (im : Option Word) (s : State) : Out :=
  storeCell c rs im s (placeHalf s.params.narrowStore)

/-- STRSB (R170): as STRB. -/
def execStrsb (c : Cond) (_m : UpdateMode) (rs : List Nat) (im : Option Word) (s : State) : Out :=
  storeCell c rs im s (placeByte s.params.narrowStore)

/-- STRSH (R171): as STRH. -/
def execStrsh (c : Cond) (_m : UpdateMode) (rs : List Nat) (im : Option Word) (s : State) : Out :=
  storeCell c rs im s (placeHalf s.params.narrowStore)

/-- STRD (R172). -/
def execStrd (c : Cond) (_m : UpdateMode) (rs : List Nat) (im : Option Word) (s : State) : Out :=
  doubleword c rs im s fun o a a2 s => (s.writeCell a (s.reg o.t)).writeCell a2 (s.reg o.t2)

end Sys2Proof.Machine
end

