-- ==== Sys2Proof/Machine/Dispatch.lean ====
section
/-! DEFINITION. `execute(ins)` (spec/40_execution_core.md rule R114): one arm per row of the opcode table (R113). -/

namespace Sys2Proof.Machine

def exec (i : Instr) (s : State) : Host.Outcome State Fault Refusal :=
  match i with
  | .add c m x rs im => Sys2Proof.Machine.execAdd c m x rs im s
  | .adc c m x rs im => Sys2Proof.Machine.execAdc c m x rs im s
  | .sub c m x rs im => Sys2Proof.Machine.execSub c m x rs im s
  | .sbc c m x rs im => Sys2Proof.Machine.execSbc c m x rs im s
  | .rsb c m x rs im => Sys2Proof.Machine.execRsb c m x rs im s
  | .rsc c m x rs im => Sys2Proof.Machine.execRsc c m x rs im s
  | .and c m x rs im => Sys2Proof.Machine.execAnd c m x rs im s
  | .orr c m x rs im => Sys2Proof.Machine.execOrr c m x rs im s
  | .eor c m x rs im => Sys2Proof.Machine.execEor c m x rs im s
  | .bic c m x rs im => Sys2Proof.Machine.execBic c m x rs im s
  | .cmn c m x rs im => Sys2Proof.Machine.execCmn c m x rs im s
  | .cmp c m x rs im => Sys2Proof.Machine.execCmp c m x rs im s
  | .tst c m x rs im => Sys2Proof.Machine.execTst c m x rs im s
  | .teq c m x rs im => Sys2Proof.Machine.execTeq c m x rs im s
  | .ldr c m f rs im => Sys2Proof.Machine.execLdr c m f rs im s
  | .ldrb c m rs im => Sys2Proof.Machine.execLdrb c m rs im s
  | .ldrh c m rs im => Sys2Proof.Machine.execLdrh c m rs im s
  | .ldrsb c m rs im => Sys2Proof.Machine.execLdrsb c m rs im s
  | .ldrsh c m rs im => Sys2Proof.Machine.execLdrsh c m rs im s
  | .ldrd c m rs im => Sys2Proof.Machine.execLdrd c m rs im s
  | .str c m f rs im => Sys2Proof.Machine.execStr c m f rs im s
  | .strb c m rs im => Sys2Proof.Machine.execStrb c m rs im s
  | .strh c m rs im => Sys2Proof.Machine.execStrh c m rs im s
  | .strsb c m rs im => Sys2Proof.Machine.execStrsb c m rs im s
  | .strsh c m rs im => Sys2Proof.Machine.execStrsh c m rs im s
  | .strd c m rs im => Sys2Proof.Machine.execStrd c m rs im s
  | .ldm c x rs im => Sys2Proof.Machine.execLdm c x rs im s
  | .ldmia c x rs im => Sys2Proof.Machine.execLdmia c x rs im s
  | .ldmib c x rs im => Sys2Proof.Machine.execLdmib c x rs im s
  | .ldmda c x rs im => Sys2Proof.Machine.execLdmda c x rs im s
  | .ldmdb c x rs im => Sys2Proof.Machine.execLdmdb c x rs im s
  | .stm c x rs im => Sys2Proof.Machine.execStm c x rs im s
  | .stmia c x rs im => Sys2Proof.Machine.execStmia c x rs im s
  | .stmib c x rs im => Sys2Proof.Machine.execStmib c x rs im s
  | .stmda c x rs im => Sys2Proof.Machine.execStmda c x rs im s
  | .stmdb c x rs im => Sys2Proof.Machine.execStmdb c x rs im s
  | .b c m x rs im => Sys2Proof.Machine.execB c m x rs im s
  | .bl c m x rs im => Sys2Proof.Machine.execBl c m x rs im s
  | .swi c m x rs im => Sys2Proof.Machine.execSwi c m x rs im s

end Sys2Proof.Machine
end

