-- ==== Sys2Proof/Machine/Loop.lean ====
section
/-! DEFINITION. The simulator loop (spec/40_execution_core.md rules R120 to R123): fetch by instruction index, execute,
advance the PC, and the ways a run ends. -/

namespace Sys2Proof.Machine

/-- `execute(ins)` on a decoded record (R112 to R114): the gate, then UNKNOWN_OPCODE for an opcode outside the 21 (R203),
else the instruction of its row. -/
def execRecord (r : Record) (s : State) : Out :=
  match r.instr? with
  | some i => exec i s
  | none => gated r.cond s fun s => .fault (.unknownOpcode s.index)

/-- Fetch: the record at the PC, `none` at L or beyond (R24, R120). -/
def State.fetch (s : State) : Option Record := s.program[s.index]?

/-- Every fetched instruction counts one (R123). -/
def State.countFetch (s : State) : State := { s with executed := s.executed + 1 }

/-- Whether the step budget is used up (R122, R123). -/
def State.budgetSpent (s : State) : Bool := decide (s.budget ≠ 0 ∧ s.executed = s.budget)

/-- What the loop does with a returned `execute`: `pc` is the value of x[15] at the fetch, `s` the state returned (R120,
R121). The signal is used up. -/
def State.advance (s : State) (pc : Word) : State :=
  match s.signal with
  | .sequential => { s with regs := s.regs.setIfInBounds 15 (pc + 1#32) }
  | .branched => { s with signal := .sequential }
  | .halt => { s with status := .halted, signal := .sequential }

/-- What the loop does with the outcome of `execute` on `s` (R120): a fault is taken into the run status. -/
def settle (s : State) (out : Out) : Out :=
  match out with
  | .next t => .next (t.advance s.pc)
  | .fault r => .next (s.takeFault r)
  | .refused r => .refused r

/-- One step of the loop (R120), the ends of a run checked in the order of R122. A machine whose status is not Running
stays as it is (DESIGN CHOICE, unsafe, log 9). -/
def loopStep (s : State) : Out :=
  if s.status = .running then
    match s.fetch with
    | none => .next { s with status := .completed }
    | some r =>
      if s.budgetSpent then .next { s with status := .budgetExhausted }
      else settle s.countFetch (execRecord r s.countFetch)
  else .next s

/-- The program image with `r` at index `i`. A gap before `i` is filled with SWI records. -/
def placeRecord (image : List Record) (i : Nat) (r : Record) : List Record :=
  let filler : Record := ⟨.swi, .none, .none, .none, [], none⟩
  image.take i ++ List.replicate (i - image.length) filler ++ r :: image.drop (i + 1)

/-- The state whose very next step fetches and runs the instruction of the text packed in `w`: its record stands in the
program image at the PC, and a run has just started. A text the decoder refuses reaches no machine (R208) (log 12). -/
def State.placeWord (s : State) (nbits w : Nat) : State :=
  match decodeOne s.params.immPolicy (wordText nbits w) with
  | some r => { s with program := placeRecord s.program s.index r, status := .running, executed := 0 }
  | none => s

end Sys2Proof.Machine
end

