-- ==== Sys2Proof/Machine/Step.lean ====
section
/-! DEFINITION. The step of the machine, and the state whose next step runs a given instruction. -/

namespace Sys2Proof.Machine

/-- One step of the simulator loop (R120). -/
def step (s : State) : Host.Outcome State Fault Refusal := loopStep s

/-- The state whose next step runs the instruction of the text packed in `w` (log 12). -/
def State.withFetchWord (s : State) (nbits w : Nat) : State := s.placeWord nbits w

end Sys2Proof.Machine
end

