-- ==== Sys2Proof/Machine/HostInterface.lean ====
section
/-! DEFINITION. The host interface (spec/60_exceptions.md rules R210 to R214, spec/40_execution_core.md rule R124): what the
excluded shell can do to the machine, only while no run is in progress. No step of the machine calls any of it, and none checks that no run
is in progress (DESIGN CHOICE, safe, log 23). A fault of a host access records the current PC (DESIGN CHOICE, unsafe for
that index, log 20). -/

namespace Sys2Proof.Machine

/-- `Machine(memory_size)` (R230, R34), with the launch parameters INIT_REGS for R0..R14 and INIT_MEM for the cells (R9). Before
any run the image is empty and the budget 0 (DESIGN CHOICE, unsafe, log 26). -/
def construct (params : Params) (initRegs : Vector Word 15) (initMem : Memory) : State where
  regs := initRegs.push 0#32
  sr := 0#32
  mem := initMem
  params := params
  program := []
  budget := 0
  status := .idle
  executed := 0
  signal := .sequential

/-- `Parser.parse` (R210): the verdict of the decoder under the machine's IMM_POLICY. -/
def State.parse (s : State) (text : Text) : Verdict := assemble s.params.immPolicy text

/-- `get_register(i)` (R211). -/
def State.getRegister (s : State) (i : Nat) : Except Fault Word :=
  match s.regFault [i] with
  | some r => .error r
  | none => .ok (s.reg i)

/-- `set_register(i, v)` (R211). Setting r15 sets the PC; it is no branch of an instruction, so no signal is left (DEDUCED,
safe, log 21). -/
def State.setRegister (s : State) (i : Nat) (v : Int) : Except Fault State :=
  match s.regFault [i] with
  | some r => .error r
  | none => .ok ((s.writeReg i (fromInt s.params.immPolicy v)).setSignal s.signal)

/-- `get_status()` (R214). -/
def State.getStatus (s : State) : Word := s.sr

/-- `set_status(v)` (R214): all 32 bits. -/
def State.setStatus (s : State) (v : Int) : State := { s with sr := fromInt s.params.immPolicy v }

/-- `get_memory(a)` (R212). -/
def State.getMemory (s : State) (a : Nat) : Except Fault Word :=
  if s.params.memSize ≤ a then .error (.memIndex s.index a) else .ok (Memory.read s.mem a)

/-- `set_memory(a, v)` (R212). -/
def State.setMemory (s : State) (a : Nat) (v : Int) : Except Fault State :=
  if s.params.memSize ≤ a then .error (.memIndex s.index a)
  else .ok { s with mem := Memory.write s.mem a (fromInt s.params.immPolicy v) }

/-- `dump_registers()` (R213): a text of any value; no state changes. -/
def State.dumpRegisters (s : State) : Text := Config.registerDumpText s.regs.toList s.sr

/-- The diagnostic of a skipped line (R95): a text of any value. -/
def diagnostic (line : Nat) : Text := Config.diagnosticText line

/-- What `execute` returns to the host (R114, R214), with the state it leaves. -/
inductive ExecuteResult where
  | continued (pcWritten : Bool) (s : State)
  | halt (s : State)
  | fault (r : Fault)
  | refused (r : Refusal)
  deriving DecidableEq, Repr

/-- `execute(ins)` by the host (R214): the gate and the instruction, with no fetch and no advance of the PC. -/
def State.hostExecute (s : State) (r : Record) : ExecuteResult :=
  match execRecord r s with
  | .fault f => .fault f
  | .refused f => .refused f
  | .next t =>
    match t.signal with
    | .sequential => .continued false (t.setSignal .sequential)
    | .branched => .continued true (t.setSignal .sequential)
    | .halt => .halt (t.setSignal .sequential)

/-- The start of `Simulator.run(P, machine, step_count)` (R124): status Running, nothing executed; the PC, registers, SR
and memory stay. A Faulted machine stays as it is (R204). -/
def State.beginRun (s : State) (image : List Record) (budget : Nat) : State :=
  match s.status with
  | .faulted _ => s
  | _ => { s with program := image, budget := budget, status := .running, executed := 0 }

/-- The state after at most `k` steps of a run, stopping where a step has no next state. -/
def State.steps (s : State) : (k : Nat) → State
  | 0 => s
  | k + 1 =>
    match step s with
    | .next t => t.steps k
    | _ => s

/-- `Simulator.run(P, machine, step_count)` (R124), followed for at most `k` steps of the loop. -/
def State.run (s : State) (image : List Record) (budget k : Nat) : State := (s.beginRun image budget).steps k

end Sys2Proof.Machine
end

