-- ==== Sys2Proof/Safety.lean ====
section
/-! DEFINITION. What counts as a safe run, the invariant of the machine, and the frame predicates the statements are
written with. -/

namespace Sys2Proof.Machine

/-- A run is over (R125). -/
abbrev RunStatus.over : RunStatus → Bool
  | .completed | .halted | .budgetExhausted | .faulted _ => true
  | .idle | .running => false

/-- A normal end of the program: Completed or Halted only (R125). -/
abbrev RunStatus.normalEnd : RunStatus → Bool
  | .completed | .halted => true
  | _ => false

/-- The run has not faulted (R202). -/
abbrev RunStatus.safe : RunStatus → Bool
  | .faulted _ => false
  | _ => true

/-- The invariant every step keeps: the memory is in canonical form and within MEM_SIZE (R29, R43), the parameters are
those R9 admits, the program image has at most 2^32 records (R9), a bounded run has not gone past its budget (R123), and
no signal is left over between steps. -/
abbrev State.Inv (s : State) : Prop :=
  Memory.wf s.mem ∧ (∀ e ∈ s.mem, e.1 < s.params.memSize) ∧ s.params.wf ∧ s.program.length ≤ 2 ^ 32 ∧
    (s.budget ≠ 0 → s.executed ≤ s.budget) ∧ s.signal = .sequential

/-- A program image of well-formed instructions of the opcode table only (R81, R91). -/
abbrev wellFormedImage (image : List Record) : Prop := ∀ r ∈ image, (r.instr?.map Instr.wf) = some true

/-- The faults that only a record built directly can raise (R201). -/
def Fault.ofBuiltRecord : Fault → Bool
  | .malformed _ | .unknownOpcode _ => true
  | .regIndex .. | .regPair .. | .memIndex .. => false

/-- The machine has faulted with MALFORMED or UNKNOWN_OPCODE. -/
def RunStatus.faultedOnBuiltRecord : RunStatus → Bool
  | .faulted f => f.ofBuiltRecord
  | .idle | .running | .completed | .halted | .budgetExhausted => false

/-- The invariant of a machine that runs decoded programs: a well-formed image, and neither MALFORMED nor UNKNOWN_OPCODE. -/
abbrev State.ImageInv (s : State) : Prop :=
  wellFormedImage s.program ∧ s.status.faultedOnBuiltRecord = false

/-! ### Frames -/

/-- Registers other than those listed read as before. -/
abbrev sameRegsBut (s t : State) (written : List Nat) : Prop := ∀ i, i < 16 → i ∉ written → t.reg i = s.reg i

/-- Cells other than those of the listed indices read as before. -/
abbrev sameCellsBut (s t : State) (written : List Nat) : Prop :=
  ∀ a, a ∉ written → Memory.read t.mem a = Memory.read s.mem a

/-- The parameters, the program image and the bookkeeping of the run are as before. -/
abbrev sameRun (s t : State) : Prop :=
  t.params = s.params ∧ t.program = s.program ∧ t.budget = s.budget ∧ t.status = s.status ∧ t.executed = s.executed

/-- A bit of SR that holds no flag. -/
abbrev State.notFlagBit (s : State) (k : Nat) : Prop :=
  k ≠ s.params.flagPos.n ∧ k ≠ s.params.flagPos.z ∧ k ≠ s.params.flagPos.c ∧ k ≠ s.params.flagPos.v

/-- Every bit of SR but the four flags is as before (R26). -/
abbrev sameReservedBits (s t : State) : Prop := ∀ k, s.notFlagBit k → t.sr.getLsbD k = s.sr.getLsbD k

/-- What `execute` tells the loop after an instruction that wrote the listed registers (R114, R121). -/
abbrev signalOf (written : List Nat) : Signal := if 15 ∈ written then .branched else .sequential

/-! ### Results, in closed form -/

/-- `a + b + cin` modulo 2^32 (R102). -/
abbrev sumOf (a b : Word) (cin : Bool) : Word := BitVec.ofNat 32 (uint a + uint b + cin.toNat)

/-- `a - b - bin` modulo 2^32 (R104). -/
abbrev differenceOf (a b : Word) (bin : Bool) : Word := BitVec.ofInt 32 ((uint a : Int) - uint b - bin.toNat)

/-- Values of the four flags. -/
structure FlagValues where
  n : Bool
  z : Bool
  c : Bool
  v : Bool
  deriving DecidableEq, Repr

/-- SR's flags have these values. -/
abbrev flagsAre (t : State) (f : FlagValues) : Prop :=
  t.flagN = f.n ∧ t.flagZ = f.z ∧ t.flagC = f.c ∧ t.flagV = f.v

/-- N of a result word and its wide value, by N_FLAG_SOURCE (R101). -/
abbrev expectedN (source : NFlagSource) (r : Word) (wide : Int) : Bool :=
  match source with
  | .truncated => r.getLsbD 31
  | .wide => decide (wide < 0)

/-- The flags of `a + b + cin` (R101, R103, R105): C is the carry out of bit 31, V the wide overflow. -/
abbrev addFlags (source : NFlagSource) (a b : Word) (cin : Bool) : FlagValues where
  n := expectedN source (sumOf a b cin) (sint a + sint b + cin.toNat)
  z := decide (sumOf a b cin = 0#32)
  c := decide (2 ^ 32 ≤ uint a + uint b + cin.toNat)
  v := decide (sint a + sint b + cin.toNat < -2 ^ 31 ∨ 2 ^ 31 - 1 < sint a + sint b + cin.toNat)

/-- The flags of `a - b - bin` (R101, R103, R105): C is NOT borrow. -/
abbrev subFlags (source : NFlagSource) (a b : Word) (bin : Bool) : FlagValues where
  n := expectedN source (differenceOf a b bin) (sint a - sint b - bin.toNat)
  z := decide (differenceOf a b bin = 0#32)
  c := decide (uint b + bin.toNat ≤ uint a)
  v := decide (sint a - sint b - bin.toNat < -2 ^ 31 ∨ 2 ^ 31 - 1 < sint a - sint b - bin.toNat)

/-- The flags after a logical result, from the state before it (R107). -/
abbrev logicFlags (s : State) (r : Word) : FlagValues where
  n := r.getLsbD 31
  z := decide (r = 0#32)
  c := match s.params.logicCV with
    | .preserve => s.flagC
    | .clear => false
  v := match s.params.logicCV with
    | .preserve => s.flagV
    | .clear => false

/-- The index of the cell that LDR and STR address (R160, R42): base plus offset, modulo 2^32. -/
abbrev expectedCell (s : State) (n : Nat) (offset : Option Word) : Nat :=
  (uint (s.reg n) + uint (offset.getD 0#32)) % 2 ^ 32

/-- The index of the cell of list element `j` (R174): base plus the mode's displacement, modulo 2^32. -/
abbrev expectedBlockCell (mode : UpdateMode) (base : Word) (j : Nat) : Nat :=
  let displaced : Int := match mode with
    | .none | .ia => (uint base : Int) + j
    | .ib => (uint base : Int) + j + 1
    | .da => (uint base : Int) - j
    | .db => (uint base : Int) - j - 1
  (displaced % 2 ^ 32).toNat

/-- The borrow-in of SBC and RSC (R141). -/
abbrev expectedBorrowIn (s : State) : Bool :=
  match s.params.sbcBorrowIn with
  | .flagC => s.flagC
  | .notFlagC => !s.flagC

/-! ### What an instruction can write, from its operand roles (R87) -/

/-- The registers an instruction writes when its condition holds: the destination of a data-processing instruction, what a
load loads, the PC of a branch, and the link register of BL (R22, R87). -/
def writtenRegs (i : Instr) : List Nat :=
  match i.format, i.record.opcode, i.record.regs with
  | .dp3, _, d :: _ => [d]
  | .ls, .ldr, t :: _ => [t]
  | .lsd, .ldr, t :: t2 :: _ => [t, t2]
  | .lsm, .ldm, _ :: list => list
  | .br, .b, _ => [15]
  | .br, .bl, _ => [14, 15]
  | _, _, _ => []

/-- The cells a data transfer reads or writes, in transfer order (R160, R166, R172, R174). -/
def transferCells (s : State) (i : Instr) : List Nat :=
  match i.format, i.record.regs with
  | .ls, [_, n] => [expectedCell s n i.record.imm]
  | .lsd, [_, _, n] => [expectedCell s n i.record.imm, (expectedCell s n i.record.imm + 1) % 2 ^ 32]
  | .lsm, n :: list => (List.range list.length).map (expectedBlockCell i.record.mode (s.reg n))
  | _, _ => []

/-- An instruction that stores: STR and STM in all forms. -/
abbrev isStore (i : Instr) : Prop := i.record.opcode = .str ∨ i.record.opcode = .stm

/-- A valid pair of suffix D (R173). -/
abbrev validPair (t t2 : Nat) : Prop := t % 2 = 0 ∧ t2 = t + 1 ∧ t2 ≤ 15

/-- The fault of a suffix-D pair that is not valid (R173). -/
def expectedPairFault (s : State) (i : Instr) : Option Fault :=
  match i.format, i.record.regs with
  | .lsd, [t, t2, _] => if validPair t t2 then none else some (.regPair s.index t t2)
  | _, _ => none

/-- The fault of the first register index of 16 or more, in register-list order; a branch's entry is no register (R190). -/
def expectedRegFault (s : State) (i : Instr) : Option Fault :=
  if i.format = .br then none else (i.record.regs.find? fun k => decide (16 ≤ k)).map (.regIndex s.index)

/-- The fault of the first cell at MEM_SIZE or beyond, in transfer order (R43). -/
def expectedMemFault (s : State) (i : Instr) : Option Fault :=
  ((transferCells s i).find? fun a => decide (s.params.memSize ≤ a)).map (.memIndex s.index)

/-- The one fault a record raises, by the priority of R203: the condition gate, UNKNOWN_OPCODE, MALFORMED, REG_PAIR,
REG_INDEX, MEM_INDEX. -/
def expectedFault (s : State) (r : Record) : Option Fault :=
  if s.meets r.cond = false then none
  else
    match r.instr? with
    | none => some (.unknownOpcode s.index)
    | some i =>
      if i.format.fits r.regs.length r.imm.isSome = false then some (.malformed s.index)
      else (expectedPairFault s i).or ((expectedRegFault s i).or (expectedMemFault s i))

/-- Two states that differ at most in the bits of SR that hold no flag. -/
abbrev agreeButReserved (s t : State) : Prop :=
  t.regs = s.regs ∧ t.mem = s.mem ∧ t.params = s.params ∧ t.program = s.program ∧ t.budget = s.budget ∧
    t.status = s.status ∧ t.executed = s.executed ∧ t.signal = s.signal ∧
    t.flagN = s.flagN ∧ t.flagZ = s.flagZ ∧ t.flagC = s.flagC ∧ t.flagV = s.flagV

end Sys2Proof.Machine
end

