-- ==== Sys2Proof/Certificates/Slice0/Obligations.lean ====
section
/-! DEFINITION. The statements for the provers. A docstring names the rules a statement formalises, and says where it rests
on a sentence the spec marks as its own decision or derivation, or on a choice of the model (log <n>). -/

namespace Sys2Proof.Statements

open Sys2Proof Sys2Proof.Machine

/-- What every completed instruction leaves alone: registers and cells but the listed ones, and the run's bookkeeping. -/
abbrev frame (s t : State) (regs cells : List Nat) : Prop :=
  sameRegsBut s t regs ∧ sameCellsBut s t cells ∧ sameRun s t

/-- SR after an instruction that updates the flags exactly when `update` holds: the flags given and every other bit as
before, or SR as before (R26, R28). -/
abbrev srUpdated (s t : State) (update : Prop) (f : FlagValues) : Prop :=
  (update → flagsAre t f ∧ sameReservedBits s t) ∧ (¬update → t.sr = s.sr)

/-- A data-processing instruction of format DP3 completes, for every mode, suffix, operand form and destination, r15
included: the destination gets `result` of x[n] and op2, the flags become `flags` exactly with suffix S, a write of r15 is a
branch, and nothing else changes. -/
def dp3Completes (mk : Cond → UpdateMode → Suffix → List Nat → Option Word → Instr)
    (result : State → Word → Word → Word) (flags : State → Word → Word → FlagValues) : Prop :=
  ∀ (s : State) (c : Cond) (m : UpdateMode) (x : Suffix) (d n : Nat) (o : Operand2),
    s.meets c = true → d < 16 → n < 16 → (∀ k ∈ o.registers, k < 16) → (x = .s → s.params.flagPos.wf) →
      ∃ t, exec (mk c m x (d :: n :: o.registers) o.imm?) s = .next t ∧
        t.reg d = result s (s.reg n) (o.value s) ∧
        srUpdated s t (x = .s) (flags s (s.reg n) (o.value s)) ∧
        t.signal = signalOf [d] ∧ frame s t [d] []

/-- A compare of format CMP2 completes, for every mode, suffix and operand form: the flags become `flags` of x[n] and op2,
and no register and no cell changes. -/
def cmp2Completes (mk : Cond → UpdateMode → Suffix → List Nat → Option Word → Instr)
    (flags : State → Word → Word → FlagValues) : Prop :=
  ∀ (s : State) (c : Cond) (m : UpdateMode) (x : Suffix) (n : Nat) (o : Operand2),
    s.meets c = true → n < 16 → (∀ k ∈ o.registers, k < 16) → s.params.flagPos.wf →
      ∃ t, exec (mk c m x (n :: o.registers) o.imm?) s = .next t ∧
        flagsAre t (flags s (s.reg n) (o.value s)) ∧ sameReservedBits s t ∧
        t.signal = .sequential ∧ frame s t [] []

/-- A load of one cell completes, with or without an offset: each bit of x[t] is `bits` of the addressed cell, a load of r15
is a branch, and nothing else changes. -/
def loadCompletes (mk : Cond → UpdateMode → List Nat → Option Word → Instr) (bits : Word → Nat → Bool) : Prop :=
  ∀ (s : State) (c : Cond) (m : UpdateMode) (t n : Nat) (offset : Option Word),
    s.meets c = true → t < 16 → n < 16 → expectedCell s n offset < s.params.memSize →
      ∃ u, exec (mk c m [t, n] offset) s = .next u ∧
        (∀ k, k < 32 → (u.reg t).getLsbD k = bits (Memory.read s.mem (expectedCell s n offset)) k) ∧
        u.sr = s.sr ∧ u.signal = signalOf [t] ∧ frame s u [t] []

/-- A store of one cell completes, with or without an offset: each bit of the addressed cell is `bits` of the parameters, its
old word and x[t], and nothing else changes. -/
def storeCompletes (mk : Cond → UpdateMode → List Nat → Option Word → Instr)
    (bits : Params → Word → Word → Nat → Bool) : Prop :=
  ∀ (s : State) (c : Cond) (m : UpdateMode) (t n : Nat) (offset : Option Word),
    s.meets c = true → t < 16 → n < 16 → expectedCell s n offset < s.params.memSize →
      ∃ u, exec (mk c m [t, n] offset) s = .next u ∧
        (∀ k, k < 32 → (Memory.read u.mem (expectedCell s n offset)).getLsbD k =
          bits s.params (Memory.read s.mem (expectedCell s n offset)) (s.reg t) k) ∧
        u.sr = s.sr ∧ u.signal = .sequential ∧ frame s u [] [expectedCell s n offset]

/-- Bit `k` of the low `w` bits of a cell, zero-extended (R162, R163). -/
abbrev zeroExtended (w : Nat) (v : Word) (k : Nat) : Bool := decide (k < w) && v.getLsbD k

/-- Bit `k` of the low `w` bits of a cell, sign-extended (R164, R165). -/
abbrev signExtended (w : Nat) (v : Word) (k : Nat) : Bool := if k < w then v.getLsbD k else v.getLsbD (w - 1)

/-- Bit `k` of a cell after a store of the low `w` bits of `v` (R168, R169). -/
abbrev narrowStored (w : Nat) (p : Params) (old v : Word) (k : Nat) : Bool :=
  if k < w then v.getLsbD k
  else
    match p.narrowStore with
    | .zeroFill => false
    | .merge => old.getLsbD k

/-- A load of several registers completes: a list element with no later element naming the same register gets the cell of its
place in the sequence, and nothing outside the list changes. -/
def loadMultipleCompletes (mk : Cond → Suffix → List Nat → Option Word → Instr) (mode : UpdateMode) : Prop :=
  ∀ (s : State) (c : Cond) (x : Suffix) (n : Nat) (list : List Nat),
    s.meets c = true → n < 16 → (∀ k ∈ list, k < 16) →
    (∀ j, j < list.length → expectedBlockCell mode (s.reg n) j < s.params.memSize) →
      ∃ t, exec (mk c x (n :: list) none) s = .next t ∧
        (∀ j d, list[j]? = some d → (∀ k, j < k → list[k]? ≠ some d) →
          t.reg d = Memory.read s.mem (expectedBlockCell mode (s.reg n) j)) ∧
        t.sr = s.sr ∧ t.signal = signalOf list ∧ frame s t list []

/-- A store of several registers completes: the cell of each list element's place in the sequence gets that register's value
(the last such element's, if a sequence of more than 2^32 elements meets a cell again), and no other cell changes. -/
def storeMultipleCompletes (mk : Cond → Suffix → List Nat → Option Word → Instr) (mode : UpdateMode) : Prop :=
  ∀ (s : State) (c : Cond) (x : Suffix) (n : Nat) (list : List Nat),
    s.meets c = true → n < 16 → (∀ k ∈ list, k < 16) →
    (∀ j, j < list.length → expectedBlockCell mode (s.reg n) j < s.params.memSize) →
      ∃ t, exec (mk c x (n :: list) none) s = .next t ∧
        (∀ j d, list[j]? = some d →
          (∀ k, j < k → k < list.length →
            expectedBlockCell mode (s.reg n) k ≠ expectedBlockCell mode (s.reg n) j) →
          Memory.read t.mem (expectedBlockCell mode (s.reg n) j) = s.reg d) ∧
        t.sr = s.sr ∧ t.signal = .sequential ∧
        frame s t [] ((List.range list.length).map (expectedBlockCell mode (s.reg n)))

end Sys2Proof.Statements

open Sys2Proof Sys2Proof.Machine Sys2Proof.Statements

/-! ### The text form -/

/-- R88's worked example with its operand roles (R87), and one line of each other family, written out from the syntax of
its rule, with the record that rule gives it. -/
def Obligations.SampleTextsDecode : Prop :=
  decodeLine .saturate " ADDEQS r1, r2, #30".toList = .emit ⟨.add, .eq, .none, .s, [1, 2], some 30#32⟩ none ∧
  dp3Operands [1, 2] (some 30#32) = some ⟨1, 2, .imm 30#32⟩ ∧
  decodeLine .saturate " RSBNE r15, r0, r7".toList = .emit ⟨.rsb, .ne, .none, .none, [15, 0, 7], none⟩ none ∧
  decodeLine .saturate " BICS r4, r4, #-1".toList = .emit ⟨.bic, .none, .none, .s, [4, 4], some 0xFFFFFFFF#32⟩ none ∧
  decodeLine .saturate "\tTEQ r3, #0x10 ; note".toList = .emit ⟨.teq, .none, .none, .none, [3], some 16#32⟩ none ∧
  decodeLine .saturate " LDRGTSH r2, [r9, #4]".toList = .emit ⟨.ldr, .gt, .none, .sh, [2, 9], some 4#32⟩ none ∧
  decodeLine .saturate " STRD r4, r5, [r0]".toList = .emit ⟨.str, .none, .none, .d, [4, 5, 0], none⟩ none ∧
  decodeLine .saturate " LDMVCDB r0, r1-r3, r15".toList = .emit ⟨.ldm, .vc, .db, .none, [0, 1, 2, 3, 15], none⟩ none ∧
  decodeLine .saturate " BLHI sub".toList = .emit ⟨.bl, .hi, .none, .none, [], none⟩ (some "sub".toList) ∧
  decodeLine .saturate " SWIAL".toList = .emit ⟨.swi, .al, .none, .none, [], none⟩ none

/-- Decode and encode agree on one line: the line of every well-formed instruction decodes to its record, every operand at
every value, under both immediate policies; a branch's line decodes to its record without the target and the target's label,
which the passes resolve (R79). R66 to R86. -/
def Obligations.EncodedLineDecodes : Prop :=
  ∀ (policy : ImmPolicy) (i : Instr), i.wf = true →
    (i.format ≠ .br → decodeLine policy (encode i) = .emit i.record none) ∧
    (∀ k, i.format = .br → i.record.regs = [k] →
      decodeLine policy (encode i) = .emit { i.record with regs := [] } (some (labelText k)))

/-- Decode and encode agree on programs: the source text of any list of well-formed instructions, every branch target at most
the length of the list, assembles to their records with no diagnostic. Forward and backward label references are both resolved
(R64, R79, R80). -/
def Obligations.EncodedProgramAssembles : Prop :=
  ∀ (policy : ImmPolicy) (is : List Instr),
    (∀ i ∈ is, i.wf = true ∧ (i.format = .br → ∀ k ∈ i.record.regs, k ≤ is.length)) →
      assemble policy (encodeProgram is) = .program (is.map Instr.record) []

/-- Everything the decoder puts in a program image is a well-formed instruction of the opcode table, and every branch target
is at most the image's length (R64, R81, R86, R91). -/
def Obligations.AssembledRecordsAreWellFormed : Prop :=
  ∀ (policy : ImmPolicy) (text : Text) (image : List Record) (diag : List Nat),
    assemble policy text = .program image diag →
      ∀ r ∈ image, ∃ i, r.instr? = some i ∧ i.wf = true ∧ (i.format = .br → ∀ k ∈ r.regs, k ≤ image.length)

/-- R100: under SATURATE the word of an integer has the nearest signed value, under WRAP it is the integer modulo 2^32. The
function is stated on every integer, the spec's on 64-bit ones (log 18). -/
def Obligations.FromIntSaturatesOrWraps : Prop :=
  ∀ v : Int,
    sint (fromInt .saturate v) = max (-2 ^ 31) (min v (2 ^ 31 - 1)) ∧ (uint (fromInt .wrap v) : Int) = v % 2 ^ 32

/-- R78, R95: a line with an unknown mnemonic is simply absent from the program image, whatever lines stand before and after
it, and its number is among the diagnostics (lines counted from 1: log 13). -/
def Obligations.SkippedLineIsAbsent : Prop :=
  ∀ (policy : ImmPolicy) (before after : List Text) (line : Text), decodeLine policy line = .skip →
    (assembleLines policy (before ++ line :: after)).image? = (assembleLines policy (before ++ after)).image? ∧
    ∀ image diag, assembleLines policy (before ++ line :: after) = .program image diag → before.length + 1 ∈ diag

/-! ### Arithmetic -/

/-- R102's closed form of the bit-serial adder, which the spec marks as derived from the recurrence. -/
def Obligations.AddBitsClosedForm : Prop :=
  ∀ (a b : Word) (cin : Bool),
    uint (addBits a b cin).1 = (uint a + uint b + cin.toNat) % 2 ^ 32 ∧
    ((addBits a b cin).2 = true ↔ 2 ^ 32 ≤ uint a + uint b + cin.toNat)

/-- R104's closed form of the bit-serial subtractor, which the spec marks as derived from the recurrence. -/
def Obligations.SubBitsClosedForm : Prop :=
  ∀ (a b : Word) (bin : Bool),
    (uint (subBits a b bin).1 : Int) = ((uint a : Int) - uint b - bin.toNat) % 2 ^ 32 ∧
    ((subBits a b bin).2 = true ↔ uint a < uint b + bin.toNat)

/-- R116 and R105, marked derived by the spec: (a + b) - b = a, the wide value truncates to the result word, and V reads the
operation as signed: it is set exactly when the result's signed value is not the wide value. -/
def Obligations.ArithmeticLaws : Prop :=
  ∀ (a b : Word) (c : Bool),
    (subBits (addBits a b false).1 b false).1 = a ∧
    trunc32 (arithAdd a b c).wide = (arithAdd a b c).value ∧
    trunc32 (arithSub a b c).wide = (arithSub a b c).value ∧
    (wideOverflow (arithAdd a b c).wide = true ↔ sint (arithAdd a b c).value ≠ (arithAdd a b c).wide) ∧
    (wideOverflow (arithSub a b c).wide = true ↔ sint (arithSub a b c).value ≠ (arithSub a b c).wide)

/-! ### Conditions and flags -/

/-- R110, the whole table, and that nothing but the four flags is read. AL is the spec's decision D24. -/
def Obligations.ConditionTable : Prop :=
  (∀ s : State,
    s.meets .none = true ∧ s.meets .al = true ∧
    (s.meets .eq = true ↔ s.flagZ = true) ∧ (s.meets .ne = true ↔ s.flagZ = false) ∧
    (s.meets .cs = true ↔ s.flagC = true) ∧ (s.meets .cc = true ↔ s.flagC = false) ∧
    (s.meets .mi = true ↔ s.flagN = true) ∧ (s.meets .pl = true ↔ s.flagN = false) ∧
    (s.meets .vs = true ↔ s.flagV = true) ∧ (s.meets .vc = true ↔ s.flagV = false) ∧
    (s.meets .hi = true ↔ s.flagC = true ∧ s.flagZ = false) ∧
    (s.meets .ls = true ↔ s.flagC = false ∨ s.flagZ = true) ∧
    (s.meets .ge = true ↔ s.flagN = s.flagV) ∧ (s.meets .lt = true ↔ s.flagN ≠ s.flagV) ∧
    (s.meets .gt = true ↔ s.flagZ = false ∧ s.flagN = s.flagV) ∧
    (s.meets .le = true ↔ s.flagZ = true ∨ s.flagN ≠ s.flagV)) ∧
  ∀ (s t : State) (c : Cond), t.flagN = s.flagN → t.flagZ = s.flagZ → t.flagC = s.flagC → t.flagV = s.flagV →
    t.meets c = s.meets c

/-- R112, for every record, of an unknown opcode and ill-formed ones too: when its condition fails it does nothing, raises no
fault and does not halt. -/
def Obligations.FailedConditionDoesNothing : Prop :=
  ∀ (s : State) (r : Record), s.meets r.cond = false →
    (∃ t, execRecord r s = .next t ∧ t.regs = s.regs ∧ t.sr = s.sr ∧ t.mem = s.mem ∧ sameRun s t ∧
      t.signal = .sequential) ∧
    ∀ i, r.instr? = some i → execRecord r s = exec i s

/-- R109: CMN, CMP, TST and TEQ compute the flags that ADD, SUB, AND and EOR compute with suffix S into any destination, and
they write no register and no cell, whatever their suffix; no sentinel index exists, so they complete, and the program image
is not changed. -/
def Obligations.CompareDiscardsResult : Prop :=
  ∀ (s : State) (c : Cond) (m : UpdateMode) (x : Suffix) (d n : Nat) (o : Operand2),
    s.meets c = true → d < 16 → n < 16 → (∀ k ∈ o.registers, k < 16) →
      ∀ pair ∈ [(Instr.cmn c m x (n :: o.registers) o.imm?, Instr.add c m .s (d :: n :: o.registers) o.imm?),
          (.cmp c m x (n :: o.registers) o.imm?, .sub c m .s (d :: n :: o.registers) o.imm?),
          (.tst c m x (n :: o.registers) o.imm?, .and c m .s (d :: n :: o.registers) o.imm?),
          (.teq c m x (n :: o.registers) o.imm?, .eor c m .s (d :: n :: o.registers) o.imm?)],
        ∃ t u, exec pair.1 s = .next t ∧ exec pair.2 s = .next u ∧ t.sr = u.sr ∧ frame s t [] []

/-- R28: without suffix S a data-processing instruction leaves SR as it was; LDR, STR, LDM, STM, B, BL and SWI always do,
whatever their suffix; and the logical family leaves C and V as they were unless LOGIC_CV is CLEAR. -/
def Obligations.OnlyFlagWritersWriteSr : Prop :=
  ∀ (i : Instr) (s t : State), exec i s = .next t →
    (i.format = .dp3 → i.record.suffix ≠ .s → t.sr = s.sr) ∧
    (i.format ≠ .dp3 → i.format ≠ .cmp2 → t.sr = s.sr) ∧
    (i.record.opcode ∈ [.and, .orr, .eor, .bic, .tst, .teq] → s.params.logicCV = .preserve → s.params.flagPos.wf →
      t.flagC = s.flagC ∧ t.flagV = s.flagV)

/-- R26: no step changes a bit of SR that holds no flag. -/
def Obligations.ReservedSrBitsNeverChange : Prop :=
  ∀ s t : State, step s = .next t → sameReservedBits s t

/-- R144's reading of the conditions after a CMP, which the spec marks as derived and limits to N_FLAG_SOURCE = TRUNCATED for
GE, LT, GT and LE. -/
def Obligations.CompareThenConditionOrders : Prop :=
  ∀ (s : State) (c : Cond) (m : UpdateMode) (x : Suffix) (n : Nat) (o : Operand2),
    s.meets c = true → n < 16 → (∀ k ∈ o.registers, k < 16) → s.params.flagPos.wf →
      ∃ t, exec (.cmp c m x (n :: o.registers) o.imm?) s = .next t ∧
        (t.meets .eq = true ↔ s.reg n = o.value s) ∧ (t.meets .ne = true ↔ s.reg n ≠ o.value s) ∧
        (t.meets .cs = true ↔ uint (o.value s) ≤ uint (s.reg n)) ∧
        (t.meets .cc = true ↔ uint (s.reg n) < uint (o.value s)) ∧
        (t.meets .hi = true ↔ uint (o.value s) < uint (s.reg n)) ∧
        (t.meets .ls = true ↔ uint (s.reg n) ≤ uint (o.value s)) ∧
        (s.params.nFlagSource = .truncated →
          (t.meets .ge = true ↔ sint (o.value s) ≤ sint (s.reg n)) ∧
          (t.meets .lt = true ↔ sint (s.reg n) < sint (o.value s)) ∧
          (t.meets .gt = true ↔ sint (o.value s) < sint (s.reg n)) ∧
          (t.meets .le = true ↔ sint (s.reg n) ≤ sint (o.value s)))

/-! ### Data processing -/

/-- R130: ADD. -/
def Obligations.AddCompletes : Prop :=
  dp3Completes .add (fun _ a b => sumOf a b false) fun s a b => addFlags s.params.nFlagSource a b false

/-- R131: ADC, with SR.C before the instruction as the carry-in, whatever flags it then writes. -/
def Obligations.AdcCompletes : Prop :=
  dp3Completes .adc (fun s a b => sumOf a b s.flagC) fun s a b => addFlags s.params.nFlagSource a b s.flagC

/-- R140: SUB. -/
def Obligations.SubCompletes : Prop :=
  dp3Completes .sub (fun _ a b => differenceOf a b false) fun s a b => subFlags s.params.nFlagSource a b false

/-- R141: SBC, with the borrow-in of SBC_BORROW_IN. -/
def Obligations.SbcCompletes : Prop :=
  dp3Completes .sbc (fun s a b => differenceOf a b (expectedBorrowIn s)) fun s a b =>
    subFlags s.params.nFlagSource a b (expectedBorrowIn s)

/-- R142: RSB, op2 minus x[n]. -/
def Obligations.RsbCompletes : Prop :=
  dp3Completes .rsb (fun _ a b => differenceOf b a false) fun s a b => subFlags s.params.nFlagSource b a false

/-- R143: RSC, op2 minus x[n], with the borrow-in of SBC_BORROW_IN. -/
def Obligations.RscCompletes : Prop :=
  dp3Completes .rsc (fun s a b => differenceOf b a (expectedBorrowIn s)) fun s a b =>
    subFlags s.params.nFlagSource b a (expectedBorrowIn s)

/-- R151 to R154: AND, ORR, EOR and BIC, with the flags of R107. -/
def Obligations.LogicalCompletes : Prop :=
  dp3Completes .and (fun _ a b => a &&& b) (fun s a b => logicFlags s (a &&& b)) ∧
  dp3Completes .orr (fun _ a b => a ||| b) (fun s a b => logicFlags s (a ||| b)) ∧
  dp3Completes .eor (fun _ a b => a ^^^ b) (fun s a b => logicFlags s (a ^^^ b)) ∧
  dp3Completes .bic (fun _ a b => a &&& ~~~b) (fun s a b => logicFlags s (a &&& ~~~b))

/-- R132: CMN. -/
def Obligations.CmnCompletes : Prop :=
  cmp2Completes .cmn fun s a b => addFlags s.params.nFlagSource a b false

/-- R144: CMP. -/
def Obligations.CmpCompletes : Prop :=
  cmp2Completes .cmp fun s a b => subFlags s.params.nFlagSource a b false

/-- R155, R156: TST and TEQ, with the flags of R107. -/
def Obligations.TstTeqComplete : Prop :=
  cmp2Completes .tst (fun s a b => logicFlags s (a &&& b)) ∧ cmp2Completes .teq (fun s a b => logicFlags s (a ^^^ b))

/-! ### Data transfer -/

/-- R161: LDR loads the whole cell, with the ignored suffix S too. -/
def Obligations.LdrCompletes : Prop :=
  ∀ sSuffix : Bool, loadCompletes (fun c m => .ldr c m sSuffix) fun cell k => cell.getLsbD k

/-- R162 to R165: LDRB and LDRH zero-extend, LDRSB and LDRSH sign-extend (the spec's decision D17). -/
def Obligations.NarrowLoadsComplete : Prop :=
  loadCompletes .ldrb (zeroExtended 8) ∧ loadCompletes .ldrh (zeroExtended 16) ∧
  loadCompletes .ldrsb (signExtended 8) ∧ loadCompletes .ldrsh (signExtended 16)

/-- R166: LDRD loads two consecutive cells into a valid pair; both are read before either register is written. -/
def Obligations.LdrdCompletes : Prop :=
  ∀ (s : State) (c : Cond) (m : UpdateMode) (t t2 n : Nat) (offset : Option Word),
    s.meets c = true → validPair t t2 → n < 16 → expectedCell s n offset < s.params.memSize →
    (expectedCell s n offset + 1) % 2 ^ 32 < s.params.memSize →
      ∃ u, exec (.ldrd c m [t, t2, n] offset) s = .next u ∧
        u.reg t = Memory.read s.mem (expectedCell s n offset) ∧
        u.reg t2 = Memory.read s.mem ((expectedCell s n offset + 1) % 2 ^ 32) ∧
        u.sr = s.sr ∧ u.signal = signalOf [t, t2] ∧ frame s u [t, t2] []

/-- R167: STR stores the whole register, with the ignored suffix S too. -/
def Obligations.StrCompletes : Prop :=
  ∀ sSuffix : Bool, storeCompletes (fun c m => .str c m sSuffix) fun _ _ v k => v.getLsbD k

/-- R168 to R171: STRB and STRSB store the low 8 bits, STRH and STRSH the low 16; the cell's other bits are cleared or kept as
NARROW_STORE says (the spec's decision D18). -/
def Obligations.NarrowStoresComplete : Prop :=
  storeCompletes .strb (narrowStored 8) ∧ storeCompletes .strsb (narrowStored 8) ∧
  storeCompletes .strh (narrowStored 16) ∧ storeCompletes .strsh (narrowStored 16)

/-- R172: STRD stores a valid pair into two consecutive cells. -/
def Obligations.StrdCompletes : Prop :=
  ∀ (s : State) (c : Cond) (m : UpdateMode) (t t2 n : Nat) (offset : Option Word),
    s.meets c = true → validPair t t2 → n < 16 → expectedCell s n offset < s.params.memSize →
    (expectedCell s n offset + 1) % 2 ^ 32 < s.params.memSize →
      ∃ u, exec (.strd c m [t, t2, n] offset) s = .next u ∧
        Memory.read u.mem (expectedCell s n offset) = s.reg t ∧
        Memory.read u.mem ((expectedCell s n offset + 1) % 2 ^ 32) = s.reg t2 ∧
        u.sr = s.sr ∧ u.signal = .sequential ∧
        frame s u [] [expectedCell s n offset, (expectedCell s n offset + 1) % 2 ^ 32]

/-- R174 to R178, R183: LDM in its five modes; the base is read once, and every cell before the first register is written. -/
def Obligations.LoadMultipleCompletes : Prop :=
  loadMultipleCompletes .ldm .none ∧ loadMultipleCompletes .ldmia .ia ∧ loadMultipleCompletes .ldmib .ib ∧
  loadMultipleCompletes .ldmda .da ∧ loadMultipleCompletes .ldmdb .db

/-- R174, R179 to R183: STM in its five modes. -/
def Obligations.StoreMultipleCompletes : Prop :=
  storeMultipleCompletes .stm .none ∧ storeMultipleCompletes .stmia .ia ∧ storeMultipleCompletes .stmib .ib ∧
  storeMultipleCompletes .stmda .da ∧ storeMultipleCompletes .stmdb .db

/-- R51: a load of a cell just stored, in program order, returns the value stored; and the widths of R45: a byte or a
halfword load then sees the low bits of that one word. -/
def Obligations.StoreThenLoadReturnsValue : Prop :=
  ∀ (s : State) (c : Cond) (m : UpdateMode) (f : Bool) (t t' n : Nat) (offset : Option Word),
    s.meets c = true → t < 16 → t' < 16 → n < 16 → expectedCell s n offset < s.params.memSize →
      ∃ u, exec (.str c m f [t, n] offset) s = .next u ∧
        (∃ v, exec (.ldr c m f [t', n] offset) u = .next v ∧ v.reg t' = s.reg t) ∧
        (∃ v, exec (.ldrb c m [t', n] offset) u = .next v ∧ uint (v.reg t') = uint (s.reg t) % 2 ^ 8) ∧
        (∃ v, exec (.ldrh c m [t', n] offset) u = .next v ∧ uint (v.reg t') = uint (s.reg t) % 2 ^ 16)

/-- R170, R171, R183: STRSB behaves as STRB, STRSH as STRH, LDM as LDMIA and STM as STMIA, on every record and state, and the
suffix of an LDM or STM is ignored. -/
def Obligations.SecondSpellingsAgree : Prop :=
  ∀ (s : State) (c : Cond) (m : UpdateMode) (x y : Suffix) (rs : List Nat) (im : Option Word),
    exec (.strsb c m rs im) s = exec (.strb c m rs im) s ∧ exec (.strsh c m rs im) s = exec (.strh c m rs im) s ∧
    exec (.ldm c x rs im) s = exec (.ldmia c y rs im) s ∧ exec (.stm c x rs im) s = exec (.stmia c y rs im) s

/-! ### Control transfer and SWI -/

/-- R190: B writes the target's value to the PC, whatever it is. -/
def Obligations.BranchCompletes : Prop :=
  ∀ (s : State) (c : Cond) (m : UpdateMode) (x : Suffix) (target : Nat), s.meets c = true →
    ∃ t, exec (.b c m x [target] none) s = .next t ∧
      uint t.pc = target % 2 ^ 32 ∧ t.sr = s.sr ∧ t.signal = .branched ∧ frame s t [15] []

/-- R191: BL writes its own index plus one to the link register and the target to the PC. -/
def Obligations.BranchWithLinkCompletes : Prop :=
  ∀ (s : State) (c : Cond) (m : UpdateMode) (x : Suffix) (target : Nat), s.meets c = true →
    ∃ t, exec (.bl c m x [target] none) s = .next t ∧
      uint (t.reg 14) = (s.index + 1) % 2 ^ 32 ∧ uint t.pc = target % 2 ^ 32 ∧
      t.sr = s.sr ∧ t.signal = .branched ∧ frame s t [14, 15] []

/-- R193: SWI gives the halt signal and changes no register, flag or cell; and the step that runs it ends the run Halted with
the PC at its index. -/
def Obligations.SwiHalts : Prop :=
  ∀ (s : State) (c : Cond) (m : UpdateMode) (x : Suffix), s.meets c = true →
    (∃ t, exec (.swi c m x [] none) s = .next t ∧ t.sr = s.sr ∧ t.signal = .halt ∧ frame s t [] []) ∧
    (s.status = .running → s.fetch = some ⟨.swi, c, m, x, [], none⟩ → (s.budget ≠ 0 → s.executed ≠ s.budget) →
      ∃ t, step s = .next t ∧ t.status = .halted ∧ t.regs = s.regs ∧ t.sr = s.sr ∧ t.mem = s.mem ∧
        t.executed = s.executed + 1)

/-- R236: a BL whose target holds `ADD r15, r14, #0` is back, two steps later, at the instruction after the BL, with every
register but r14 and r15, SR and every cell as before. -/
def Obligations.CallAndReturnResumes : Prop :=
  ∀ (s : State) (c : Cond) (m m' : UpdateMode) (x x' : Suffix) (target : Nat),
    s.status = .running → s.budget = 0 → s.meets c = true → target < 2 ^ 32 → x' ≠ .s →
    s.fetch = some ⟨.bl, c, m, x, [target], none⟩ →
    s.program[target]? = some ⟨.add, .none, m', x', [15, 14], some 0#32⟩ →
      ∃ t u, step s = .next t ∧ step t = .next u ∧ uint t.pc = target ∧ uint u.pc = (s.index + 1) % 2 ^ 32 ∧
        u.status = .running ∧ u.sr = s.sr ∧ sameRegsBut s u [14, 15] ∧ sameCellsBut s u []

/-! ### Faults -/

/-- R173: LDRD and STRD raise REG_PAIR exactly when the condition holds and the pair is not valid, before any other check of
their operands. That even-first pairs are the valid ones is the spec's decision D19. -/
def Obligations.RegisterPairCheck : Prop :=
  ∀ (s : State) (c : Cond) (m : UpdateMode) (t t2 n : Nat) (offset : Option Word),
    ∀ i ∈ [Instr.ldrd c m [t, t2, n] offset, .strd c m [t, t2, n] offset],
      (exec i s = .fault (.regPair s.index t t2) ↔ s.meets c = true ∧ ¬(t % 2 = 0 ∧ t2 = t + 1 ∧ t2 ≤ 15)) ∧
      ((t % 2 = 0 ∧ t2 = t + 1 ∧ t2 ≤ 15) ↔ t ∈ [0, 2, 4, 6, 8, 10, 12, 14] ∧ t2 = t + 1)

/-- R203: the fault of any record, of every opcode and shape, is the first that applies in the order UNKNOWN_OPCODE,
MALFORMED, REG_PAIR, REG_INDEX in register-list order, MEM_INDEX in transfer order, after the condition gate; and the record
completes exactly when none applies. The order is the spec's decision D36. -/
def Obligations.FaultPriority : Prop :=
  ∀ (s : State) (r : Record),
    (∀ f, execRecord r s = .fault f ↔ expectedFault s r = some f) ∧
    ((∃ t, execRecord r s = .next t) ↔ expectedFault s r = none)

/-- R202: a step that faults changes nothing of the machine but the run status and the count of fetched instructions; the
reason is the one of R203, and a fault is no normal end. The validate-first rule is the spec's decision D32. -/
def Obligations.FaultingStepWritesNothing : Prop :=
  ∀ (s t : State) (r : Record) (f : Fault),
    s.status = .running → s.fetch = some r → (s.budget ≠ 0 → s.executed ≠ s.budget) → expectedFault s r = some f →
    step s = .next t →
      t.status = .faulted f ∧ t.regs = s.regs ∧ t.sr = s.sr ∧ t.mem = s.mem ∧ t.params = s.params ∧
      t.program = s.program ∧ t.budget = s.budget ∧ t.executed = s.executed + 1 ∧ t.status.normalEnd = false

/-- The model's choice (log 8, log 9): no instruction is refused, and a step always has a next state, a fault being one. -/
def Obligations.StepIsTotal : Prop :=
  (∀ (i : Instr) (s : State) (r : Refusal), exec i s ≠ .refused r) ∧ ∀ s : State, ∃ t, step s = .next t

/-- R201, R91: MALFORMED and UNKNOWN_OPCODE come only of records built directly: no run of an assembled program, from any
machine that has not faulted, raises either. A run that is over stays as it is for the steps that remain (the model's choice,
log 9). -/
def Obligations.AssembledProgramsAreNeverMalformed : Prop :=
  ∀ (policy : ImmPolicy) (text : Text) (image : List Record) (diag : List Nat) (s : State) (budget k at' : Nat),
    assemble policy text = .program image diag → (∀ f, s.status ≠ .faulted f) →
      (s.run image budget k).status ≠ .faulted (.malformed at') ∧
      (s.run image budget k).status ≠ .faulted (.unknownOpcode at')

/-- R204, R31: a later run on a Faulted machine does nothing, and no host access clears the status. That a step by itself, outside
any run, leaves the whole state of a Faulted machine as it is, is the model's choice (log 9). -/
def Obligations.FaultIsSticky : Prop :=
  ∀ (s : State) (f : Fault), s.status = .faulted f →
    (∀ image budget k, s.run image budget k = s ∧ s.steps k = s) ∧
    (∀ i v t, s.setRegister i v = .ok t → t.status = .faulted f) ∧
    (∀ a v t, s.setMemory a v = .ok t → t.status = .faulted f) ∧ ∀ v, (s.setStatus v).status = .faulted f

/-! ### The loop -/

/-- R120, R121, R123: when the record at the PC is the instruction `i` and the budget is not used up, a step is `exec` of `i`
with that fetch counted, and then: a sequential end advances the PC by one, a branch keeps the PC written, a halt and a fault
set the run status and keep the PC. No signal stays in the state (log 7). -/
def Obligations.StepRunsDecodedInstruction : Prop :=
  ∀ (s : State) (r : Record) (i : Instr),
    s.status = .running → s.program[uint s.pc]? = some r → r.instr? = some i →
    (s.budget ≠ 0 → s.executed ≠ s.budget) →
      (∀ t, exec i { s with executed := s.executed + 1 } = .next t → t.signal = .sequential →
        ∃ u, step s = .next u ∧ uint u.pc = (uint s.pc + 1) % 2 ^ 32 ∧ (∀ k, k < 15 → u.reg k = t.reg k) ∧
          u.sr = t.sr ∧ u.mem = t.mem ∧ sameRun t u ∧ u.signal = .sequential) ∧
      (∀ t, exec i { s with executed := s.executed + 1 } = .next t → t.signal = .branched →
        step s = .next { t with signal := .sequential }) ∧
      (∀ t, exec i { s with executed := s.executed + 1 } = .next t → t.signal = .halt →
        step s = .next { t with signal := .sequential, status := .halted }) ∧
      (∀ f, exec i { s with executed := s.executed + 1 } = .fault f →
        step s = .next { s with executed := s.executed + 1, status := .faulted f })

/-- R122, its order of ends before a fetch: at or past the end of the image the run is Completed, budget or not; else with
the budget used up it is BudgetExhausted; nothing else changes and nothing is counted. That a machine which is not Running
stays as it is, is the model's choice (log 9). -/
def Obligations.RunEndsBeforeFetch : Prop :=
  ∀ s : State,
    (s.status = .running → s.program.length ≤ uint s.pc → step s = .next { s with status := .completed }) ∧
    (s.status = .running → uint s.pc < s.program.length → s.budget ≠ 0 → s.executed = s.budget →
      step s = .next { s with status := .budgetExhausted }) ∧
    (s.status ≠ .running → step s = .next s)

/-- Every step keeps the invariant: memory in canonical form and below MEM_SIZE (R29, R43), parameters as R9 admits, the
image's length, the budget not exceeded (R123), and no signal left over. -/
def Obligations.StepKeepsInvariant : Prop :=
  ∀ s t : State, s.Inv → step s = .next t → t.Inv

/-- R201, R91, R19: every step of a machine whose image holds only well-formed instructions of the opcode table keeps that
image, and raises neither MALFORMED nor UNKNOWN_OPCODE. -/
def Obligations.StepKeepsImageInvariant : Prop :=
  ∀ s t : State, s.ImageInv → step s = .next t → t.ImageInv

/-- Both invariants hold at reset; its memory, MEM_SIZE and registers are the model's choice (log 1, log 2, log 3), and so
are its empty image and its budget (log 26). -/
def Obligations.ResetHasInvariant : Prop := State.reset.Inv ∧ State.reset.ImageInv

/-- R19: the program image never changes while the machine runs, compare variants and stores included; the parameters and the
budget of the run do not either. -/
def Obligations.ProgramImageIsImmutable : Prop :=
  ∀ s t : State, step s = .next t → t.program = s.program ∧ t.params = s.params ∧ t.budget = s.budget

/-- R123, R122, R125: a run with a step budget N of 1 or more is over after at most N + 1 steps of the loop, whatever program
it runs and from whatever state. That a run which ends earlier stays over for the steps that remain is the model's choice
(log 9). -/
def Obligations.BudgetedRunIsOver : Prop :=
  ∀ (s : State) (image : List Record) (budget : Nat), budget ≠ 0 → (s.run image budget (budget + 1)).status.over = true

/-- R20 to R22, R121, over all instructions: a register changes only when the instruction's operand roles name it as written;
BL alone writes r14 unnamed; and the loop is told of a branch exactly when r15 is among the registers written. -/
def Obligations.OnlyNamedRegistersChange : Prop :=
  ∀ (i : Instr) (s t : State), exec i s = .next t →
    (s.meets i.record.cond = true →
      sameRegsBut s t (writtenRegs i) ∧ (t.signal = .branched ↔ 15 ∈ writtenRegs i) ∧
      (t.signal = .halt ↔ i.record.opcode = .swi)) ∧
    (14 ∈ writtenRegs i → i.record.opcode = .bl ∨ 14 ∈ i.record.regs)

/-- R41, R48, over all instructions: a cell changes only when the instruction is an STR or STM and the cell is one it
addresses, and then the index is below MEM_SIZE. -/
def Obligations.OnlyStoresChangeMemory : Prop :=
  ∀ (i : Instr) (s t : State), exec i s = .next t →
    sameCellsBut s t (transferCells s i) ∧ (¬isStore i → sameCellsBut s t []) ∧
    ∀ a, Memory.read t.mem a ≠ Memory.read s.mem a → a < s.params.memSize

/-- R25: no instruction reads the bits of SR that hold no flag. Two states that agree on all else agree on all else after any
number of steps. -/
def Obligations.ReservedSrBitsAreNeverRead : Prop :=
  ∀ (s t : State) (k : Nat), agreeButReserved s t → agreeButReserved (s.steps k) (t.steps k)

/-! ### Reset and the host -/

/-- R34, R230: after construction the PC and SR are 0, the status is Idle with nothing executed, and R0..R14 and the cells are
the launch values given. Reset is the construction with the model's choice of these (log 1, log 2, log 3). -/
def Obligations.ConstructionState : Prop :=
  (∀ (p : Params) (regs : Vector Word 15) (mem : Memory),
    let s := construct p regs mem
    s.pc = 0#32 ∧ s.sr = 0#32 ∧ s.status = .idle ∧ s.executed = 0 ∧ s.params = p ∧
    (∀ (k : Nat) (h : k < 15), s.reg k = regs[k]) ∧ ∀ a, Memory.read s.mem a = Memory.read mem a) ∧
  State.reset.pc = 0#32 ∧ State.reset.sr = 0#32 ∧ State.reset.status = .idle ∧ State.reset.executed = 0

/-- R124: a run sets the status to Running and the count to 0, keeps the PC, the registers, SR and memory, and then repeats
the step; when the PC is already at the end it executes nothing and is Completed. That a run which is over stays as it is for
the steps that remain is the model's choice (log 9). -/
def Obligations.RunStartsFromCurrentState : Prop :=
  ∀ (s : State) (image : List Record) (budget k : Nat), (∀ f, s.status ≠ .faulted f) →
    (let t := s.run image budget 0
     t.status = .running ∧ t.executed = 0 ∧ t.program = image ∧ t.budget = budget ∧ t.regs = s.regs ∧ t.sr = s.sr ∧
     t.mem = s.mem ∧ t.params = s.params) ∧
    step (s.run image budget k) = .next (s.run image budget (k + 1)) ∧
    (image.length ≤ s.index →
      (s.run image budget (k + 1)).status = .completed ∧ (s.run image budget (k + 1)).executed = 0 ∧
      (s.run image budget (k + 1)).regs = s.regs ∧ (s.run image budget (k + 1)).mem = s.mem)

/-- R211: host register access. That setting r15 leaves no branch signal (`t.signal = s.signal`) is the model's choice (log 21),
and so is the instruction index a host fault records (log 20). -/
def Obligations.HostRegisterAccess : Prop :=
  ∀ (s : State) (i : Nat) (v : Int),
    (i < 16 → s.getRegister i = .ok (s.reg i) ∧
      ∃ t, s.setRegister i v = .ok t ∧ t.reg i = fromInt s.params.immPolicy v ∧ t.sr = s.sr ∧ t.signal = s.signal ∧
        frame s t [i] []) ∧
    (16 ≤ i → (∃ k, s.getRegister i = .error (.regIndex k i)) ∧ ∃ k, s.setRegister i v = .error (.regIndex k i))

/-- R212: host memory access. The instruction index a host fault records is the model's choice (log 20). -/
def Obligations.HostMemoryAccess : Prop :=
  ∀ (s : State) (a : Nat) (v : Int),
    (a < s.params.memSize → s.getMemory a = .ok (Memory.read s.mem a) ∧
      ∃ t, s.setMemory a v = .ok t ∧ Memory.read t.mem a = fromInt s.params.immPolicy v ∧ t.sr = s.sr ∧
        t.signal = s.signal ∧ frame s t [] [a]) ∧
    (s.params.memSize ≤ a → (∃ k, s.getMemory a = .error (.memIndex k a)) ∧ ∃ k, s.setMemory a v = .error (.memIndex k a))

/-- R214: host access to SR, all 32 bits; and `execute` outside the loop: it neither fetches nor counts nor advances the PC,
its result says whether r15 was written, and SWI gives the halt result. -/
def Obligations.HostStatusAndExecute : Prop :=
  ∀ s : State,
    s.getStatus = s.sr ∧
    (∀ v, (s.setStatus v).getStatus = fromInt s.params.immPolicy v ∧ frame s (s.setStatus v) [] [] ∧
      (s.setStatus v).signal = s.signal) ∧
    (∀ (r : Record) (w : Bool) (t : State), s.hostExecute r = .continued w t →
      t.executed = s.executed ∧ t.status = s.status ∧ (w = false → t.pc = s.pc)) ∧
    (∀ (c : Cond) (m : UpdateMode) (x : Suffix), s.meets c = true →
      ∃ t, s.hostExecute ⟨.swi, c, m, x, [], none⟩ = .halt t ∧ t.sr = s.sr ∧ frame s t [] [])
end

