-- ==== Sys2Proof/Laws/State.lean ====
section
/-! SUPPORT. The small lemmas of State: what each field is after each update, so that no proof unfolds a record update. -/

namespace Sys2Proof.Laws

open Sys2Proof.Machine

variable (s : State)

/-! ### writeReg -/

@[simp] theorem writeReg_regs (i : Nat) (v : Word) : (s.writeReg i v).regs = s.regs.setIfInBounds i v := rfl
@[simp] theorem writeReg_sr (i : Nat) (v : Word) : (s.writeReg i v).sr = s.sr := rfl
@[simp] theorem writeReg_mem (i : Nat) (v : Word) : (s.writeReg i v).mem = s.mem := rfl
@[simp] theorem writeReg_params (i : Nat) (v : Word) : (s.writeReg i v).params = s.params := rfl
@[simp] theorem writeReg_program (i : Nat) (v : Word) : (s.writeReg i v).program = s.program := rfl
@[simp] theorem writeReg_budget (i : Nat) (v : Word) : (s.writeReg i v).budget = s.budget := rfl
@[simp] theorem writeReg_status (i : Nat) (v : Word) : (s.writeReg i v).status = s.status := rfl
@[simp] theorem writeReg_executed (i : Nat) (v : Word) : (s.writeReg i v).executed = s.executed := rfl
@[simp] theorem writeReg_signal (i : Nat) (v : Word) : (s.writeReg i v).signal = if i = 15 then .branched else s.signal := rfl

/-! ### setSignal -/

@[simp] theorem setSignal_regs (g : Signal) : (s.setSignal g).regs = s.regs := rfl
@[simp] theorem setSignal_sr (g : Signal) : (s.setSignal g).sr = s.sr := rfl
@[simp] theorem setSignal_mem (g : Signal) : (s.setSignal g).mem = s.mem := rfl
@[simp] theorem setSignal_params (g : Signal) : (s.setSignal g).params = s.params := rfl
@[simp] theorem setSignal_program (g : Signal) : (s.setSignal g).program = s.program := rfl
@[simp] theorem setSignal_budget (g : Signal) : (s.setSignal g).budget = s.budget := rfl
@[simp] theorem setSignal_status (g : Signal) : (s.setSignal g).status = s.status := rfl
@[simp] theorem setSignal_executed (g : Signal) : (s.setSignal g).executed = s.executed := rfl
@[simp] theorem setSignal_signal (g : Signal) : (s.setSignal g).signal = g := rfl

/-! ### writeCell -/

@[simp] theorem writeCell_regs (a v : Word) : (s.writeCell a v).regs = s.regs := rfl
@[simp] theorem writeCell_sr (a v : Word) : (s.writeCell a v).sr = s.sr := rfl
@[simp] theorem writeCell_mem (a v : Word) : (s.writeCell a v).mem = Memory.write s.mem (uint a) v := rfl
@[simp] theorem writeCell_params (a v : Word) : (s.writeCell a v).params = s.params := rfl
@[simp] theorem writeCell_program (a v : Word) : (s.writeCell a v).program = s.program := rfl
@[simp] theorem writeCell_budget (a v : Word) : (s.writeCell a v).budget = s.budget := rfl
@[simp] theorem writeCell_status (a v : Word) : (s.writeCell a v).status = s.status := rfl
@[simp] theorem writeCell_executed (a v : Word) : (s.writeCell a v).executed = s.executed := rfl
@[simp] theorem writeCell_signal (a v : Word) : (s.writeCell a v).signal = s.signal := rfl

/-! ### takeFault -/

@[simp] theorem takeFault_regs (r : Fault) : (s.takeFault r).regs = s.regs := rfl
@[simp] theorem takeFault_sr (r : Fault) : (s.takeFault r).sr = s.sr := rfl
@[simp] theorem takeFault_mem (r : Fault) : (s.takeFault r).mem = s.mem := rfl
@[simp] theorem takeFault_params (r : Fault) : (s.takeFault r).params = s.params := rfl
@[simp] theorem takeFault_program (r : Fault) : (s.takeFault r).program = s.program := rfl
@[simp] theorem takeFault_budget (r : Fault) : (s.takeFault r).budget = s.budget := rfl
@[simp] theorem takeFault_status (r : Fault) : (s.takeFault r).status = .faulted r := rfl
@[simp] theorem takeFault_executed (r : Fault) : (s.takeFault r).executed = s.executed := rfl
@[simp] theorem takeFault_signal (r : Fault) : (s.takeFault r).signal = s.signal := rfl

/-! ### withFlags -/

@[simp] theorem withFlags_regs (n z c v : Bool) : (s.withFlags n z c v).regs = s.regs := rfl
@[simp] theorem withFlags_mem (n z c v : Bool) : (s.withFlags n z c v).mem = s.mem := rfl
@[simp] theorem withFlags_params (n z c v : Bool) : (s.withFlags n z c v).params = s.params := rfl
@[simp] theorem withFlags_program (n z c v : Bool) : (s.withFlags n z c v).program = s.program := rfl
@[simp] theorem withFlags_budget (n z c v : Bool) : (s.withFlags n z c v).budget = s.budget := rfl
@[simp] theorem withFlags_status (n z c v : Bool) : (s.withFlags n z c v).status = s.status := rfl
@[simp] theorem withFlags_executed (n z c v : Bool) : (s.withFlags n z c v).executed = s.executed := rfl
@[simp] theorem withFlags_signal (n z c v : Bool) : (s.withFlags n z c v).signal = s.signal := rfl

/-! ### countFetch -/

@[simp] theorem countFetch_regs : (s.countFetch).regs = s.regs := rfl
@[simp] theorem countFetch_sr : (s.countFetch).sr = s.sr := rfl
@[simp] theorem countFetch_mem : (s.countFetch).mem = s.mem := rfl
@[simp] theorem countFetch_params : (s.countFetch).params = s.params := rfl
@[simp] theorem countFetch_program : (s.countFetch).program = s.program := rfl
@[simp] theorem countFetch_budget : (s.countFetch).budget = s.budget := rfl
@[simp] theorem countFetch_status : (s.countFetch).status = s.status := rfl
@[simp] theorem countFetch_executed : (s.countFetch).executed = s.executed + 1 := rfl
@[simp] theorem countFetch_signal : (s.countFetch).signal = s.signal := rfl

/-! ### setArithFlags -/

@[simp] theorem setArithFlags_regs (r : ArithResult) : (s.setArithFlags r).regs = s.regs := rfl
@[simp] theorem setArithFlags_mem (r : ArithResult) : (s.setArithFlags r).mem = s.mem := rfl
@[simp] theorem setArithFlags_params (r : ArithResult) : (s.setArithFlags r).params = s.params := rfl
@[simp] theorem setArithFlags_program (r : ArithResult) : (s.setArithFlags r).program = s.program := rfl
@[simp] theorem setArithFlags_budget (r : ArithResult) : (s.setArithFlags r).budget = s.budget := rfl
@[simp] theorem setArithFlags_status (r : ArithResult) : (s.setArithFlags r).status = s.status := rfl
@[simp] theorem setArithFlags_executed (r : ArithResult) : (s.setArithFlags r).executed = s.executed := rfl
@[simp] theorem setArithFlags_signal (r : ArithResult) : (s.setArithFlags r).signal = s.signal := rfl

/-! ### setLogicFlags -/

@[simp] theorem setLogicFlags_regs (r : Word) : (s.setLogicFlags r).regs = s.regs := by
  unfold State.setLogicFlags; split <;> rfl
@[simp] theorem setLogicFlags_mem (r : Word) : (s.setLogicFlags r).mem = s.mem := by
  unfold State.setLogicFlags; split <;> rfl
@[simp] theorem setLogicFlags_params (r : Word) : (s.setLogicFlags r).params = s.params := by
  unfold State.setLogicFlags; split <;> rfl
@[simp] theorem setLogicFlags_program (r : Word) : (s.setLogicFlags r).program = s.program := by
  unfold State.setLogicFlags; split <;> rfl
@[simp] theorem setLogicFlags_budget (r : Word) : (s.setLogicFlags r).budget = s.budget := by
  unfold State.setLogicFlags; split <;> rfl
@[simp] theorem setLogicFlags_status (r : Word) : (s.setLogicFlags r).status = s.status := by
  unfold State.setLogicFlags; split <;> rfl
@[simp] theorem setLogicFlags_executed (r : Word) : (s.setLogicFlags r).executed = s.executed := by
  unfold State.setLogicFlags; split <;> rfl
@[simp] theorem setLogicFlags_signal (r : Word) : (s.setLogicFlags r).signal = s.signal := by
  unfold State.setLogicFlags; split <;> rfl

/-! ### Reads that an update does not touch -/

@[simp] theorem writeReg_cell (i : Nat) (v : Word) (x : Word) : (s.writeReg i v).cell x = s.cell x := rfl
@[simp] theorem writeReg_flagN (i : Nat) (v : Word) : (s.writeReg i v).flagN = s.flagN := rfl
@[simp] theorem writeReg_flagZ (i : Nat) (v : Word) : (s.writeReg i v).flagZ = s.flagZ := rfl
@[simp] theorem writeReg_flagC (i : Nat) (v : Word) : (s.writeReg i v).flagC = s.flagC := rfl
@[simp] theorem writeReg_flagV (i : Nat) (v : Word) : (s.writeReg i v).flagV = s.flagV := rfl
@[simp] theorem writeReg_meets (i : Nat) (v : Word) (k : Cond) : (s.writeReg i v).meets k = s.meets k := rfl
@[simp] theorem writeReg_borrowIn (i : Nat) (v : Word) : (s.writeReg i v).borrowIn = s.borrowIn := rfl
@[simp] theorem setSignal_reg (g : Signal) (j : Nat) : (s.setSignal g).reg j = s.reg j := rfl
@[simp] theorem setSignal_index (g : Signal) : (s.setSignal g).index = s.index := rfl
@[simp] theorem setSignal_cell (g : Signal) (x : Word) : (s.setSignal g).cell x = s.cell x := rfl
@[simp] theorem setSignal_flagN (g : Signal) : (s.setSignal g).flagN = s.flagN := rfl
@[simp] theorem setSignal_flagZ (g : Signal) : (s.setSignal g).flagZ = s.flagZ := rfl
@[simp] theorem setSignal_flagC (g : Signal) : (s.setSignal g).flagC = s.flagC := rfl
@[simp] theorem setSignal_flagV (g : Signal) : (s.setSignal g).flagV = s.flagV := rfl
@[simp] theorem setSignal_meets (g : Signal) (k : Cond) : (s.setSignal g).meets k = s.meets k := rfl
@[simp] theorem setSignal_borrowIn (g : Signal) : (s.setSignal g).borrowIn = s.borrowIn := rfl
@[simp] theorem writeCell_reg (a v : Word) (j : Nat) : (s.writeCell a v).reg j = s.reg j := rfl
@[simp] theorem writeCell_index (a v : Word) : (s.writeCell a v).index = s.index := rfl
@[simp] theorem writeCell_flagN (a v : Word) : (s.writeCell a v).flagN = s.flagN := rfl
@[simp] theorem writeCell_flagZ (a v : Word) : (s.writeCell a v).flagZ = s.flagZ := rfl
@[simp] theorem writeCell_flagC (a v : Word) : (s.writeCell a v).flagC = s.flagC := rfl
@[simp] theorem writeCell_flagV (a v : Word) : (s.writeCell a v).flagV = s.flagV := rfl
@[simp] theorem writeCell_meets (a v : Word) (k : Cond) : (s.writeCell a v).meets k = s.meets k := rfl
@[simp] theorem writeCell_borrowIn (a v : Word) : (s.writeCell a v).borrowIn = s.borrowIn := rfl
@[simp] theorem takeFault_reg (r : Fault) (j : Nat) : (s.takeFault r).reg j = s.reg j := rfl
@[simp] theorem takeFault_index (r : Fault) : (s.takeFault r).index = s.index := rfl
@[simp] theorem takeFault_cell (r : Fault) (x : Word) : (s.takeFault r).cell x = s.cell x := rfl
@[simp] theorem takeFault_flagN (r : Fault) : (s.takeFault r).flagN = s.flagN := rfl
@[simp] theorem takeFault_flagZ (r : Fault) : (s.takeFault r).flagZ = s.flagZ := rfl
@[simp] theorem takeFault_flagC (r : Fault) : (s.takeFault r).flagC = s.flagC := rfl
@[simp] theorem takeFault_flagV (r : Fault) : (s.takeFault r).flagV = s.flagV := rfl
@[simp] theorem takeFault_meets (r : Fault) (k : Cond) : (s.takeFault r).meets k = s.meets k := rfl
@[simp] theorem takeFault_borrowIn (r : Fault) : (s.takeFault r).borrowIn = s.borrowIn := rfl
@[simp] theorem withFlags_reg (n z c v : Bool) (j : Nat) : (s.withFlags n z c v).reg j = s.reg j := rfl
@[simp] theorem withFlags_index (n z c v : Bool) : (s.withFlags n z c v).index = s.index := rfl
@[simp] theorem withFlags_cell (n z c v : Bool) (x : Word) : (s.withFlags n z c v).cell x = s.cell x := rfl
@[simp] theorem countFetch_reg (j : Nat) : (s.countFetch).reg j = s.reg j := rfl
@[simp] theorem countFetch_index : (s.countFetch).index = s.index := rfl
@[simp] theorem countFetch_cell (x : Word) : (s.countFetch).cell x = s.cell x := rfl
@[simp] theorem countFetch_flagN : (s.countFetch).flagN = s.flagN := rfl
@[simp] theorem countFetch_flagZ : (s.countFetch).flagZ = s.flagZ := rfl
@[simp] theorem countFetch_flagC : (s.countFetch).flagC = s.flagC := rfl
@[simp] theorem countFetch_flagV : (s.countFetch).flagV = s.flagV := rfl
@[simp] theorem countFetch_meets (k : Cond) : (s.countFetch).meets k = s.meets k := rfl
@[simp] theorem countFetch_borrowIn : (s.countFetch).borrowIn = s.borrowIn := rfl
@[simp] theorem setArithFlags_reg (r : ArithResult) (j : Nat) : (s.setArithFlags r).reg j = s.reg j := rfl
@[simp] theorem setLogicFlags_reg (r : Word) (j : Nat) : (s.setLogicFlags r).reg j = s.reg j := by
  simp [State.reg]

/-! ### Repeated updates -/

@[simp] theorem writeRegs_sr (l : List (Nat × Word)) : (s.writeRegs l).sr = s.sr := by
  induction l generalizing s with
  | nil => rfl
  | cons e l ih => exact ih (s.writeReg e.1 e.2)
@[simp] theorem writeRegs_mem (l : List (Nat × Word)) : (s.writeRegs l).mem = s.mem := by
  induction l generalizing s with
  | nil => rfl
  | cons e l ih => exact ih (s.writeReg e.1 e.2)
@[simp] theorem writeRegs_params (l : List (Nat × Word)) : (s.writeRegs l).params = s.params := by
  induction l generalizing s with
  | nil => rfl
  | cons e l ih => exact ih (s.writeReg e.1 e.2)
@[simp] theorem writeRegs_program (l : List (Nat × Word)) : (s.writeRegs l).program = s.program := by
  induction l generalizing s with
  | nil => rfl
  | cons e l ih => exact ih (s.writeReg e.1 e.2)
@[simp] theorem writeRegs_budget (l : List (Nat × Word)) : (s.writeRegs l).budget = s.budget := by
  induction l generalizing s with
  | nil => rfl
  | cons e l ih => exact ih (s.writeReg e.1 e.2)
@[simp] theorem writeRegs_status (l : List (Nat × Word)) : (s.writeRegs l).status = s.status := by
  induction l generalizing s with
  | nil => rfl
  | cons e l ih => exact ih (s.writeReg e.1 e.2)
@[simp] theorem writeRegs_executed (l : List (Nat × Word)) : (s.writeRegs l).executed = s.executed := by
  induction l generalizing s with
  | nil => rfl
  | cons e l ih => exact ih (s.writeReg e.1 e.2)
@[simp] theorem writeCells_regs (l : List (Word × Word)) : (s.writeCells l).regs = s.regs := by
  induction l generalizing s with
  | nil => rfl
  | cons e l ih => exact ih (s.writeCell e.1 e.2)
@[simp] theorem writeCells_sr (l : List (Word × Word)) : (s.writeCells l).sr = s.sr := by
  induction l generalizing s with
  | nil => rfl
  | cons e l ih => exact ih (s.writeCell e.1 e.2)
@[simp] theorem writeCells_params (l : List (Word × Word)) : (s.writeCells l).params = s.params := by
  induction l generalizing s with
  | nil => rfl
  | cons e l ih => exact ih (s.writeCell e.1 e.2)
@[simp] theorem writeCells_program (l : List (Word × Word)) : (s.writeCells l).program = s.program := by
  induction l generalizing s with
  | nil => rfl
  | cons e l ih => exact ih (s.writeCell e.1 e.2)
@[simp] theorem writeCells_budget (l : List (Word × Word)) : (s.writeCells l).budget = s.budget := by
  induction l generalizing s with
  | nil => rfl
  | cons e l ih => exact ih (s.writeCell e.1 e.2)
@[simp] theorem writeCells_status (l : List (Word × Word)) : (s.writeCells l).status = s.status := by
  induction l generalizing s with
  | nil => rfl
  | cons e l ih => exact ih (s.writeCell e.1 e.2)
@[simp] theorem writeCells_executed (l : List (Word × Word)) : (s.writeCells l).executed = s.executed := by
  induction l generalizing s with
  | nil => rfl
  | cons e l ih => exact ih (s.writeCell e.1 e.2)
@[simp] theorem writeCells_signal (l : List (Word × Word)) : (s.writeCells l).signal = s.signal := by
  induction l generalizing s with
  | nil => rfl
  | cons e l ih => exact ih (s.writeCell e.1 e.2)
@[simp] theorem writeCells_reg (l : List (Word × Word)) (j : Nat) : (s.writeCells l).reg j = s.reg j := by
  simp [State.reg]

/-! ### Reset -/

/-- Reset is the construction with every OPEN parameter at the value the log names (R230). -/
theorem reset_eq_construct :
    State.reset = construct { memSize := 2 ^ 32 } (Vector.replicate 15 0#32) [] := by decide

theorem reset_mem_wf : Memory.wf State.reset.mem := by decide

end Sys2Proof.Laws
end

