-- ==== Sys2Proof/Laws/Ops.lean ====
section
/-! SUPPORT. What each shared operation can do, said once: registers and checks, the condition gate, and the handlers of
Machine/Handlers.lean. For a handler, `…_next` gives its next state when every check passes, and `…_cases` says that a
next state arises in no other way. -/

namespace Sys2Proof.Laws

open Sys2Proof.Machine

/-! ### Registers -/

theorem reg_writeReg (s : State) (i j : Nat) (v : Word) :
    (s.writeReg i v).reg j = if i = j ∧ i < 16 then v else s.reg j := by
  simp only [State.reg, writeReg_regs, Vector.getElem?_setIfInBounds]
  by_cases hij : i = j
  · subst hij; by_cases h : i < 16 <;> simp [h]
  · simp [hij]

theorem reg_writeReg_same (s : State) {i : Nat} (v : Word) (h : i < 16) : (s.writeReg i v).reg i = v := by
  simp [reg_writeReg, h]

theorem reg_writeReg_other (s : State) {i j : Nat} (v : Word) (h : j ≠ i) : (s.writeReg i v).reg j = s.reg j := by
  rw [reg_writeReg, if_neg (by omega)]

/-- Repeated register writes leave every register alone that is not listed. -/
theorem reg_writeRegs_other (s : State) (l : List (Nat × Word)) {j : Nat} (h : ∀ e ∈ l, e.1 ≠ j) :
    (s.writeRegs l).reg j = s.reg j := by
  induction l generalizing s with
  | nil => rfl
  | cons e l ih =>
    rw [State.writeRegs, ih (s.writeReg e.1 e.2) fun d hd => h d (by simp [hd])]
    exact reg_writeReg_other s _ (Ne.symm (h e (by simp)))

theorem regFault_eq_none (s : State) (is : List Nat) : s.regFault is = none ↔ ∀ i ∈ is, i < 16 := by
  simp [State.regFault]

theorem memFault_eq_none (s : State) (as : List Word) :
    s.memFault as = none ↔ ∀ a ∈ as, uint a < s.params.memSize := by
  simp [State.memFault]

theorem pairFault_eq_none (s : State) (t t2 : Nat) :
    s.pairFault t t2 = none ↔ t % 2 = 0 ∧ t2 = t + 1 ∧ t2 ≤ 15 := by
  unfold State.pairFault; split <;> simp_all; omega

@[simp] theorem setSignal_effectiveAddress (s : State) (g : Signal) (n : Nat) (offset : Word) :
    effectiveAddress (s.setSignal g) n offset = effectiveAddress s n offset := rfl

@[simp] theorem setSignal_operand2 (s : State) (g : Signal) (o : Operand2) : o.value (s.setSignal g) = o.value s := by
  cases o <;> rfl

/-! ### Checks -/

@[simp] theorem unlessFault_none (out : Out) : unlessFault none out = out := rfl

theorem unlessFault_eq_next {f : Option Fault} {out : Out} {t : State} :
    unlessFault f out = .next t ↔ f = none ∧ out = .next t := by
  cases f <;> simp [unlessFault]

@[simp] theorem withOperands_some {α : Type} (s : State) (a : α) (body : α → Out) :
    withOperands s (some a) body = body a := rfl

theorem withOperands_eq_next {α : Type} {s : State} {o : Option α} {body : α → Out} {t : State} :
    withOperands s o body = .next t ↔ ∃ a, o = some a ∧ body a = .next t := by
  cases o <;> simp [withOperands]

/-! ### The condition gate (R112) -/

theorem gated_met {c : Cond} {s : State} (body : State → Out) (h : s.meets c = true) :
    gated c s body = body (s.setSignal .sequential) := by simp [gated, h]

theorem gated_unmet {c : Cond} {s : State} (body : State → Out) (h : s.meets c = false) :
    gated c s body = .next (s.setSignal .sequential) := by simp [gated, h]

theorem gated_eq_next {c : Cond} {s t : State} {body : State → Out} :
    gated c s body = .next t ↔
      (s.meets c = false ∧ t = s.setSignal .sequential) ∨
        (s.meets c = true ∧ body (s.setSignal .sequential) = .next t) := by
  unfold gated; cases s.meets c <;> simp [eq_comm]

/-! ### The handlers -/

variable {c : Cond} {rs : List Nat} {im : Option Word} {s t : State}

theorem dp3_next {write : Nat → Word → Word → State → State} {o : Dp3Operands} (hc : s.meets c = true)
    (ho : dp3Operands rs im = some o) (hr : ∀ i ∈ o.d :: o.n :: o.op2.registers, i < 16) :
    dp3 c rs im s write =
      .next (write o.d (s.reg o.n) (o.op2.value s) (s.setSignal .sequential)) := by
  unfold dp3
  rw [gated_met _ hc, ho, withOperands_some, (regFault_eq_none _ _).2 hr, unlessFault_none]
  rcases o with ⟨d, n, _ | _⟩ <;> rfl

theorem dp3_cases {write : Nat → Word → Word → State → State} (h : dp3 c rs im s write = .next t) :
    (s.meets c = false ∧ t = s.setSignal .sequential) ∨
      (s.meets c = true ∧ ∃ o, dp3Operands rs im = some o ∧ (∀ i ∈ o.d :: o.n :: o.op2.registers, i < 16) ∧
        t = write o.d (s.reg o.n) (o.op2.value s) (s.setSignal .sequential)) := by
  rcases gated_eq_next.1 h with h | ⟨hc, h⟩
  · exact .inl h
  · obtain ⟨o, ho, h⟩ := withOperands_eq_next.1 h
    have hr := (regFault_eq_none _ _).1 (unlessFault_eq_next.1 h).1
    have := dp3_next (write := write) hc ho hr
    exact .inr ⟨hc, o, ho, hr, by simp_all⟩

theorem cmp2_next {write : Word → Word → State → State} {o : Cmp2Operands} (hc : s.meets c = true)
    (ho : cmp2Operands rs im = some o) (hr : ∀ i ∈ o.n :: o.op2.registers, i < 16) :
    cmp2 c rs im s write = .next (write (s.reg o.n) (o.op2.value s) (s.setSignal .sequential)) := by
  unfold cmp2
  rw [gated_met _ hc, ho, withOperands_some, (regFault_eq_none _ _).2 hr, unlessFault_none]
  rcases o with ⟨n, _ | _⟩ <;> rfl

theorem cmp2_cases {write : Word → Word → State → State} (h : cmp2 c rs im s write = .next t) :
    (s.meets c = false ∧ t = s.setSignal .sequential) ∨
      (s.meets c = true ∧ ∃ o, cmp2Operands rs im = some o ∧ (∀ i ∈ o.n :: o.op2.registers, i < 16) ∧
        t = write (s.reg o.n) (o.op2.value s) (s.setSignal .sequential)) := by
  rcases gated_eq_next.1 h with h | ⟨hc, h⟩
  · exact .inl h
  · obtain ⟨o, ho, h⟩ := withOperands_eq_next.1 h
    have hr := (regFault_eq_none _ _).1 (unlessFault_eq_next.1 h).1
    have := cmp2_next (write := write) hc ho hr
    exact .inr ⟨hc, o, ho, hr, by simp_all⟩

theorem loadCell_next {extend : Word → Word} {o : LsOperands} (hc : s.meets c = true)
    (ho : lsOperands rs im = some o) (hr : ∀ i ∈ [o.t, o.n], i < 16)
    (ha : uint (effectiveAddress s o.n o.offset) < s.params.memSize) :
    loadCell c rs im s extend =
      .next ((s.setSignal .sequential).writeReg o.t (extend (s.cell (effectiveAddress s o.n o.offset)))) := by
  unfold loadCell
  rw [gated_met _ hc, ho, withOperands_some, (regFault_eq_none _ _).2 hr, unlessFault_none]
  exact (congrArg (unlessFault · _) ((memFault_eq_none _ _).2 (by simpa using ha))).trans rfl

theorem loadCell_cases {extend : Word → Word} (h : loadCell c rs im s extend = .next t) :
    (s.meets c = false ∧ t = s.setSignal .sequential) ∨
      (s.meets c = true ∧ ∃ o, lsOperands rs im = some o ∧ (∀ i ∈ [o.t, o.n], i < 16) ∧
        uint (effectiveAddress s o.n o.offset) < s.params.memSize ∧
        t = (s.setSignal .sequential).writeReg o.t (extend (s.cell (effectiveAddress s o.n o.offset)))) := by
  rcases gated_eq_next.1 h with h | ⟨hc, h⟩
  · exact .inl h
  · obtain ⟨o, ho, h⟩ := withOperands_eq_next.1 h
    obtain ⟨hr, h⟩ := unlessFault_eq_next.1 h
    have ha := (memFault_eq_none _ _).1 (unlessFault_eq_next.1 h).1
    have := loadCell_next (extend := extend) hc ho ((regFault_eq_none _ _).1 hr) (ha _ (by simp))
    exact .inr ⟨hc, o, ho, (regFault_eq_none _ _).1 hr, ha _ (by simp), by simp_all⟩

theorem storeCell_next {place : Word → Word → Word} {o : LsOperands} (hc : s.meets c = true)
    (ho : lsOperands rs im = some o) (hr : ∀ i ∈ [o.t, o.n], i < 16)
    (ha : uint (effectiveAddress s o.n o.offset) < s.params.memSize) :
    storeCell c rs im s place =
      .next ((s.setSignal .sequential).writeCell (effectiveAddress s o.n o.offset)
        (place (s.cell (effectiveAddress s o.n o.offset)) (s.reg o.t))) := by
  unfold storeCell
  rw [gated_met _ hc, ho, withOperands_some, (regFault_eq_none _ _).2 hr, unlessFault_none]
  exact (congrArg (unlessFault · _) ((memFault_eq_none _ _).2 (by simpa using ha))).trans rfl

theorem storeCell_cases {place : Word → Word → Word} (h : storeCell c rs im s place = .next t) :
    (s.meets c = false ∧ t = s.setSignal .sequential) ∨
      (s.meets c = true ∧ ∃ o, lsOperands rs im = some o ∧ (∀ i ∈ [o.t, o.n], i < 16) ∧
        uint (effectiveAddress s o.n o.offset) < s.params.memSize ∧
        t = (s.setSignal .sequential).writeCell (effectiveAddress s o.n o.offset)
          (place (s.cell (effectiveAddress s o.n o.offset)) (s.reg o.t))) := by
  rcases gated_eq_next.1 h with h | ⟨hc, h⟩
  · exact .inl h
  · obtain ⟨o, ho, h⟩ := withOperands_eq_next.1 h
    obtain ⟨hr, h⟩ := unlessFault_eq_next.1 h
    have ha := (memFault_eq_none _ _).1 (unlessFault_eq_next.1 h).1
    have := storeCell_next (place := place) hc ho ((regFault_eq_none _ _).1 hr) (ha _ (by simp))
    exact .inr ⟨hc, o, ho, (regFault_eq_none _ _).1 hr, ha _ (by simp), by simp_all⟩

theorem doubleword_next {body : LsdOperands → Word → Word → State → State} {o : LsdOperands} (hc : s.meets c = true)
    (ho : lsdOperands rs im = some o) (hp : o.t % 2 = 0 ∧ o.t2 = o.t + 1 ∧ o.t2 ≤ 15) (hn : o.n < 16)
    (ha : uint (effectiveAddress s o.n o.offset) < s.params.memSize)
    (ha2 : uint (effectiveAddress s o.n o.offset + 1#32) < s.params.memSize) :
    doubleword c rs im s body =
      .next (body o (effectiveAddress s o.n o.offset) (effectiveAddress s o.n o.offset + 1#32)
        (s.setSignal .sequential)) := by
  unfold doubleword
  have hr : ∀ i ∈ [o.t, o.t2, o.n], i < 16 := by
    intro i hi; simp only [List.mem_cons, List.not_mem_nil, or_false] at hi; omega
  rw [gated_met _ hc, ho, withOperands_some, (pairFault_eq_none _ _ _).2 hp, unlessFault_none,
    (regFault_eq_none _ _).2 hr, unlessFault_none]
  exact (congrArg (unlessFault · _) ((memFault_eq_none _ _).2 (by simpa using ⟨ha, ha2⟩))).trans rfl

theorem doubleword_cases {body : LsdOperands → Word → Word → State → State}
    (h : doubleword c rs im s body = .next t) :
    (s.meets c = false ∧ t = s.setSignal .sequential) ∨
      (s.meets c = true ∧ ∃ o, lsdOperands rs im = some o ∧ (o.t % 2 = 0 ∧ o.t2 = o.t + 1 ∧ o.t2 ≤ 15) ∧ o.n < 16 ∧
        uint (effectiveAddress s o.n o.offset) < s.params.memSize ∧
        uint (effectiveAddress s o.n o.offset + 1#32) < s.params.memSize ∧
        t = body o (effectiveAddress s o.n o.offset) (effectiveAddress s o.n o.offset + 1#32)
          (s.setSignal .sequential)) := by
  rcases gated_eq_next.1 h with h | ⟨hc, h⟩
  · exact .inl h
  · obtain ⟨o, ho, h⟩ := withOperands_eq_next.1 h
    obtain ⟨hp, h⟩ := unlessFault_eq_next.1 h
    obtain ⟨hr, h⟩ := unlessFault_eq_next.1 h
    have ha := (memFault_eq_none _ _).1 (unlessFault_eq_next.1 h).1
    have hp := (pairFault_eq_none _ _ _).1 hp
    have hn := (regFault_eq_none _ _).1 hr o.n (by simp)
    have := doubleword_next (body := body) hc ho hp hn (ha _ (by simp)) (ha _ (by simp))
    exact .inr ⟨hc, o, ho, hp, hn, ha _ (by simp), ha _ (by simp), by simp_all⟩

theorem multiple_next {mode : UpdateMode} {body : LsmOperands → List Word → State → State} {o : LsmOperands}
    (hc : s.meets c = true) (ho : lsmOperands rs im = some o) (hr : ∀ i ∈ o.n :: o.list, i < 16)
    (ha : ∀ a ∈ blockAddresses mode (s.reg o.n) o.list.length, uint a < s.params.memSize) :
    multiple mode c rs im s body =
      .next (body o (blockAddresses mode (s.reg o.n) o.list.length) (s.setSignal .sequential)) := by
  unfold multiple
  rw [gated_met _ hc, ho, withOperands_some, (regFault_eq_none _ _).2 hr, unlessFault_none]
  exact (congrArg (unlessFault · _) ((memFault_eq_none _ _).2 (by simpa using ha))).trans rfl

theorem multiple_cases {mode : UpdateMode} {body : LsmOperands → List Word → State → State}
    (h : multiple mode c rs im s body = .next t) :
    (s.meets c = false ∧ t = s.setSignal .sequential) ∨
      (s.meets c = true ∧ ∃ o, lsmOperands rs im = some o ∧ (∀ i ∈ o.n :: o.list, i < 16) ∧
        (∀ a ∈ blockAddresses mode (s.reg o.n) o.list.length, uint a < s.params.memSize) ∧
        t = body o (blockAddresses mode (s.reg o.n) o.list.length) (s.setSignal .sequential)) := by
  rcases gated_eq_next.1 h with h | ⟨hc, h⟩
  · exact .inl h
  · obtain ⟨o, ho, h⟩ := withOperands_eq_next.1 h
    obtain ⟨hr, h⟩ := unlessFault_eq_next.1 h
    have ha := (memFault_eq_none _ _).1 (unlessFault_eq_next.1 h).1
    have := multiple_next (body := body) hc ho ((regFault_eq_none _ _).1 hr) ha
    exact .inr ⟨hc, o, ho, (regFault_eq_none _ _).1 hr, ha, by simp_all⟩

end Sys2Proof.Laws
end

