-- ==== Sys2Proof/Laws/Exec.lean ====
section
/-! SUPPORT. What executing an instruction, and one step of the loop, can do: `exec_cases` and `step_cases` say it once for all
instructions, so that a whole-machine proof needs one case for each shape of effect and none for each instruction. -/

namespace Sys2Proof.Laws

open Sys2Proof.Machine

/-! ### Closed forms of the addresses -/

theorem effectiveAddress_cell (s : State) (n : Nat) (im : Option Word) :
    uint (effectiveAddress s n (im.getD 0#32)) = expectedCell s n im := by
  simp [effectiveAddress, expectedCell, uint, BitVec.toNat_add]

theorem effectiveAddress_next_cell (s : State) (n : Nat) (im : Option Word) :
    uint (effectiveAddress s n (im.getD 0#32) + 1#32) = (expectedCell s n im + 1) % 2 ^ 32 := by
  rw [← effectiveAddress_cell]; simp [uint, BitVec.toNat_add]

theorem blockAddress_cell (mode : UpdateMode) (b : Word) (j : Nat) :
    uint (blockAddress mode b j) = expectedBlockCell mode b j := by
  have hb := b.isLt
  cases mode <;> simp [blockAddress, expectedBlockCell, uint, BitVec.toNat_add, BitVec.toNat_sub] <;> omega

theorem transferCells_multiple {i : Instr} {s : State} {n : Nat} {list : List Nat} (hf : i.format = .lsm)
    (hr : i.record.regs = n :: list) :
    transferCells s i = (blockAddresses i.record.mode (s.reg n) list.length).map uint := by
  unfold transferCells; rw [hf, hr]; simp [blockAddresses, blockAddress_cell]

/-! ### Records and their operands -/

/-- A record that selects a row is the record of that instruction. -/
theorem record_of_instr? {r : Record} {i : Instr} (h : r.instr? = some i) : i.record = r := by
  obtain ⟨op, c, m, x, rs, im⟩ := r
  unfold Record.instr? at h
  cases op <;> simp at h <;> (try split at h) <;> (try cases h) <;> simp_all [Instr.record]

theorem dp3Operands_eq_some {rs : List Nat} {im : Option Word} {o : Dp3Operands} (h : dp3Operands rs im = some o) :
    rs = o.d :: o.n :: o.op2.registers ∧ im = o.op2.imm? := by
  unfold dp3Operands at h
  split at h <;> simp_all <;> subst h <;> simp [Operand2.registers, Operand2.imm?]

theorem lsOperands_eq_some {rs : List Nat} {im : Option Word} {o : LsOperands} (h : lsOperands rs im = some o) :
    rs = [o.t, o.n] ∧ o.offset = im.getD 0#32 := by
  unfold lsOperands at h
  split at h <;> simp_all
  subst h; exact ⟨⟨rfl, rfl⟩, rfl⟩

theorem lsdOperands_eq_some {rs : List Nat} {im : Option Word} {o : LsdOperands} (h : lsdOperands rs im = some o) :
    rs = [o.t, o.t2, o.n] ∧ o.offset = im.getD 0#32 := by
  unfold lsdOperands at h
  split at h <;> simp_all
  subst h; exact ⟨⟨rfl, rfl, rfl⟩, rfl⟩

theorem lsmOperands_eq_some {rs : List Nat} {im : Option Word} {o : LsmOperands} (h : lsmOperands rs im = some o) :
    rs = o.n :: o.list ∧ im = none := by
  unfold lsmOperands at h
  split at h <;> simp_all
  subst h; exact ⟨rfl, rfl⟩

/-! ### Well-formed images -/

@[simp] theorem faultedOnBuiltRecord_faulted (f : Fault) :
    (RunStatus.faulted f).faultedOnBuiltRecord = f.ofBuiltRecord := rfl

/-- The member of a well-formed image is a row of the opcode table, well-formed. -/
theorem wellFormedImage_instr {image : List Record} {r : Record} (h : wellFormedImage image) (hr : r ∈ image) :
    ∃ i, r.instr? = some i ∧ i.wf = true := by simpa using h r hr

/-! ### Executing an instruction -/

/-- The opcodes whose flags are the logical family's (R107). -/
abbrev logicalOpcodes : List Opcode := [.and, .orr, .eor, .bic, .tst, .teq]

/-- What an instruction whose condition holds did to the state it completed in. -/
inductive Effect (i : Instr) (s : State) : State → Prop
  | arith (d n : Nat) (o : Operand2) (r : ArithResult) (hf : i.format = .dp3) (hr : i.record.regs = d :: n :: o.registers)
      (hi : i.record.imm = o.imm?) (hd : d < 16) (ho : i.record.opcode ∉ logicalOpcodes) :
      Effect i s (writeArith i.record.suffix d r (s.setSignal .sequential))
  | logic (d n : Nat) (o : Operand2) (r : Word) (hf : i.format = .dp3) (hr : i.record.regs = d :: n :: o.registers)
      (hi : i.record.imm = o.imm?) (hd : d < 16) :
      Effect i s (writeLogic i.record.suffix d r (s.setSignal .sequential))
  | compareArith (r : ArithResult) (hf : i.format = .cmp2) (ho : i.record.opcode ∉ logicalOpcodes) :
      Effect i s ((s.setSignal .sequential).setArithFlags r)
  | compareLogic (r : Word) (hf : i.format = .cmp2) : Effect i s ((s.setSignal .sequential).setLogicFlags r)
  | load (t n : Nat) (v : Word) (hf : i.format = .ls) (ho : i.record.opcode = .ldr) (hr : i.record.regs = [t, n])
      (ht : t < 16) : Effect i s ((s.setSignal .sequential).writeReg t v)
  | store (t n : Nat) (v : Word) (hf : i.format = .ls) (ho : i.record.opcode = .str) (hr : i.record.regs = [t, n])
      (ha : expectedCell s n i.record.imm < s.params.memSize) :
      Effect i s ((s.setSignal .sequential).writeCell (effectiveAddress s n (i.record.imm.getD 0#32)) v)
  | loadDouble (t t2 n : Nat) (v w : Word) (hf : i.format = .lsd) (ho : i.record.opcode = .ldr)
      (hr : i.record.regs = [t, t2, n]) (hp : validPair t t2) :
      Effect i s (((s.setSignal .sequential).writeReg t v).writeReg t2 w)
  | storeDouble (t t2 n : Nat) (v w : Word) (hf : i.format = .lsd) (ho : i.record.opcode = .str)
      (hr : i.record.regs = [t, t2, n]) (ha : expectedCell s n i.record.imm < s.params.memSize)
      (ha2 : (expectedCell s n i.record.imm + 1) % 2 ^ 32 < s.params.memSize) :
      Effect i s (((s.setSignal .sequential).writeCell (effectiveAddress s n (i.record.imm.getD 0#32)) v).writeCell
        (effectiveAddress s n (i.record.imm.getD 0#32) + 1#32) w)
  | loadMultiple (n : Nat) (list : List Nat) (vs : List Word) (hf : i.format = .lsm) (ho : i.record.opcode = .ldm)
      (hr : i.record.regs = n :: list) (hl : ∀ k ∈ list, k < 16) (hv : vs.length = list.length) :
      Effect i s ((s.setSignal .sequential).writeRegs (list.zip vs))
  | storeMultiple (n : Nat) (list : List Nat) (vs : List Word) (hf : i.format = .lsm) (ho : i.record.opcode = .stm)
      (hr : i.record.regs = n :: list) (ha : ∀ a ∈ transferCells s i, a < s.params.memSize) :
      Effect i s ((s.setSignal .sequential).writeCells
        ((blockAddresses i.record.mode (s.reg n) list.length).zip vs))
  | branch (v : Word) (hf : i.format = .br) (ho : i.record.opcode = .b) :
      Effect i s ((s.setSignal .sequential).writeReg 15 v)
  | branchLink (v w : Word) (hf : i.format = .br) (ho : i.record.opcode = .bl) :
      Effect i s (((s.setSignal .sequential).writeReg 14 v).writeReg 15 w)
  | halt (hf : i.format = .sys) (ho : i.record.opcode = .swi) :
      Effect i s ((s.setSignal .sequential).setSignal .halt)

/-- A next state is that of a failed condition, or of an effect. -/
abbrev Outcomes (i : Instr) (c : Cond) (s t : State) : Prop :=
  (s.meets c = false ∧ t = s.setSignal .sequential) ∨ (s.meets c = true ∧ Effect i s t)

section Families

variable {i : Instr} {c : Cond} {rs : List Nat} {im : Option Word} {s t : State}

theorem outcomes_arith {x : Suffix} {f : State → Word → Word → ArithResult}
    (h : dp3 c rs im s (fun d a b s => writeArith x d (f s a b) s) = .next t) (hf : i.format = .dp3)
    (hx : i.record.suffix = x) (hr : i.record.regs = rs) (hi : i.record.imm = im)
    (ho : i.record.opcode ∉ logicalOpcodes) : Outcomes i c s t := by
  rcases dp3_cases h with h | ⟨hc, o, h1, h2, rfl⟩
  · exact .inl h
  · obtain ⟨h3, h4⟩ := dp3Operands_eq_some h1
    subst hx
    exact .inr ⟨hc, .arith _ o.n o.op2 _ hf (hr.trans h3) (hi.trans h4) (h2 _ (by simp)) ho⟩

theorem outcomes_logic {x : Suffix} {f : Word → Word → Word}
    (h : dp3 c rs im s (fun d a b s => writeLogic x d (f a b) s) = .next t) (hf : i.format = .dp3)
    (hx : i.record.suffix = x) (hr : i.record.regs = rs) (hi : i.record.imm = im) : Outcomes i c s t := by
  rcases dp3_cases h with h | ⟨hc, o, h1, h2, rfl⟩
  · exact .inl h
  · obtain ⟨h3, h4⟩ := dp3Operands_eq_some h1
    subst hx
    exact .inr ⟨hc, .logic _ o.n o.op2 _ hf (hr.trans h3) (hi.trans h4) (h2 _ (by simp))⟩

theorem outcomes_compareArith {f : State → Word → Word → ArithResult}
    (h : cmp2 c rs im s (fun a b s => s.setArithFlags (f s a b)) = .next t) (hf : i.format = .cmp2)
    (ho : i.record.opcode ∉ logicalOpcodes) : Outcomes i c s t := by
  rcases cmp2_cases h with h | ⟨hc, o, -, -, rfl⟩
  · exact .inl h
  · exact .inr ⟨hc, .compareArith _ hf ho⟩

theorem outcomes_compareLogic {f : Word → Word → Word}
    (h : cmp2 c rs im s (fun a b s => s.setLogicFlags (f a b)) = .next t) (hf : i.format = .cmp2) :
    Outcomes i c s t := by
  rcases cmp2_cases h with h | ⟨hc, o, -, -, rfl⟩
  · exact .inl h
  · exact .inr ⟨hc, .compareLogic _ hf⟩

theorem outcomes_load {f : Word → Word} (h : loadCell c rs im s f = .next t) (hf : i.format = .ls)
    (ho : i.record.opcode = .ldr) (hr : i.record.regs = rs) : Outcomes i c s t := by
  rcases loadCell_cases h with h | ⟨hc, o, h1, h2, -, rfl⟩
  · exact .inl h
  · exact .inr ⟨hc, .load _ o.n _ hf ho (hr.trans (lsOperands_eq_some h1).1) (h2 _ (by simp))⟩

theorem outcomes_store {f : Word → Word → Word} (h : storeCell c rs im s f = .next t) (hf : i.format = .ls)
    (ho : i.record.opcode = .str) (hr : i.record.regs = rs) (hi : i.record.imm = im) : Outcomes i c s t := by
  rcases storeCell_cases h with h | ⟨hc, o, h1, -, h3, rfl⟩
  · exact .inl h
  · subst hi
    rw [(lsOperands_eq_some h1).2] at h3 ⊢
    exact .inr ⟨hc, .store o.t o.n _ hf ho (hr.trans (lsOperands_eq_some h1).1)
      (by rw [← effectiveAddress_cell]; exact h3)⟩

theorem outcomes_loadDouble
    (h : doubleword c rs im s (fun o a a2 s => (s.writeReg o.t (s.cell a)).writeReg o.t2 (s.cell a2)) = .next t)
    (hf : i.format = .lsd) (ho : i.record.opcode = .ldr) (hr : i.record.regs = rs) : Outcomes i c s t := by
  rcases doubleword_cases h with h | ⟨hc, o, h1, h2, -, -, -, rfl⟩
  · exact .inl h
  · exact .inr ⟨hc, .loadDouble _ _ o.n _ _ hf ho (hr.trans (lsdOperands_eq_some h1).1) h2⟩

theorem outcomes_storeDouble
    (h : doubleword c rs im s (fun o a a2 s => (s.writeCell a (s.reg o.t)).writeCell a2 (s.reg o.t2)) = .next t)
    (hf : i.format = .lsd) (ho : i.record.opcode = .str) (hr : i.record.regs = rs) (hi : i.record.imm = im) :
    Outcomes i c s t := by
  rcases doubleword_cases h with h | ⟨hc, o, h1, -, -, h4, h5, rfl⟩
  · exact .inl h
  · subst hi
    rw [(lsdOperands_eq_some h1).2] at h4 h5 ⊢
    exact .inr ⟨hc, .storeDouble o.t o.t2 o.n _ _ hf ho (hr.trans (lsdOperands_eq_some h1).1)
      (by rw [← effectiveAddress_cell]; exact h4) (by rw [← effectiveAddress_next_cell]; exact h5)⟩

theorem outcomes_loadMultiple {mode : UpdateMode} (h : loadMultiple mode c rs im s = .next t) (hf : i.format = .lsm)
    (ho : i.record.opcode = .ldm) (hr : i.record.regs = rs) : Outcomes i c s t := by
  rcases multiple_cases h with h | ⟨hc, o, h1, h2, -, rfl⟩
  · exact .inl h
  · exact .inr ⟨hc, .loadMultiple o.n o.list _ hf ho (hr.trans (lsmOperands_eq_some h1).1)
      (fun k hk => h2 k (by simp [hk])) (by simp [blockAddresses])⟩

theorem outcomes_storeMultiple {mode : UpdateMode} (h : storeMultiple mode c rs im s = .next t) (hf : i.format = .lsm)
    (ho : i.record.opcode = .stm) (hr : i.record.regs = rs) (hm : i.record.mode = mode) : Outcomes i c s t := by
  rcases multiple_cases h with h | ⟨hc, o, h1, -, h3, rfl⟩
  · exact .inl h
  · subst hm
    refine .inr ⟨hc, .storeMultiple o.n o.list _ hf ho (hr.trans (lsmOperands_eq_some h1).1) ?_⟩
    rw [transferCells_multiple hf (hr.trans (lsmOperands_eq_some h1).1)]; simpa using h3

end Families

/-- What executing an instruction can do. -/
theorem exec_cases {i : Instr} {s t : State} (h : exec i s = .next t) : Outcomes i i.record.cond s t := by
  cases i with
  | add c m x rs im => exact outcomes_arith (f := fun _ a b => arithAdd a b false) h rfl rfl rfl rfl (by simp [Instr.record])
  | adc c m x rs im => exact outcomes_arith (f := fun s a b => arithAdd a b s.flagC) h rfl rfl rfl rfl (by simp [Instr.record])
  | sub c m x rs im => exact outcomes_arith (f := fun _ a b => arithSub a b false) h rfl rfl rfl rfl (by simp [Instr.record])
  | sbc c m x rs im => exact outcomes_arith (f := fun s a b => arithSub a b s.borrowIn) h rfl rfl rfl rfl (by simp [Instr.record])
  | rsb c m x rs im => exact outcomes_arith (f := fun _ a b => arithSub b a false) h rfl rfl rfl rfl (by simp [Instr.record])
  | rsc c m x rs im => exact outcomes_arith (f := fun s a b => arithSub b a s.borrowIn) h rfl rfl rfl rfl (by simp [Instr.record])
  | and c m x rs im => exact outcomes_logic (f := fun a b => a &&& b) h rfl rfl rfl rfl
  | orr c m x rs im => exact outcomes_logic (f := fun a b => a ||| b) h rfl rfl rfl rfl
  | eor c m x rs im => exact outcomes_logic (f := fun a b => a ^^^ b) h rfl rfl rfl rfl
  | bic c m x rs im => exact outcomes_logic (f := fun a b => a &&& ~~~b) h rfl rfl rfl rfl
  | cmn c m x rs im => exact outcomes_compareArith (f := fun _ a b => arithAdd a b false) h rfl (by simp [Instr.record])
  | cmp c m x rs im => exact outcomes_compareArith (f := fun _ a b => arithSub a b false) h rfl (by simp [Instr.record])
  | tst c m x rs im => exact outcomes_compareLogic (f := fun a b => a &&& b) h rfl
  | teq c m x rs im => exact outcomes_compareLogic (f := fun a b => a ^^^ b) h rfl
  | ldr c m f rs im => exact outcomes_load (f := id) h rfl rfl rfl
  | ldrb c m rs im => exact outcomes_load (f := zeroByte) h rfl rfl rfl
  | ldrh c m rs im => exact outcomes_load (f := zeroHalf) h rfl rfl rfl
  | ldrsb c m rs im => exact outcomes_load (f := signByte) h rfl rfl rfl
  | ldrsh c m rs im => exact outcomes_load (f := signHalf) h rfl rfl rfl
  | ldrd c m rs im => exact outcomes_loadDouble h rfl rfl rfl
  | str c m f rs im => exact outcomes_store (f := fun _ v => v) h rfl rfl rfl rfl
  | strb c m rs im => exact outcomes_store (f := placeByte s.params.narrowStore) h rfl rfl rfl rfl
  | strh c m rs im => exact outcomes_store (f := placeHalf s.params.narrowStore) h rfl rfl rfl rfl
  | strsb c m rs im => exact outcomes_store (f := placeByte s.params.narrowStore) h rfl rfl rfl rfl
  | strsh c m rs im => exact outcomes_store (f := placeHalf s.params.narrowStore) h rfl rfl rfl rfl
  | strd c m rs im => exact outcomes_storeDouble h rfl rfl rfl rfl
  | ldm c x rs im => exact outcomes_loadMultiple (mode := .none) h rfl rfl rfl
  | ldmia c x rs im => exact outcomes_loadMultiple (mode := .ia) h rfl rfl rfl
  | ldmib c x rs im => exact outcomes_loadMultiple (mode := .ib) h rfl rfl rfl
  | ldmda c x rs im => exact outcomes_loadMultiple (mode := .da) h rfl rfl rfl
  | ldmdb c x rs im => exact outcomes_loadMultiple (mode := .db) h rfl rfl rfl
  | stm c x rs im => exact outcomes_storeMultiple h rfl rfl rfl rfl
  | stmia c x rs im => exact outcomes_storeMultiple h rfl rfl rfl rfl
  | stmib c x rs im => exact outcomes_storeMultiple h rfl rfl rfl rfl
  | stmda c x rs im => exact outcomes_storeMultiple h rfl rfl rfl rfl
  | stmdb c x rs im => exact outcomes_storeMultiple h rfl rfl rfl rfl
  | b c m x rs im =>
    have h : gated c s (fun s => withOperands s (brOperand rs im) fun target =>
        .next (s.writeReg 15 (trunc32 target))) = .next t := h
    rcases gated_eq_next.1 h with h | ⟨hc, h⟩
    · exact .inl h
    · obtain ⟨o, ho, h⟩ := withOperands_eq_next.1 h
      cases h; exact .inr ⟨hc, .branch _ rfl rfl⟩
  | bl c m x rs im =>
    have h : gated c s (fun s => withOperands s (brOperand rs im) fun target =>
        .next ((s.writeReg 14 (s.pc + 1#32)).writeReg 15 (trunc32 target))) = .next t := h
    rcases gated_eq_next.1 h with h | ⟨hc, h⟩
    · exact .inl h
    · obtain ⟨o, ho, h⟩ := withOperands_eq_next.1 h
      cases h; exact .inr ⟨hc, .branchLink _ _ rfl rfl⟩
  | swi c m x rs im =>
    have h : gated c s (fun s => withOperands s (sysOperands rs im) fun _ => .next (s.setSignal .halt)) = .next t := h
    rcases gated_eq_next.1 h with h | ⟨hc, h⟩
    · exact .inl h
    · obtain ⟨o, ho, h⟩ := withOperands_eq_next.1 h
      cases h; exact .inr ⟨hc, .halt rfl rfl⟩

/-! ### One step of the loop -/

/-- What one step did. -/
inductive Stepped (s : State) : State → Prop
  | stays (h : s.status ≠ .running) : Stepped s s
  | completes (h : s.status = .running) (hf : s.fetch = none) : Stepped s { s with status := .completed }
  | exhausts (h : s.status = .running) (hb : s.budgetSpent = true) : Stepped s { s with status := .budgetExhausted }
  | faults (r : Record) (f : Fault) (h : s.status = .running) (hf : s.fetch = some r) (hb : s.budgetSpent = false)
      (he : execRecord r s.countFetch = .fault f) : Stepped s (s.countFetch.takeFault f)
  | runs (r : Record) (i : Instr) (t : State) (h : s.status = .running) (hf : s.fetch = some r)
      (hb : s.budgetSpent = false) (hi : r.instr? = some i) (he : exec i s.countFetch = .next t) :
      Stepped s (t.advance s.pc)
  | passesUnknown (r : Record) (h : s.status = .running) (hf : s.fetch = some r) (hb : s.budgetSpent = false)
      (hi : r.instr? = none) : Stepped s ((s.countFetch.setSignal .sequential).advance s.pc)

/-- What one step of the loop can do: a record of an unknown opcode completes only with its condition failed. -/
theorem step_cases {s t : State} (h : step s = .next t) : Stepped s t := by
  unfold step loopStep at h
  split at h
  · split at h
    · cases h; exact .completes ‹_› ‹_›
    · split at h
      · cases h; exact .exhausts ‹_› ‹_›
      · rename_i r hr hb
        have hb : s.budgetSpent = false := by simpa using hb
        unfold settle at h
        split at h
        · rename_i u hu
          cases h
          unfold execRecord at hu
          split at hu
          · exact .runs r _ u ‹_› hr hb ‹_› hu
          · rcases gated_eq_next.1 hu with ⟨_, rfl⟩ | ⟨_, h⟩
            · exact .passesUnknown r ‹_› hr hb ‹_›
            · cases h
        · cases h; exact .faults r _ ‹_› hr hb ‹_›
        · cases h
  · cases h; exact .stays ‹_›

end Sys2Proof.Laws
end

