-- ==== Sys2Proof/Laws/Flags.lean ====
section
/-! SUPPORT. The flags after a flag update: each reads as written, and every other bit of SR stays. -/

namespace Sys2Proof.Laws

open Sys2Proof.Machine

/-- One bit replaced, every other kept. -/
theorem setBit_getLsbD (w : Word) (p : Fin 32) (b : Bool) (k : Nat) :
    (setBit w p b).getLsbD k = if k = p then b else w.getLsbD k := by
  have hone : ∀ j : Nat, (1#32 <<< p.val).getLsbD j = decide (j = p.val) := by
    intro j
    have := p.isLt
    by_cases hj : j < 32
    · simp only [BitVec.getLsbD_shiftLeft, BitVec.getLsbD_one, hj]
      by_cases h : j = p.val
      · simp [h]
      · have : (j < p.val) ∨ ¬ (j - p.val = 0) := by omega
        rcases this with h' | h' <;> simp [h, h']
    · rw [BitVec.getLsbD_of_ge _ _ (by omega)]; simp; omega
  have hor : (w ||| 1#32 <<< p.val).getLsbD k = (w.getLsbD k || decide (k = p.val)) := by
    rw [BitVec.getLsbD_or, hone]
  have hand : (w &&& ~~~(1#32 <<< p.val)).getLsbD k = (w.getLsbD k && !decide (k = p.val)) := by
    rw [BitVec.getLsbD_and, BitVec.getLsbD_not, hone]
    by_cases h32 : k < 32
    · rw [decide_eq_true h32, Bool.true_and]
    · rw [BitVec.getLsbD_of_ge w k (by omega)]; rfl
  unfold setBit
  cases b
  · rw [if_neg (by decide), hand]; by_cases hk : k = p.val <;> simp only [hk] <;> simp
  · rw [if_pos rfl, hor]; by_cases hk : k = p.val <;> simp only [hk] <;> simp

variable (s : State) (n z c v : Bool)

/-- A bit of SR after the four flags are written. -/
theorem withFlags_sr_bit (k : Nat) :
    (s.withFlags n z c v).sr.getLsbD k =
      if k = s.params.flagPos.v then v else if k = s.params.flagPos.c then c
      else if k = s.params.flagPos.z then z else if k = s.params.flagPos.n then n else s.sr.getLsbD k := by
  simp only [State.withFlags, setBit_getLsbD]

theorem withFlags_flagV : (s.withFlags n z c v).flagV = v := by
  simp only [State.flagV, withFlags_params, withFlags_sr_bit, if_true]

theorem withFlags_flagC (h : s.params.flagPos.wf) : (s.withFlags n z c v).flagC = c := by
  have := Fin.val_ne_of_ne h.2.2.2.2.2
  simp only [State.flagC, withFlags_params, withFlags_sr_bit, this, if_true, if_false]

theorem withFlags_flagZ (h : s.params.flagPos.wf) : (s.withFlags n z c v).flagZ = z := by
  have h1 := Fin.val_ne_of_ne h.2.2.2.1
  have h2 := Fin.val_ne_of_ne h.2.2.2.2.1
  simp only [State.flagZ, withFlags_params, withFlags_sr_bit, h1, h2, if_true, if_false]

theorem withFlags_flagN (h : s.params.flagPos.wf) : (s.withFlags n z c v).flagN = n := by
  have h1 := Fin.val_ne_of_ne h.1
  have h2 := Fin.val_ne_of_ne h.2.1
  have h3 := Fin.val_ne_of_ne h.2.2.1
  simp only [State.flagN, withFlags_params, withFlags_sr_bit, h1, h2, h3, if_true, if_false]

/-- A flag update keeps every bit that holds no flag (R26). -/
theorem withFlags_other_bit {k : Nat} (h : k ≠ s.params.flagPos.n ∧ k ≠ s.params.flagPos.z ∧ k ≠ s.params.flagPos.c ∧
    k ≠ s.params.flagPos.v) : (s.withFlags n z c v).sr.getLsbD k = s.sr.getLsbD k := by
  simp only [withFlags_sr_bit, h, if_false]

end Sys2Proof.Laws
end

