-- ==== Sys2Proof/Laws/Memory.lean ====
section
/-! SUPPORT. Memory: read after write, and the canonical form is kept by every operation. -/

namespace Sys2Proof.Laws

open Sys2Proof.Machine

theorem read_erase_same (m : Memory) (a : Nat) : Memory.read (Memory.erase m a) a = initCell := by
  induction m with
  | nil => rfl
  | cons e m ih =>
    by_cases h : e.1 = a
    · simpa [Memory.erase, h] using ih
    · have : Memory.erase (e :: m) a = e :: Memory.erase m a := by simp [Memory.erase, h]
      rw [this]; obtain ⟨k, v⟩ := e
      simp only [Memory.read]; rw [if_neg (fun h' => h h'.symm)]; exact ih

theorem read_erase_other (m : Memory) {a b : Nat} (h : b ≠ a) :
    Memory.read (Memory.erase m a) b = Memory.read m b := by
  induction m with
  | nil => rfl
  | cons e m ih =>
    obtain ⟨k, v⟩ := e
    by_cases hk : k = a
    · have : Memory.erase ((k, v) :: m) a = Memory.erase m a := by simp [Memory.erase, hk]
      rw [this, ih]; simp only [Memory.read]; rw [if_neg (by omega)]
    · have : Memory.erase ((k, v) :: m) a = (k, v) :: Memory.erase m a := by simp [Memory.erase, hk]
      rw [this]; simp only [Memory.read, ih]

theorem read_insert_same (m : Memory) (a : Nat) (v : Word) (h : ∀ e ∈ m, e.1 ≠ a) :
    Memory.read (Memory.insert a v m) a = v := by
  induction m with
  | nil => simp [Memory.insert, Memory.read]
  | cons e m ih =>
    obtain ⟨k, w⟩ := e
    simp only [Memory.insert]
    split
    · simp [Memory.read]
    · have hk : k ≠ a := h (k, w) (by simp)
      simp only [Memory.read]; rw [if_neg (by omega)]
      exact ih fun e he => h e (by simp [he])

theorem read_insert_other (m : Memory) {a b : Nat} (v : Word) (h : b ≠ a) :
    Memory.read (Memory.insert a v m) b = Memory.read m b := by
  induction m with
  | nil => simp [Memory.insert, Memory.read, h]
  | cons e m ih =>
    obtain ⟨k, w⟩ := e
    simp only [Memory.insert]
    split
    · simp [Memory.read, h]
    · simp only [Memory.read, ih]

theorem erase_index_ne (m : Memory) (a : Nat) : ∀ e ∈ Memory.erase m a, e.1 ≠ a := by
  intro e he; simpa using (List.mem_filter.1 he).2

/-- A cell reads what was last written to it. -/
@[simp] theorem read_write_same (m : Memory) (a : Nat) (v : Word) : Memory.read (Memory.write m a v) a = v := by
  unfold Memory.write
  split
  · rename_i h; rw [read_erase_same, h]
  · exact read_insert_same _ _ _ (erase_index_ne m a)

/-- A write leaves every other cell alone. -/
theorem read_write_other (m : Memory) {a b : Nat} (v : Word) (h : b ≠ a) :
    Memory.read (Memory.write m a v) b = Memory.read m b := by
  unfold Memory.write
  split
  · exact read_erase_other m h
  · rw [read_insert_other _ v h, read_erase_other m h]

theorem mem_insert {m : Memory} {a : Nat} {v : Word} {e : Nat × Word} :
    e ∈ Memory.insert a v m ↔ e = (a, v) ∨ e ∈ m := by
  induction m with
  | nil => simp [Memory.insert]
  | cons d m ih =>
    simp only [Memory.insert]
    split
    · simp
    · simp only [List.mem_cons, ih]; tauto

theorem insert_rising {m : Memory} {a : Nat} {v : Word} (h : m.Pairwise fun x y => x.1 < y.1)
    (ha : ∀ e ∈ m, e.1 ≠ a) : (Memory.insert a v m).Pairwise fun x y => x.1 < y.1 := by
  induction m with
  | nil => simp [Memory.insert]
  | cons d m ih =>
    rw [List.pairwise_cons] at h
    have hd : d.1 ≠ a := ha d (by simp)
    obtain ⟨k, w⟩ := d
    simp only [Memory.insert]
    split
    · rename_i hlt
      refine List.pairwise_cons.2 ⟨fun e he => ?_, List.pairwise_cons.2 h⟩
      rcases List.mem_cons.1 he with rfl | he
      · exact hlt
      · have := h.1 e he; simp only at this ⊢; omega
    · rename_i hlt
      refine List.pairwise_cons.2 ⟨fun e he => ?_, ih h.2 fun e he => ha e (by simp [he])⟩
      rcases mem_insert.1 he with rfl | he
      · simp only at hd ⊢; omega
      · exact h.1 e he

/-- Every write keeps the canonical form. -/
theorem write_wf {m : Memory} (h : Memory.wf m) (a : Nat) (v : Word) : Memory.wf (Memory.write m a v) := by
  have herase : Memory.wf (Memory.erase m a) :=
    ⟨h.1.filter _, fun e he => h.2 e (List.mem_filter.1 he).1⟩
  unfold Memory.write
  split
  · exact herase
  · rename_i hv
    refine ⟨insert_rising herase.1 (erase_index_ne m a), fun e he => ?_⟩
    rcases mem_insert.1 he with rfl | he
    · exact hv
    · exact herase.2 e he

/-- Every entry after a write is the one written or an old one. -/
theorem mem_write {m : Memory} {a : Nat} {v : Word} {e : Nat × Word} (h : e ∈ Memory.write m a v) :
    e = (a, v) ∨ e ∈ m := by
  unfold Memory.write at h
  split at h
  · exact .inr (List.mem_filter.1 h).1
  · rcases mem_insert.1 h with h | h
    · exact .inl h
    · exact .inr (List.mem_filter.1 h).1

/-- Repeated writes keep the canonical form. -/
theorem writeCells_wf (s : State) (l : List (Word × Word)) (h : Memory.wf s.mem) : Memory.wf (s.writeCells l).mem := by
  induction l generalizing s with
  | nil => exact h
  | cons e l ih => exact ih (s.writeCell e.1 e.2) (write_wf h _ _)

/-- Every entry after repeated writes is at an address written or is an old one. -/
theorem mem_writeCells {s : State} {l : List (Word × Word)} {e : Nat × Word} (h : e ∈ (s.writeCells l).mem) :
    (∃ w ∈ l, e.1 = uint w.1) ∨ e ∈ s.mem := by
  induction l generalizing s with
  | nil => exact .inr h
  | cons d l ih =>
    rcases ih h with ⟨w, hw, he⟩ | h
    · exact .inl ⟨w, by simp [hw], he⟩
    · rcases mem_write h with rfl | h
      · exact .inl ⟨d, by simp, rfl⟩
      · exact .inr h

/-- Repeated writes leave every other cell alone. -/
theorem read_writeCells_other (s : State) (l : List (Word × Word)) {a : Nat} (h : ∀ w ∈ l, a ≠ uint w.1) :
    Memory.read (s.writeCells l).mem a = Memory.read s.mem a := by
  induction l generalizing s with
  | nil => rfl
  | cons d l ih =>
    rw [State.writeCells, ih (s.writeCell d.1 d.2) fun w hw => h w (by simp [hw])]
    exact read_write_other _ _ (h d (by simp))

end Sys2Proof.Laws
end

