-- ==== Sys2Proof/Laws/PerInstr.lean ====
section
/-! SUPPORT. Statements made per instruction: the decoded record of an instruction selects the row it came from (spec rule
R96). -/

namespace Sys2Proof.Laws

/-- The record of an instruction selects that instruction. -/
def RecordRoundTrip.Statement (i : Instr) : Prop := i.record.instr? = some i

theorem RecordRoundTrip.add (c : Cond) (m : UpdateMode) (x : Suffix) (rs : List Nat) (im : Option Word) :
    RecordRoundTrip.Statement (.add c m x rs im) := rfl

theorem RecordRoundTrip.adc (c : Cond) (m : UpdateMode) (x : Suffix) (rs : List Nat) (im : Option Word) :
    RecordRoundTrip.Statement (.adc c m x rs im) := rfl

theorem RecordRoundTrip.sub (c : Cond) (m : UpdateMode) (x : Suffix) (rs : List Nat) (im : Option Word) :
    RecordRoundTrip.Statement (.sub c m x rs im) := rfl

theorem RecordRoundTrip.sbc (c : Cond) (m : UpdateMode) (x : Suffix) (rs : List Nat) (im : Option Word) :
    RecordRoundTrip.Statement (.sbc c m x rs im) := rfl

theorem RecordRoundTrip.rsb (c : Cond) (m : UpdateMode) (x : Suffix) (rs : List Nat) (im : Option Word) :
    RecordRoundTrip.Statement (.rsb c m x rs im) := rfl

theorem RecordRoundTrip.rsc (c : Cond) (m : UpdateMode) (x : Suffix) (rs : List Nat) (im : Option Word) :
    RecordRoundTrip.Statement (.rsc c m x rs im) := rfl

theorem RecordRoundTrip.and (c : Cond) (m : UpdateMode) (x : Suffix) (rs : List Nat) (im : Option Word) :
    RecordRoundTrip.Statement (.and c m x rs im) := rfl

theorem RecordRoundTrip.orr (c : Cond) (m : UpdateMode) (x : Suffix) (rs : List Nat) (im : Option Word) :
    RecordRoundTrip.Statement (.orr c m x rs im) := rfl

theorem RecordRoundTrip.eor (c : Cond) (m : UpdateMode) (x : Suffix) (rs : List Nat) (im : Option Word) :
    RecordRoundTrip.Statement (.eor c m x rs im) := rfl

theorem RecordRoundTrip.bic (c : Cond) (m : UpdateMode) (x : Suffix) (rs : List Nat) (im : Option Word) :
    RecordRoundTrip.Statement (.bic c m x rs im) := rfl

theorem RecordRoundTrip.cmn (c : Cond) (m : UpdateMode) (x : Suffix) (rs : List Nat) (im : Option Word) :
    RecordRoundTrip.Statement (.cmn c m x rs im) := rfl

theorem RecordRoundTrip.cmp (c : Cond) (m : UpdateMode) (x : Suffix) (rs : List Nat) (im : Option Word) :
    RecordRoundTrip.Statement (.cmp c m x rs im) := rfl

theorem RecordRoundTrip.tst (c : Cond) (m : UpdateMode) (x : Suffix) (rs : List Nat) (im : Option Word) :
    RecordRoundTrip.Statement (.tst c m x rs im) := rfl

theorem RecordRoundTrip.teq (c : Cond) (m : UpdateMode) (x : Suffix) (rs : List Nat) (im : Option Word) :
    RecordRoundTrip.Statement (.teq c m x rs im) := rfl

theorem RecordRoundTrip.ldr (c : Cond) (m : UpdateMode) (f : Bool) (rs : List Nat) (im : Option Word) :
    RecordRoundTrip.Statement (.ldr c m f rs im) := by
  cases f <;> rfl

theorem RecordRoundTrip.ldrb (c : Cond) (m : UpdateMode) (rs : List Nat) (im : Option Word) :
    RecordRoundTrip.Statement (.ldrb c m rs im) := rfl

theorem RecordRoundTrip.ldrh (c : Cond) (m : UpdateMode) (rs : List Nat) (im : Option Word) :
    RecordRoundTrip.Statement (.ldrh c m rs im) := rfl

theorem RecordRoundTrip.ldrsb (c : Cond) (m : UpdateMode) (rs : List Nat) (im : Option Word) :
    RecordRoundTrip.Statement (.ldrsb c m rs im) := rfl

theorem RecordRoundTrip.ldrsh (c : Cond) (m : UpdateMode) (rs : List Nat) (im : Option Word) :
    RecordRoundTrip.Statement (.ldrsh c m rs im) := rfl

theorem RecordRoundTrip.ldrd (c : Cond) (m : UpdateMode) (rs : List Nat) (im : Option Word) :
    RecordRoundTrip.Statement (.ldrd c m rs im) := rfl

theorem RecordRoundTrip.str (c : Cond) (m : UpdateMode) (f : Bool) (rs : List Nat) (im : Option Word) :
    RecordRoundTrip.Statement (.str c m f rs im) := by
  cases f <;> rfl

theorem RecordRoundTrip.strb (c : Cond) (m : UpdateMode) (rs : List Nat) (im : Option Word) :
    RecordRoundTrip.Statement (.strb c m rs im) := rfl

theorem RecordRoundTrip.strh (c : Cond) (m : UpdateMode) (rs : List Nat) (im : Option Word) :
    RecordRoundTrip.Statement (.strh c m rs im) := rfl

theorem RecordRoundTrip.strsb (c : Cond) (m : UpdateMode) (rs : List Nat) (im : Option Word) :
    RecordRoundTrip.Statement (.strsb c m rs im) := rfl

theorem RecordRoundTrip.strsh (c : Cond) (m : UpdateMode) (rs : List Nat) (im : Option Word) :
    RecordRoundTrip.Statement (.strsh c m rs im) := rfl

theorem RecordRoundTrip.strd (c : Cond) (m : UpdateMode) (rs : List Nat) (im : Option Word) :
    RecordRoundTrip.Statement (.strd c m rs im) := rfl

theorem RecordRoundTrip.ldm (c : Cond) (x : Suffix) (rs : List Nat) (im : Option Word) :
    RecordRoundTrip.Statement (.ldm c x rs im) := rfl

theorem RecordRoundTrip.ldmia (c : Cond) (x : Suffix) (rs : List Nat) (im : Option Word) :
    RecordRoundTrip.Statement (.ldmia c x rs im) := rfl

theorem RecordRoundTrip.ldmib (c : Cond) (x : Suffix) (rs : List Nat) (im : Option Word) :
    RecordRoundTrip.Statement (.ldmib c x rs im) := rfl

theorem RecordRoundTrip.ldmda (c : Cond) (x : Suffix) (rs : List Nat) (im : Option Word) :
    RecordRoundTrip.Statement (.ldmda c x rs im) := rfl

theorem RecordRoundTrip.ldmdb (c : Cond) (x : Suffix) (rs : List Nat) (im : Option Word) :
    RecordRoundTrip.Statement (.ldmdb c x rs im) := rfl

theorem RecordRoundTrip.stm (c : Cond) (x : Suffix) (rs : List Nat) (im : Option Word) :
    RecordRoundTrip.Statement (.stm c x rs im) := rfl

theorem RecordRoundTrip.stmia (c : Cond) (x : Suffix) (rs : List Nat) (im : Option Word) :
    RecordRoundTrip.Statement (.stmia c x rs im) := rfl

theorem RecordRoundTrip.stmib (c : Cond) (x : Suffix) (rs : List Nat) (im : Option Word) :
    RecordRoundTrip.Statement (.stmib c x rs im) := rfl

theorem RecordRoundTrip.stmda (c : Cond) (x : Suffix) (rs : List Nat) (im : Option Word) :
    RecordRoundTrip.Statement (.stmda c x rs im) := rfl

theorem RecordRoundTrip.stmdb (c : Cond) (x : Suffix) (rs : List Nat) (im : Option Word) :
    RecordRoundTrip.Statement (.stmdb c x rs im) := rfl

theorem RecordRoundTrip.b (c : Cond) (m : UpdateMode) (x : Suffix) (rs : List Nat) (im : Option Word) :
    RecordRoundTrip.Statement (.b c m x rs im) := rfl

theorem RecordRoundTrip.bl (c : Cond) (m : UpdateMode) (x : Suffix) (rs : List Nat) (im : Option Word) :
    RecordRoundTrip.Statement (.bl c m x rs im) := rfl

theorem RecordRoundTrip.swi (c : Cond) (m : UpdateMode) (x : Suffix) (rs : List Nat) (im : Option Word) :
    RecordRoundTrip.Statement (.swi c m x rs im) := rfl

end Sys2Proof.Laws
end

