-- ==== Sys2Proof/Tests/Slice0.lean ====
section
/-! SUPPORT. The model's own tests. Expected results are the spec's: the examples and corner cases of spec/40 to spec/45, the
tables of spec/30 and the vectors of spec/95. Then, for each statement with hypotheses, a state and operands that meet them. -/

namespace Sys2Proof.Tests

open Sys2Proof Sys2Proof.Machine

/-! ### Helpers -/

/-- A text, `<` and `>` standing for the braces of a register list. -/
def braced (t : String) : Text :=
  t.toList.map fun c => if c = '<' then Char.ofNat 123 else if c = '>' then Char.ofNat 125 else c

/-- The instruction of a statement text, with whatever label lines follow it. -/
def decoded (t : String) : Option Instr := (decodeOne .saturate (braced t)).bind Record.instr?

/-- A running machine of 32 cells with these registers, cells and SR, and everything else as at reset. -/
def machine (regs : List (Nat × Word)) (mem : Memory) (sr : Word) : State :=
  { State.reset with
    regs := regs.foldl (fun v e => v.setIfInBounds e.1 e.2) (Vector.replicate 16 0#32)
    mem := mem
    sr := sr
    params := { memSize := 32 }
    status := .running }

/-- The next state of an outcome. -/
def nextOf : Out → Option State
  | .next t => some t
  | _ => none

/-- The fault of an outcome. -/
def faultOf : Out → Option Fault
  | .fault f => some f
  | _ => none

/-- The state after the instruction of a text. -/
def ran (t : String) (s : State) : Option State := (decoded t).bind fun i => nextOf (exec i s)

/-- The fault of the instruction of a text. -/
def fails (t : String) (s : State) : Option Fault := (decoded t).bind fun i => faultOf (exec i s)

/-- N, Z, C and V of a state. -/
def flags (t : State) : Bool × Bool × Bool × Bool := (t.flagN, t.flagZ, t.flagC, t.flagV)

/-! ### Well-formedness: an ill-formed instruction for each check -/

theorem test_wf_accepts : Instr.wf (.add .eq .none .s [1, 2] (some 30#32)) = true := by decide

theorem test_wf_refuses_shape :
    Instr.wf (.add .eq .none .s [1] (some 30#32)) = false ∧ Instr.wf (.sub .none .none .none [1, 2] none) = false ∧
    Instr.wf (.cmp .none .none .none [] (some 0#32)) = false ∧ Instr.wf (.ldr .none .none false [0] none) = false ∧
    Instr.wf (.strd .none .none [0, 1] none) = false ∧ Instr.wf (.ldm .none .none [] none) = false ∧
    Instr.wf (.stm .none .none [0, 1] (some 1#32)) = false ∧ Instr.wf (.b .none .none .none [] none) = false ∧
    Instr.wf (.swi .none .none .none [1] none) = false := by decide

theorem test_wf_refuses_unmapped_condition : Instr.wf (.swi (.unmapped 16) .none .none [] none) = false := by decide

theorem test_wf_refuses_b_spelled_bl :
    Instr.wf (.b .ls .none .none [3] none) = false ∧ Instr.wf (.b .lt .none .none [3] none) = false ∧
    Instr.wf (.b .le .none .none [3] none) = false ∧ Instr.wf (.bl .le .none .none [3] none) = true := by decide

/-! ### Decoding: every constructor, from a text written out from the syntax of its rule -/

theorem test_decode_add_family :
    decoded "ADDEQS r1, r2, #30" = some (.add .eq .none .s [1, 2] (some 30#32)) ∧
    decoded "ADCNE r0, r1, r15" = some (.adc .ne .none .none [0, 1, 15] none) ∧
    decoded "CMNMI r1, #-10" = some (.cmn .mi .none .none [1] (some 0xFFFFFFF6#32)) := by decide

theorem test_decode_subtract_family :
    decoded "SUBPLS r13, r13, #0x10" = some (.sub .pl .none .s [13, 13] (some 16#32)) ∧
    decoded "SBCCS r0, r1, #3" = some (.sbc .cs .none .none [0, 1] (some 3#32)) ∧
    decoded "RSB r0, r1, #100" = some (.rsb .none .none .none [0, 1] (some 100#32)) ∧
    decoded "RSCCC r0, r1, r2 ; note" = some (.rsc .cc .none .none [0, 1, 2] none) ∧
    decoded "CMPVS r1, r07" = some (.cmp .vs .none .none [1, 7] none) := by decide

theorem test_decode_logical_family :
    decoded "AND r0, r1, #0xFFFFFFFF" = some (.and .none .none .none [0, 1] (some 0x7FFFFFFF#32)) ∧
    decoded "ORRVC r0, r1, #0" = some (.orr .vc .none .none [0, 1] (some 0#32)) ∧
    decoded "EORHIS r0, r0, r0" = some (.eor .hi .none .s [0, 0, 0] none) ∧
    decoded "BICCC r2, r3, #0x80000000" = some (.bic .cc .none .none [2, 3] (some 0x7FFFFFFF#32)) ∧
    decoded "TSTLS r1, #1" = some (.tst .ls .none .none [1] (some 1#32)) ∧
    decoded "TEQGES r4, r99" = some (.teq .ge .none .s [4, 99] none) := by decide

theorem test_decode_loads :
    decoded "LDR r0, [r1]" = some (.ldr .none .none false [0, 1] none) ∧
    decoded "LDRS r0, r1" = some (.ldr .none .none true [0, 1] none) ∧
    decoded "LDREQB r0, [r1, #1]" = some (.ldrb .eq .none [0, 1] (some 1#32)) ∧
    decoded "LDRLTH r2, [r3]" = some (.ldrh .lt .none [2, 3] none) ∧
    decoded "LDRSB r0, [r1]" = some (.ldrsb .none .none [0, 1] none) ∧
    decoded "LDRGTSH r0, [r1]" = some (.ldrsh .gt .none [0, 1] none) ∧
    decoded "LDRD r0, r1, [r2, #-1]" = some (.ldrd .none .none [0, 1, 2] (some 0xFFFFFFFF#32)) ∧
    decoded "LDRDA r0, [r1]" = some (.ldr .none .da false [0, 1] none) := by decide

theorem test_decode_stores :
    decoded "STR r0, [r1, #2]" = some (.str .none .none false [0, 1] (some 2#32)) ∧
    decoded "STRLEB r0, [r1]" = some (.strb .le .none [0, 1] none) ∧
    decoded "STRH r0, [r1]" = some (.strh .none .none [0, 1] none) ∧
    decoded "STRSB r0, [r1]" = some (.strsb .none .none [0, 1] none) ∧
    decoded "STRALSH r0, [r1]" = some (.strsh .al .none [0, 1] none) ∧
    decoded "STRD r4, r5, [r0]" = some (.strd .none .none [4, 5, 0] none) := by decide

/-- Brackets leave no trace (R73), so a post-indexed text is the offset form (the model's choice, log 24); a register offset
and a `!` are refused (R84). -/
theorem test_decode_indexed_forms :
    decodeLine .saturate " LDR r0, [r1], #4".toList = decodeLine .saturate " LDR r0, [r1, #4]".toList ∧
    decodeLine .saturate " LDR r0, [r1, r2]".toList = .refuse .operandShape ∧
    decodeLine .saturate " LDR r0, [r1, #4]!".toList = .refuse .badToken := by decide

/-- R63's two reasons; on a line that fits both, the first is the model's choice (log 25). -/
theorem test_label_line_reasons :
    decodeLine .saturate "1x".toList = .refuse .badLabel ∧ decodeLine .saturate "x y".toList = .refuse .labelTrailingText ∧
    decodeLine .saturate "1x y".toList = .refuse .badLabel := by decide

theorem test_decode_multiple :
    decoded "LDM r0, <r1, r2>" = some (.ldm .none .none [0, 1, 2] none) ∧
    decoded "LDMIA r0, <r5-r8>" = some (.ldmia .none .none [0, 5, 6, 7, 8] none) ∧
    decoded "LDMIB r0, r1, r2" = some (.ldmib .none .none [0, 1, 2] none) ∧
    decoded "LDMDAS r0, <r15>" = some (.ldmda .none .s [0, 15] none) ∧
    decoded "LDMEQDB r0" = some (.ldmdb .eq .none [0] none) ∧
    decoded "STM r0, <r1>" = some (.stm .none .none [0, 1] none) ∧
    decoded "STMIA r0, <r1, r2>" = some (.stmia .none .none [0, 1, 2] none) ∧
    decoded "STMNEIB r0, <r1-r1>" = some (.stmib .ne .none [0, 1] none) ∧
    decoded "STMDA r0, <r1>" = some (.stmda .none .none [0, 1] none) ∧
    decoded "STMDB r13, <r14, r0>" = some (.stmdb .none .none [13, 14, 0] none) := by decide

theorem test_decode_control :
    decoded "BEQ end\nend" = some (.b .eq .none .none [1] none) ∧
    decoded "BLS end\nend:" = some (.bl .none .none .s [1] none) ∧
    decoded "BLLT end\nend" = some (.bl .lt .none .none [1] none) ∧
    decoded "SWI;stop" = some (.swi .none .none .none [] none) := by decide

/-- The refused and skipped rows of R89. -/
theorem test_decode_greedy_refusals :
    decodeMnemonic "ADDSEQ".toList = .residual "EQ".toList ∧ decodeMnemonic "BLT".toList = .residual "T".toList ∧
    decodeMnemonic "BLE".toList = .residual "E".toList ∧ decodeMnemonic "BHS".toList = .residual "S".toList ∧
    decodeMnemonic "BX".toList = .residual "X".toList ∧ decodeMnemonic "BICC".toList = .residual "C".toList ∧
    decodeMnemonic "LDMFD".toList = .residual "FD".toList ∧ decodeMnemonic "MOV".toList = .unknown ∧
    decodeMnemonic "add".toList = .unknown := by decide

/-- Each refusal of R90 arises. -/
theorem test_decode_refusals :
    assemble .saturate "x y".toList = .refused ⟨.labelTrailingText, 1⟩ ∧
    assemble .saturate "r1".toList = .refused ⟨.badLabel, 1⟩ ∧
    assemble .saturate "a\na".toList = .refused ⟨.duplicateLabel, 2⟩ ∧
    assemble .saturate " ADD r0!, r1, r2".toList = .refused ⟨.badToken, 1⟩ ∧
    assemble .saturate " ADD r0, #1, #2".toList = .refused ⟨.twoImmediates, 1⟩ ∧
    assemble .saturate " ADD r0, lsl, r2".toList = .refused ⟨.labelNotTrailing, 1⟩ ∧
    assemble .saturate " LDM r0, r3-r1".toList = .refused ⟨.badRange, 1⟩ ∧
    assemble .saturate " ADD r0, r1, #9223372036854775808".toList = .refused ⟨.immRange, 1⟩ ∧
    assemble .saturate " SWI #0".toList = .refused ⟨.operandShape, 1⟩ ∧
    assemble .saturate " B nowhere".toList = .refused ⟨.unresolvedLabel "nowhere".toList, 1⟩ := by decide

/-- A skipped line is absent and on the diagnostic list; labels count the instructions emitted (R64, R78). -/
theorem test_assemble_program :
    assemble .saturate "; c\nloop:\n SUBS r0, r0, #1\n MOV r1, r2\n BNE loop\n B end\nend".toList =
      .program [⟨.sub, .none, .none, .s, [0, 0], some 1#32⟩, ⟨.b, .ne, .none, .none, [0], none⟩,
        ⟨.b, .none, .none, .none, [3], none⟩] [4] := by decide

/-- "SWI" packed with its first character in the low bits, decoded, and run as the next instruction after reset. -/
theorem test_packed_word :
    decodeTableWord 24 0x495753 = some (.swi .none .none .none [] none) ∧
    (nextOf (step (State.reset.withFetchWord 24 0x495753))).map (·.status) = some .halted := by decide

/-! ### Add and subtract families -/

theorem test_add : (ran "ADD r0, r1, r2" (machine [(1, 10#32), (2, 2#32)] [] 0#32)).map (fun t => (t.reg 0, t.sr)) =
    some (12#32, 0#32) := by decide

theorem test_adds_overflow :
    (ran "ADDS r0, r1, r2" (machine [(1, 0x80000000#32), (2, 0x80000000#32)] [] 0#32)).map
      (fun t => (t.reg 0, flags t)) = some (0#32, false, true, true, true) := by decide

theorem test_adc : (ran "ADC r0, r1, #2" (machine [(1, 1#32)] [] 0x20000000#32)).map (·.reg 0) = some 4#32 := by decide

theorem test_adcs_chains :
    (ran "ADCS r1, r1, #0" (machine [(1, 0xFFFFFFFF#32)] [] 0x20000000#32)).map (fun t => (t.reg 1, flags t)) =
      some (0#32, false, true, true, false) := by decide

theorem test_cmn : (ran "CMN r1, #-10" (machine [(1, 10#32)] [] 0#32)).map (fun t => (t.reg 1, flags t)) =
    some (10#32, false, true, true, false) := by decide

theorem test_subs : (ran "SUBS r0, r1, #5" (machine [(1, 3#32)] [] 0#32)).map (fun t => (t.reg 0, flags t)) =
    some (0xFFFFFFFE#32, true, false, false, false) := by decide

/-- The source's example as the spec corrects it (90_conflicts.md C2): N is bit 31 of the truncated result. -/
theorem test_subs_overflow :
    (ran "SUBS r0, r1, r2" (machine [(1, 0x80000001#32), (2, 0x7FFFFFFE#32)] [] 0#32)).map
      (fun t => (t.reg 0, flags t)) = some (3#32, false, false, true, true) := by decide

theorem test_sbc : (ran "SBC r0, r1, #3" (machine [(1, 10#32)] [] 0x20000000#32)).map (·.reg 0) = some 6#32 := by decide

theorem test_sbc_not_flag_c :
    (ran "SBC r0, r1, #3" { machine [(1, 10#32)] [] 0x20000000#32 with
      params := { memSize := 32, sbcBorrowIn := .notFlagC } }).map (·.reg 0) = some 7#32 := by decide

theorem test_rsb : (ran "RSB r0, r1, #100" (machine [(1, 7#32)] [] 0#32)).map (·.reg 0) = some 93#32 := by decide

theorem test_rsbs_negates_minimum :
    (ran "RSBS r0, r1, #0" (machine [(1, 0x80000000#32)] [] 0#32)).map (fun t => (t.reg 0, flags t)) =
      some (0x80000000#32, true, false, false, true) := by decide

theorem test_rsc : (ran "RSC r0, r1, #10" (machine [(1, 3#32)] [] 0x20000000#32)).map (·.reg 0) = some 6#32 := by decide

theorem test_cmp_keeps_reserved_bits :
    (ran "CMP r1, #5" (machine [(1, 5#32)] [] 0x90000001#32)).map (fun t => (t.reg 1, t.sr)) =
      some (5#32, 0x60000001#32) := by decide

/-! ### Logical family -/

theorem test_and : (ran "AND r0, r1, #0xFF" (machine [(1, 0xF0F0#32)] [] 0#32)).map (·.reg 0) = some 0xF0#32 := by decide

theorem test_orr : (ran "ORR r0, r1, #0x0F" (machine [(1, 0xF0#32)] [] 0#32)).map (·.reg 0) = some 0xFF#32 := by decide

theorem test_eors_keeps_c_and_v :
    (ran "EORS r0, r0, r0" (machine [(0, 7#32)] [] 0x30000000#32)).map (fun t => (t.reg 0, flags t)) =
      some (0#32, false, true, true, true) := by decide

theorem test_bic : (ran "BIC r0, r1, #0x0F" (machine [(1, 0xFF#32)] [] 0#32)).map (·.reg 0) = some 0xF0#32 := by decide

theorem test_tst_clears_c_and_v :
    (ran "TST r1, r2" { machine [(1, 0x80000000#32), (2, 0x80000000#32)] [] 0x30000000#32 with
      params := { memSize := 32, logicCV := .clear } }).map (fun t => (flags t, t.reg 1)) =
      some ((true, false, false, false), 0x80000000#32) := by decide

theorem test_teq : (ran "TEQ r1, r1" (machine [(1, 9#32)] [] 0#32)).map flags = some (false, true, false, false) := by decide

/-! ### Data transfer -/

theorem test_ldr : (ran "LDR r0, [r1]" (machine [(1, 4#32)] [(4, 0x12345678#32)] 0#32)).map (·.reg 0) =
    some 0x12345678#32 := by decide

theorem test_ldrb : (ran "LDRB r0, [r1]" (machine [(1, 4#32)] [(4, 0x12345680#32)] 0#32)).map (·.reg 0) =
    some 0x80#32 := by decide

theorem test_ldrh : (ran "LDRH r0, [r1]" (machine [(1, 4#32)] [(4, 0x1234F678#32)] 0#32)).map (·.reg 0) =
    some 0xF678#32 := by decide

theorem test_ldrsb : (ran "LDRSB r0, [r1]" (machine [(1, 4#32)] [(4, 0x12345680#32)] 0#32)).map (·.reg 0) =
    some 0xFFFFFF80#32 := by decide

theorem test_ldrsh : (ran "LDRSH r0, [r1]" (machine [(1, 4#32)] [(4, 0x1234F678#32)] 0#32)).map (·.reg 0) =
    some 0xFFFFF678#32 := by decide

theorem test_ldrd : (ran "LDRD r0, r1, [r2]" (machine [(2, 8#32)] [(8, 1#32), (9, 2#32)] 0#32)).map
    (fun t => (t.reg 0, t.reg 1)) = some (1#32, 2#32) := by decide

theorem test_ldrd_odd_pair_faults :
    fails "LDRD r1, r2, [r3]" (machine [(15, 6#32)] [] 0#32) = some (.regPair 6 1 2) := by decide

theorem test_str : (ran "STR r0, [r1, #2]" (machine [(0, 7#32), (1, 3#32)] [] 0#32)).map (·.mem) = some [(5, 7#32)] := by
  decide

theorem test_str_wraps_below_zero :
    (ran "STR r0, [r1, #-1]" (machine [(0, 7#32), (1, 4#32)] [] 0#32)).map (·.mem) = some [(3, 7#32)] ∧
    fails "STR r0, [r1, #-1]" (machine [(0, 7#32)] [] 0#32) = some (.memIndex 0 0xFFFFFFFF) := by decide

theorem test_strb_zero_fills :
    (ran "STRB r0, [r1]" (machine [(0, 0x1234#32), (1, 4#32)] [(4, 0xFFFFFFFF#32)] 0#32)).map (·.mem) =
      some [(4, 0x34#32)] := by decide

theorem test_strb_merges :
    (ran "STRB r0, [r1]" { machine [(0, 0x1234#32), (1, 4#32)] [(4, 0xFFFFFFFF#32)] 0#32 with
      params := { memSize := 32, narrowStore := .merge } }).map (·.mem) = some [(4, 0xFFFFFF34#32)] := by decide

theorem test_strh : (ran "STRH r0, [r1]" (machine [(0, 0x12345678#32), (1, 4#32)] [(4, 0xFFFFFFFF#32)] 0#32)).map
    (·.mem) = some [(4, 0x5678#32)] := by decide

theorem test_strsb : (ran "STRSB r0, [r1]" (machine [(0, 0xFF80#32), (1, 4#32)] [] 0#32)).map (·.mem) =
    some [(4, 0x80#32)] := by decide

theorem test_strsh_merges :
    (ran "STRSH r0, [r1]" { machine [(0, 0x1F678#32), (1, 4#32)] [(4, 0xAAAA0000#32)] 0#32 with
      params := { memSize := 32, narrowStore := .merge } }).map (·.mem) = some [(4, 0xAAAAF678#32)] := by decide

theorem test_strd : (ran "STRD r4, r5, [r0]" (machine [(4, 5#32), (5, 6#32), (0, 20#32)] [] 0#32)).map (·.mem) =
    some [(20, 5#32), (21, 6#32)] := by decide

/-- The second cell is out of range, so neither is written (R172). -/
theorem test_strd_second_cell_faults :
    fails "STRD r4, r5, [r0]" (machine [(0, 31#32)] [] 0#32) = some (.memIndex 0 32) := by decide

theorem test_ldmia : (ran "LDMIA r0, <r1-r3>" (machine [(0, 10#32)] [(10, 0xA#32), (11, 0xB#32), (12, 0xC#32)] 0#32)).map
    (fun t => (t.reg 1, t.reg 2, t.reg 3)) = some (0xA#32, 0xB#32, 0xC#32) := by decide

/-- No mode is IA, and the base in the list is loaded (R175, R183). -/
theorem test_ldm_loads_base : (ran "LDM r0, <r0, r1>" (machine [(0, 10#32)] [(10, 0xA#32), (11, 0xB#32)] 0#32)).map
    (fun t => (t.reg 0, t.reg 1)) = some (0xA#32, 0xB#32) := by decide

theorem test_ldmib : (ran "LDMIB r0, <r1-r3>" (machine [(0, 10#32)] [(11, 1#32), (12, 2#32), (13, 3#32)] 0#32)).map
    (fun t => (t.reg 1, t.reg 2, t.reg 3)) = some (1#32, 2#32, 3#32) := by decide

theorem test_ldmda : (ran "LDMDA r0, <r1-r3>" (machine [(0, 10#32)] [(8, 8#32), (9, 9#32), (10, 10#32)] 0#32)).map
    (fun t => (t.reg 1, t.reg 2, t.reg 3)) = some (10#32, 9#32, 8#32) := by decide

theorem test_ldmdb : (ran "LDMDB r0, <r1-r3>" (machine [(0, 10#32)] [(7, 7#32), (8, 8#32), (9, 9#32)] 0#32)).map
    (fun t => (t.reg 1, t.reg 2, t.reg 3)) = some (9#32, 8#32, 7#32) := by decide

theorem test_stm : (ran "STM r0, <r1, r2>" (machine [(0, 20#32), (1, 1#32), (2, 2#32)] [] 0#32)).map (·.mem) =
    some [(20, 1#32), (21, 2#32)] := by decide

theorem test_stmia : (ran "STMIA r0, <r1, r2>" (machine [(0, 20#32), (1, 1#32), (2, 2#32)] [] 0#32)).map (·.mem) =
    some [(20, 1#32), (21, 2#32)] := by decide

theorem test_stmib : (ran "STMIB r0, <r1, r2>" (machine [(0, 20#32), (1, 1#32), (2, 2#32)] [] 0#32)).map (·.mem) =
    some [(21, 1#32), (22, 2#32)] := by decide

theorem test_stmda : (ran "STMDA r0, <r1, r2>" (machine [(0, 20#32), (1, 1#32), (2, 2#32)] [] 0#32)).map (·.mem) =
    some [(19, 2#32), (20, 1#32)] := by decide

theorem test_stmdb : (ran "STMDB r0, <r1, r2>" (machine [(0, 20#32), (1, 1#32), (2, 2#32)] [] 0#32)).map (·.mem) =
    some [(18, 2#32), (19, 1#32)] := by decide

/-! ### Control transfer, the loop and faults -/

/-- `machine` with a program image. -/
def loaded (regs : List (Nat × Word)) (program : List Record) : State := { machine regs [] 0#32 with program := program }

theorem test_b_jumps :
    (nextOf (step (loaded [] [⟨.b, .none, .none, .none, [2], none⟩]))).map (fun t => (t.pc, t.executed, t.signal)) =
      some (2#32, 1, .sequential) := by decide

theorem test_b_not_taken_advances :
    (nextOf (step (loaded [] [⟨.b, .eq, .none, .none, [7], none⟩]))).map (·.pc) = some 1#32 := by decide

theorem test_bl_links :
    (ran "BL f\nf" (machine [(15, 3#32)] [] 0#32)).map (fun t => (t.reg 14, t.pc)) = some (4#32, 1#32) := by decide

theorem test_swi_keeps_pc :
    (nextOf (step (loaded [(15, 1#32)] [⟨.swi, .none, .none, .none, [], none⟩, ⟨.swi, .none, .none, .none, [], none⟩]))).map
      (fun t => (t.pc, t.status)) = some (1#32, .halted) := by decide

theorem test_orr_to_pc_branches :
    (nextOf (step (loaded [(14, 9#32)] [⟨.orr, .none, .none, .none, [15, 14], some 0#32⟩]))).map (·.pc) = some 9#32 := by
  decide

theorem test_unknown_opcode_faults :
    (nextOf (step (loaded [] [⟨.unknown 21, .none, .none, .none, [], none⟩]))).map (fun t => (t.pc, t.status)) =
      some (0#32, .faulted (.unknownOpcode 0)) := by decide

theorem test_failed_condition_hides_faults :
    (ran "EOREQ r99, r0, r1" (machine [] [] 0#32)).isSome = true ∧
    fails "EOR r99, r0, r1" (machine [] [] 0#32) = some (.regIndex 0 99) := by decide

/-! ### Witnesses: for each statement with hypotheses, values that meet them together, clause by clause -/

/-- A machine of 32 cells whose flag positions are not the default ones, all flags set. -/
def odd : State :=
  { machine [(0, 31#32), (13, 0xFFFFFFFF#32), (15, 0xFFFFFFFE#32)] [(31, 5#32)] 0xF000000F#32 with
    params := { memSize := 32, flagPos := ⟨0, 1, 2, 3⟩ } }

/-- A machine that runs every shape of instruction, its PC at index 1. -/
def running : State :=
  loaded [(15, 1#32)] [⟨.b, .none, .none, .none, [0], none⟩, ⟨.add, .none, .none, .s, [1, 1], some 1#32⟩]

theorem witness_EncodedLineDecodes :
    Instr.wf (.strd .le .db [14, 15, 1000] (some 0x80000000#32)) = true ∧
    (Instr.strd .le .db [14, 15, 1000] (some 0x80000000#32)).format ≠ .br ∧
    Instr.wf (.bl .ls .ia .sb [4294967296] none) = true ∧ (Instr.bl .ls .ia .sb [4294967296] none).format = .br ∧
    (Instr.bl .ls .ia .sb [4294967296] none).record.regs = [4294967296] := by decide

theorem witness_EncodedProgramAssembles :
    ∀ i ∈ [Instr.b .eq .none .none [2] none, .bl .none .none .none [0] none],
      i.wf = true ∧ (i.format = .br → ∀ k ∈ i.record.regs, k ≤ 2) := by decide

theorem witness_AssembledRecordsAreWellFormed :
    assemble .wrap " B end\nend".toList = .program [⟨.b, .none, .none, .none, [1], none⟩] [] ∧
    (⟨.b, .none, .none, .none, [1], none⟩ : Record) ∈ [(⟨.b, .none, .none, .none, [1], none⟩ : Record)] := by decide

theorem witness_SkippedLineIsAbsent :
    decodeLine .saturate " MOV r1, r2".toList = .skip ∧
    assembleLines .saturate (["a".toList] ++ " MOV r1, r2".toList :: [" B a".toList]) =
      .program [⟨.b, .none, .none, .none, [0], none⟩] [2] := by decide

theorem witness_ConditionTable :
    odd.flagN = true ∧ (running.flagN = (machine [] [] 0xF#32).flagN ∧ running.flagZ = (machine [] [] 0xF#32).flagZ ∧
      running.flagC = (machine [] [] 0xF#32).flagC ∧ running.flagV = (machine [] [] 0xF#32).flagV) := by decide

theorem witness_FailedConditionDoesNothing :
    odd.meets (Record.cond ⟨.unknown 21, .ne, .none, .none, [], none⟩) = false ∧
    odd.meets (Record.cond ⟨.add, .ne, .none, .none, [99], none⟩) = false ∧
    Record.instr? ⟨.add, .ne, .none, .none, [99], none⟩ = some (.add .ne .none .none [99] none) := by decide

theorem witness_CompareDiscardsResult :
    odd.meets .ls = true ∧ 15 < 16 ∧ 0 < 16 ∧ ∀ k ∈ (Operand2.reg 15).registers, k < 16 := by decide

theorem witness_OnlyFlagWritersWriteSr :
    (ran "ADD r0, r1, r2" odd).isSome = true ∧ (decoded "ADD r0, r1, r2").map (fun i => (i.format, i.record.suffix)) =
      some (.dp3, .none) ∧
    (ran "LDRS r1, [r0]" odd).isSome = true ∧ (decoded "LDRS r1, [r0]").map Instr.format = some .ls ∧
    (ran "TST r1, r2" odd).isSome = true ∧ odd.params.logicCV = .preserve ∧ odd.params.flagPos.wf := by decide

theorem witness_ReservedSrBitsNeverChange : (nextOf (step running)).isSome = true ∧ running.notFlagBit 0 := by decide

theorem witness_CompareThenConditionOrders :
    odd.meets .al = true ∧ 15 < 16 ∧ (∀ k ∈ (Operand2.reg 13).registers, k < 16) ∧ odd.params.flagPos.wf ∧
    odd.params.nFlagSource = .truncated := by decide

/-- The hypotheses of a data-processing instruction's statement. -/
abbrev dp3Hypotheses (s : State) (c : Cond) (x : Suffix) (d n : Nat) (o : Operand2) : Prop :=
  s.meets c = true ∧ d < 16 ∧ n < 16 ∧ (∀ k ∈ o.registers, k < 16) ∧ (x = .s → s.params.flagPos.wf)

theorem witness_AddCompletes : dp3Hypotheses odd .eq .s 15 15 (.reg 15) ∧ dp3Hypotheses odd .al .b 0 0 (.imm 0#32) := by
  decide

theorem witness_AdcCompletes : dp3Hypotheses odd .cs .s 15 0 (.imm 1#32) ∧ dp3Hypotheses odd .cs .none 0 15 (.reg 0) := by
  decide

theorem witness_SubCompletes : dp3Hypotheses odd .mi .s 15 13 (.reg 13) ∧ dp3Hypotheses odd .mi .none 0 0 (.imm 1#32) := by
  decide

theorem witness_SbcCompletes : dp3Hypotheses odd .vs .s 15 13 (.reg 13) ∧ dp3Hypotheses odd .vs .d 0 0 (.imm 1#32) := by
  decide

theorem witness_RsbCompletes : dp3Hypotheses odd .ls .s 15 13 (.reg 15) ∧ dp3Hypotheses odd .ls .h 0 0 (.imm 1#32) := by
  decide

theorem witness_RscCompletes : dp3Hypotheses odd .ge .s 15 13 (.reg 15) ∧ dp3Hypotheses odd .ge .sh 0 0 (.imm 1#32) := by
  decide

theorem witness_LogicalCompletes :
    dp3Hypotheses odd .le .s 15 13 (.reg 15) ∧ dp3Hypotheses odd (.unmapped 16) .sb 0 0 (.imm 1#32) := by decide

/-- The hypotheses of a compare's statement. -/
abbrev cmp2Hypotheses (s : State) (c : Cond) (n : Nat) (o : Operand2) : Prop :=
  s.meets c = true ∧ n < 16 ∧ (∀ k ∈ o.registers, k < 16) ∧ s.params.flagPos.wf

theorem witness_CmnCompletes : cmp2Hypotheses odd .none 15 (.reg 15) ∧ cmp2Hypotheses odd .eq 0 (.imm 1#32) := by decide

theorem witness_CmpCompletes : cmp2Hypotheses odd .ls 15 (.reg 0) ∧ cmp2Hypotheses odd .al 0 (.imm 1#32) := by decide

theorem witness_TstTeqComplete : cmp2Hypotheses odd .mi 15 (.reg 13) ∧ cmp2Hypotheses odd .vs 0 (.imm 1#32) := by decide

/-- The hypotheses of a single transfer's statement. -/
abbrev transferHypotheses (s : State) (c : Cond) (t n : Nat) (offset : Option Word) : Prop :=
  s.meets c = true ∧ t < 16 ∧ n < 16 ∧ expectedCell s n offset < s.params.memSize

/-- The last cell, by no offset; cell 0, by an address that wraps. -/
theorem witness_LdrCompletes :
    transferHypotheses odd .eq 15 0 none ∧ transferHypotheses odd .eq 13 13 (some 1#32) := by decide

theorem witness_NarrowLoadsComplete :
    transferHypotheses odd .cs 15 0 none ∧ transferHypotheses odd .cs 0 13 (some 1#32) := by decide

theorem witness_StrCompletes :
    transferHypotheses odd .mi 15 0 none ∧ transferHypotheses odd .mi 13 13 (some 1#32) := by decide

theorem witness_NarrowStoresComplete :
    transferHypotheses odd .vs 15 0 none ∧ transferHypotheses odd .vs 0 13 (some 1#32) := by decide

/-- The hypotheses of a doubleword transfer's statement. -/
abbrev doubleHypotheses (s : State) (c : Cond) (t t2 n : Nat) (offset : Option Word) : Prop :=
  s.meets c = true ∧ validPair t t2 ∧ n < 16 ∧ expectedCell s n offset < s.params.memSize ∧
    (expectedCell s n offset + 1) % 2 ^ 32 < s.params.memSize

/-- The last two cells; and, where MEM_SIZE is 2^32, the last cell and the first. -/
theorem witness_LdrdCompletes :
    doubleHypotheses odd .al 14 15 0 (some 0xFFFFFFFF#32) ∧
    doubleHypotheses { odd with params := { memSize := 2 ^ 32 } } .al 0 1 13 none := by decide

theorem witness_StrdCompletes :
    doubleHypotheses odd .al 14 15 0 (some 0xFFFFFFFF#32) ∧
    doubleHypotheses { odd with params := { memSize := 2 ^ 32 } } .al 0 1 13 none := by decide

/-- The hypotheses of a multiple transfer's statement. -/
abbrev multipleHypotheses (mode : UpdateMode) (s : State) (c : Cond) (n : Nat) (list : List Nat) : Prop :=
  s.meets c = true ∧ n < 16 ∧ (∀ k ∈ list, k < 16) ∧
    ∀ j, j < list.length → expectedBlockCell mode (s.reg n) j < s.params.memSize

theorem witness_LoadMultipleCompletes :
    multipleHypotheses .none odd .eq 0 [15] ∧ multipleHypotheses .ia odd .eq 0 [] ∧
    multipleHypotheses .ib odd .eq 13 [15, 13, 15] ∧ multipleHypotheses .da odd .eq 0 [1, 1] ∧
    multipleHypotheses .db odd .eq 0 [0, 15] := by decide

theorem witness_StoreMultipleCompletes :
    multipleHypotheses .none odd .eq 0 [15] ∧ multipleHypotheses .ia odd .eq 0 [] ∧
    multipleHypotheses .ib odd .eq 13 [15, 13, 15] ∧ multipleHypotheses .da odd .eq 0 [1, 1] ∧
    multipleHypotheses .db odd .eq 0 [0, 15] := by decide

theorem witness_StoreThenLoadReturnsValue : transferHypotheses odd .none 15 0 none ∧ 0 < 16 := by decide

theorem witness_BranchCompletes : odd.meets .ls = true := by decide

theorem witness_BranchWithLinkCompletes : odd.meets .le = true := by decide

theorem witness_SwiHalts :
    running.meets .none = true ∧
    (loaded [] [⟨.swi, .none, .none, .none, [], none⟩]).status = .running ∧
    (loaded [] [⟨.swi, .none, .none, .none, [], none⟩]).fetch = some ⟨.swi, .none, .none, .none, [], none⟩ ∧
    (loaded [] [⟨.swi, .none, .none, .none, [], none⟩]).meets .none = true ∧
    (loaded [] [⟨.swi, .none, .none, .none, [], none⟩]).budget = 0 := by decide

theorem witness_CallAndReturnResumes :
    let s := loaded [] [⟨.bl, .al, .none, .none, [1], none⟩, ⟨.add, .none, .none, .none, [15, 14], some 0#32⟩]
    s.status = .running ∧ s.budget = 0 ∧ s.meets .al = true ∧ 1 < 2 ^ 32 ∧ Suffix.none ≠ .s ∧
    s.fetch = some ⟨.bl, .al, .none, .none, [1], none⟩ ∧
    s.program[1]? = some ⟨.add, .none, .none, .none, [15, 14], some 0#32⟩ := by decide

/-- A pair at each edge of validity, and the fault on a pair that is out of range. -/
theorem witness_RegisterPairCheck :
    validPair 14 15 ∧ ¬validPair 16 17 ∧ ¬validPair 1 2 ∧ ¬validPair 2 4 ∧
    fails "STRD r16, r17, [r99]" odd = some (.regPair 0xFFFFFFFE 16 17) := by decide

/-- Each place of the priority, on a record that each later place applies to as well; and none. -/
theorem witness_FaultPriority :
    expectedFault running ⟨.unknown 21, .none, .none, .none, [99], none⟩ = some (.unknownOpcode 1) ∧
    expectedFault running ⟨.ldr, .none, .none, .d, [1, 99], none⟩ = some (.malformed 1) ∧
    expectedFault running ⟨.ldr, .none, .none, .d, [1, 2, 99], some 32#32⟩ = some (.regPair 1 1 2) ∧
    expectedFault running ⟨.ldr, .none, .none, .d, [0, 1, 16], some 32#32⟩ = some (.regIndex 1 16) ∧
    expectedFault running ⟨.ldr, .none, .none, .d, [0, 1, 0], some 31#32⟩ = some (.memIndex 1 32) ∧
    expectedFault running ⟨.ldr, .none, .none, .d, [0, 1, 0], some 30#32⟩ = none ∧
    expectedFault running ⟨.ldr, .eq, .none, .d, [1, 2, 99], none⟩ = none := by decide

theorem witness_FaultingStepWritesNothing :
    let s := loaded [] [⟨.str, .none, .none, .none, [0, 0], some 32#32⟩]
    s.status = .running ∧ s.fetch = some ⟨.str, .none, .none, .none, [0, 0], some 32#32⟩ ∧ s.budget = 0 ∧
    expectedFault s ⟨.str, .none, .none, .none, [0, 0], some 32#32⟩ = some (.memIndex 0 32) ∧
    (nextOf (step s)).isSome = true := by decide

theorem witness_AssembledProgramsAreNeverMalformed :
    assemble .saturate " LDR r0, [r99]".toList = .program [⟨.ldr, .none, .none, .none, [0, 99], none⟩] [] ∧
    State.reset.status = .idle ∧
    (State.reset.run [⟨.ldr, .none, .none, .none, [0, 99], none⟩] 0 3).status = .faulted (.regIndex 0 99) := by decide

theorem witness_FaultIsSticky :
    let s : State := { odd with status := .faulted (.malformed 0) }
    s.status = .faulted (.malformed 0) ∧ (s.setRegister 15 0).toOption.isSome = true ∧
    (s.setMemory 31 0).toOption.isSome = true := by decide

/-- One record for each of the four ends of an executed instruction. -/
theorem witness_StepRunsDecodedInstruction :
    running.status = .running ∧ running.budget = 0 ∧
    running.program[uint running.pc]? = some ⟨.add, .none, .none, .s, [1, 1], some 1#32⟩ ∧
    Record.instr? ⟨.add, .none, .none, .s, [1, 1], some 1#32⟩ = some (.add .none .none .s [1, 1] (some 1#32)) ∧
    (nextOf (exec (.add .none .none .s [1, 1] (some 1#32)) running)).map (·.signal) = some .sequential ∧
    (nextOf (exec (.b .none .none .none [0] none) running)).map (·.signal) = some .branched ∧
    (nextOf (exec (.swi .none .none .none [] none) running)).map (·.signal) = some .halt ∧
    (faultOf (exec (.swi .none .none .none [1] none) running)) = some (.malformed 1) := by decide

theorem witness_RunEndsBeforeFetch :
    (loaded [(15, 2#32)] running.program).status = .running ∧
    running.program.length ≤ uint (loaded [(15, 2#32)] running.program).pc ∧
    uint running.pc < running.program.length ∧ { running with budget := 3, executed := 3 }.budget ≠ 0 ∧
    { running with budget := 3, executed := 3 }.executed = 3 ∧ State.reset.status ≠ .running := by decide

theorem witness_StepKeepsInvariant : running.Inv ∧ (nextOf (step running)).isSome = true := by decide

/-- A machine that meets the image invariant, and the two ways of not meeting it. -/
theorem witness_StepKeepsImageInvariant :
    running.ImageInv ∧ (nextOf (step running)).isSome = true ∧ ¬wellFormedImage [⟨.swi, .none, .none, .none, [1], none⟩] ∧
    ¬wellFormedImage [⟨.unknown 21, .none, .none, .none, [], none⟩] ∧
    ¬{ running with status := .faulted (.unknownOpcode 0) }.ImageInv := by decide

theorem witness_ProgramImageIsImmutable : (nextOf (step running)).isSome = true := by decide

theorem witness_BudgetedRunIsOver :
    (1 : Nat) ≠ 0 ∧ (State.reset.run [⟨.b, .none, .none, .none, [0], none⟩] 1 2).status = .budgetExhausted := by decide

theorem witness_OnlyNamedRegistersChange :
    (nextOf (exec (.ldmia .none .none [0, 14, 15] none) (machine [(0, 30#32)] [] 0#32))).isSome = true ∧
    (machine [(0, 30#32)] [] 0#32).meets .none = true ∧ 14 ∈ writtenRegs (.ldmia .none .none [0, 14, 15] none) := by decide

theorem witness_OnlyStoresChangeMemory :
    (nextOf (exec (.stmdb .none .none [0, 0] none) odd)).isSome = true ∧ isStore (.stmdb .none .none [0, 0] none) ∧
    (nextOf (exec (.ldrb .none .none [0, 0] none) odd)).isSome = true ∧ ¬isStore (.ldrb .none .none [0, 0] none) := by decide

theorem witness_ReservedSrBitsAreNeverRead :
    agreeButReserved running { running with sr := 0x0FFFFFFF#32 } ∧ running.sr ≠ 0x0FFFFFFF#32 := by decide

theorem witness_ConstructionState : (14 : Nat) < 15 := by decide

theorem witness_RunStartsFromCurrentState :
    State.reset.status = .idle ∧ running.status = .running ∧ ([] : List Record).length ≤ State.reset.index := by decide

theorem witness_HostRegisterAccess : (15 : Nat) < 16 ∧ (16 : Nat) ≤ 16 := by decide

theorem witness_HostMemoryAccess : 31 < odd.params.memSize ∧ odd.params.memSize ≤ 32 := by decide

theorem witness_HostStatusAndExecute :
    (match running.hostExecute ⟨.add, .none, .none, .none, [0, 0], some 1#32⟩ with
      | .continued w _ => w
      | _ => true) = false ∧
    running.meets .al = true := by decide

end Sys2Proof.Tests
end

section
/-! SUPPORT. No step changes what a run was given: the program image, the parameters and the budget (R19, R9, R124).
Executing an instruction keeps the whole bookkeeping of the run (`sameRun`); the loop itself changes the status and the count. -/

namespace Sys2Proof.Proofs

open Sys2Proof.Machine Sys2Proof.Laws

variable {i : Instr} {s t : State}

/-! ### The advance of the PC leaves the run's arguments alone -/

@[simp] theorem advance_program (s : State) (pc : Word) : (s.advance pc).program = s.program := by
  unfold State.advance; split <;> rfl
@[simp] theorem advance_params (s : State) (pc : Word) : (s.advance pc).params = s.params := by
  unfold State.advance; split <;> rfl
@[simp] theorem advance_budget (s : State) (pc : Word) : (s.advance pc).budget = s.budget := by
  unfold State.advance; split <;> rfl

/-! ### Instructions keep the bookkeeping of the run -/

theorem sameRun_writeArith (s : State) (x : Suffix) (d : Nat) (r : ArithResult) : sameRun s (writeArith x d r s) := by
  unfold writeArith; split <;> simp [sameRun]

theorem sameRun_writeLogic (s : State) (x : Suffix) (d : Nat) (r : Word) : sameRun s (writeLogic x d r s) := by
  unfold writeLogic; split <;> simp [sameRun]

/-- The signal set before every effect is no part of the bookkeeping, so each case is about the writes only. -/
theorem effect_sameRun (h : Effect i s t) : sameRun s t := by
  cases h with
  | arith => exact sameRun_writeArith (s.setSignal .sequential) ..
  | logic => exact sameRun_writeLogic (s.setSignal .sequential) ..
  | compareArith => simp [sameRun]
  | compareLogic => simp [sameRun]
  | load => simp [sameRun]
  | store => simp [sameRun]
  | loadDouble => simp [sameRun]
  | storeDouble => simp [sameRun]
  | loadMultiple => simp [sameRun]
  | storeMultiple => simp [sameRun]
  | branch => simp [sameRun]
  | branchLink => simp [sameRun]
  | halt => simp [sameRun]

theorem exec_sameRun (h : exec i s = .next t) : sameRun s t := by
  rcases exec_cases h with ⟨-, rfl⟩ | ⟨-, heffect⟩
  · simp [sameRun]
  · exact effect_sameRun heffect

end Sys2Proof.Proofs
end

section
/-! PROOF. The program image is immutable (R19). -/

namespace Sys2Proof.Proofs

open Sys2Proof.Machine Sys2Proof.Laws

/-- Settles O50, by cases on what the step did: only a step that runs an instruction goes beyond the loop's own fields, and
there `exec_sameRun` says that the instruction keeps the arguments of the run. -/
theorem programImageIsImmutable : Obligations.ProgramImageIsImmutable := by
  intro s t h
  cases step_cases h with
  | stays => exact ⟨rfl, rfl, rfl⟩
  | completes => exact ⟨rfl, rfl, rfl⟩
  | exhausts => exact ⟨rfl, rfl, rfl⟩
  | faults => simp
  | runs r i u _ _ _ _ hexec =>
    obtain ⟨hparams, hprogram, hbudget, -, -⟩ := exec_sameRun hexec
    simp [hparams, hprogram, hbudget]
  | passesUnknown => simp

end Sys2Proof.Proofs
end

section
/-! SUPPORT. Noninterference: two states that differ at most in the bits of SR that hold no flag (`agreeButReserved`) are
read alike by every operation, updated alike, and so give outcomes that differ at most there (`AgreeOut`). -/

namespace Sys2Proof.Proofs

open Sys2Proof.Machine Sys2Proof.Laws

/-- Two outcomes that differ at most in the reserved bits of their next states. -/
inductive AgreeOut : Out → Out → Prop
  | next {s t : State} (h : agreeButReserved s t) : AgreeOut (.next s) (.next t)
  | fault (f : Fault) : AgreeOut (.fault f) (.fault f)
  | refused (r : Refusal) : AgreeOut (.refused r) (.refused r)

variable {s t : State}

/-! ### Reads -/

/-- Of two states that agree, the second is the first with another SR. -/
theorem agree_eq (h : agreeButReserved s t) : t = { s with sr := t.sr } := by
  obtain ⟨hregs, hmem, hparams, hprogram, hbudget, hstatus, hexecuted, hsignal, -⟩ := h
  cases s; cases t; simp_all

theorem agree_params (h : agreeButReserved s t) : t.params = s.params := by rw [agree_eq h]
theorem agree_status (h : agreeButReserved s t) : t.status = s.status := by rw [agree_eq h]
theorem agree_signal (h : agreeButReserved s t) : t.signal = s.signal := by rw [agree_eq h]

theorem agree_flags (h : agreeButReserved s t) :
    t.flagN = s.flagN ∧ t.flagZ = s.flagZ ∧ t.flagC = s.flagC ∧ t.flagV = s.flagV := by
  obtain ⟨-, -, -, -, -, -, -, -, hflags⟩ := h
  exact hflags

theorem agree_flagC (h : agreeButReserved s t) : t.flagC = s.flagC := (agree_flags h).2.2.1
theorem agree_flagV (h : agreeButReserved s t) : t.flagV = s.flagV := (agree_flags h).2.2.2

theorem agree_reg (h : agreeButReserved s t) (i : Nat) : t.reg i = s.reg i := by rw [agree_eq h]; rfl
theorem agree_pc (h : agreeButReserved s t) : t.pc = s.pc := agree_reg h 15
theorem agree_index (h : agreeButReserved s t) : t.index = s.index := by rw [agree_eq h]; rfl
theorem agree_cell (h : agreeButReserved s t) (a : Word) : t.cell a = s.cell a := by rw [agree_eq h]; rfl
theorem agree_fetch (h : agreeButReserved s t) : t.fetch = s.fetch := by rw [agree_eq h]; rfl
theorem agree_budgetSpent (h : agreeButReserved s t) : t.budgetSpent = s.budgetSpent := by rw [agree_eq h]; rfl

theorem agree_regFault (h : agreeButReserved s t) (is : List Nat) : t.regFault is = s.regFault is := by
  rw [agree_eq h]; rfl
theorem agree_memFault (h : agreeButReserved s t) (as : List Word) : t.memFault as = s.memFault as := by
  rw [agree_eq h]; rfl
theorem agree_pairFault (h : agreeButReserved s t) (i j : Nat) : t.pairFault i j = s.pairFault i j := by
  rw [agree_eq h]; rfl

theorem agree_operand2 (h : agreeButReserved s t) (o : Operand2) : o.value t = o.value s := by
  rw [agree_eq h]; cases o <;> rfl
theorem agree_effectiveAddress (h : agreeButReserved s t) (n : Nat) (offset : Word) :
    effectiveAddress t n offset = effectiveAddress s n offset := by rw [agree_eq h]; rfl

/-- The condition gate reads the four flags only. -/
theorem agree_meets (h : agreeButReserved s t) (c : Cond) : t.meets c = s.meets c := by
  obtain ⟨hn, hz, hc, hv⟩ := agree_flags h
  simp only [State.meets, hn, hz, hc, hv]

theorem agree_borrowIn (h : agreeButReserved s t) : t.borrowIn = s.borrowIn := by
  simp only [State.borrowIn, agree_params h, agree_flagC h]

/-! ### Updates -/

theorem agree_setSignal (h : agreeButReserved s t) (g : Signal) : agreeButReserved (s.setSignal g) (t.setSignal g) := by
  simp only [agreeButReserved] at h; simp [agreeButReserved, h]

theorem agree_setStatus (h : agreeButReserved s t) (r : RunStatus) :
    agreeButReserved { s with status := r } { t with status := r } := by
  obtain ⟨hregs, hmem, hparams, hprogram, hbudget, -, hexecuted, hsignal, hflags⟩ := h
  exact ⟨hregs, hmem, hparams, hprogram, hbudget, rfl, hexecuted, hsignal, hflags⟩

theorem agree_countFetch (h : agreeButReserved s t) : agreeButReserved s.countFetch t.countFetch := by
  simp only [agreeButReserved] at h; simp [agreeButReserved, h]

theorem agree_writeReg (h : agreeButReserved s t) (i : Nat) (v : Word) :
    agreeButReserved (s.writeReg i v) (t.writeReg i v) := by
  simp only [agreeButReserved] at h; simp [agreeButReserved, h]

theorem agree_writeCell (h : agreeButReserved s t) (a v : Word) :
    agreeButReserved (s.writeCell a v) (t.writeCell a v) := by
  simp only [agreeButReserved] at h; simp [agreeButReserved, h]

theorem agree_writeRegs (h : agreeButReserved s t) (l : List (Nat × Word)) :
    agreeButReserved (s.writeRegs l) (t.writeRegs l) := by
  induction l generalizing s t with
  | nil => exact h
  | cons e l ih => exact ih (agree_writeReg h e.1 e.2)

theorem agree_writeCells (h : agreeButReserved s t) (l : List (Word × Word)) :
    agreeButReserved (s.writeCells l) (t.writeCells l) := by
  induction l generalizing s t with
  | nil => exact h
  | cons e l ih => exact ih (agree_writeCell h e.1 e.2)

/-- A written flag is read as written, or as another flag written later to the same bit: never as an old bit of SR. -/
theorem agree_withFlags (h : agreeButReserved s t) (n z c v : Bool) :
    agreeButReserved (s.withFlags n z c v) (t.withFlags n z c v) := by
  obtain ⟨hregs, hmem, hparams, hprogram, hbudget, hstatus, hexecuted, hsignal, -⟩ := h
  refine ⟨hregs, hmem, hparams, hprogram, hbudget, hstatus, hexecuted, hsignal, ?_, ?_, ?_, ?_⟩
  · simp only [State.flagN, withFlags_params, withFlags_sr_bit, hparams, if_true]
  · simp only [State.flagZ, withFlags_params, withFlags_sr_bit, hparams, if_true]
  · simp only [State.flagC, withFlags_params, withFlags_sr_bit, hparams, if_true]
  · simp only [withFlags_flagV]

theorem agree_setArithFlags (h : agreeButReserved s t) (r : ArithResult) :
    agreeButReserved (s.setArithFlags r) (t.setArithFlags r) := by
  unfold State.setArithFlags
  rw [agree_params h]
  exact agree_withFlags h ..

theorem agree_setLogicFlags (h : agreeButReserved s t) (r : Word) :
    agreeButReserved (s.setLogicFlags r) (t.setLogicFlags r) := by
  unfold State.setLogicFlags
  rw [agree_params h, agree_flagC h, agree_flagV h]
  cases s.params.logicCV with
  | preserve => exact agree_withFlags h ..
  | clear => exact agree_withFlags h ..

theorem agree_writeArith (h : agreeButReserved s t) (x : Suffix) (d : Nat) (r : ArithResult) :
    agreeButReserved (writeArith x d r s) (writeArith x d r t) := by
  unfold writeArith
  split
  · exact agree_setArithFlags (agree_writeReg h ..) r
  · exact agree_writeReg h ..

theorem agree_writeLogic (h : agreeButReserved s t) (x : Suffix) (d : Nat) (r : Word) :
    agreeButReserved (writeLogic x d r s) (writeLogic x d r t) := by
  unfold writeLogic
  split
  · exact agree_setLogicFlags (agree_writeReg h ..) r
  · exact agree_writeReg h ..

/-! ### The handlers -/

theorem agreeOut_unlessFault (f : Option Fault) {o o' : Out} (h : AgreeOut o o') :
    AgreeOut (unlessFault f o) (unlessFault f o') := by
  cases f with
  | none => exact h
  | some f => exact .fault f

theorem agreeOut_withOperands {α : Type} (h : agreeButReserved s t) (o : Option α) {body body' : α → Out}
    (hbody : ∀ a, AgreeOut (body a) (body' a)) : AgreeOut (withOperands s o body) (withOperands t o body') := by
  cases o with
  | none => simp only [withOperands, agree_index h]; exact .fault _
  | some a => exact hbody a

theorem agreeOut_gated (h : agreeButReserved s t) (c : Cond) {body : State → Out}
    (hbody : ∀ {u w}, agreeButReserved u w → AgreeOut (body u) (body w)) :
    AgreeOut (gated c s body) (gated c t body) := by
  unfold gated
  rw [agree_meets h]
  split
  · exact hbody (agree_setSignal h _)
  · exact .next (agree_setSignal h _)

variable {c : Cond} {rs : List Nat} {im : Option Word}

theorem agreeOut_dp3 (h : agreeButReserved s t) {write : Nat → Word → Word → State → State}
    (hwrite : ∀ d a b {u w}, agreeButReserved u w → agreeButReserved (write d a b u) (write d a b w)) :
    AgreeOut (dp3 c rs im s write) (dp3 c rs im t write) := by
  refine agreeOut_gated h c fun {_ _} h => agreeOut_withOperands h _ fun o => ?_
  rw [agree_regFault h, agree_reg h, agree_operand2 h]
  exact agreeOut_unlessFault _ (.next (hwrite _ _ _ h))

theorem agreeOut_cmp2 (h : agreeButReserved s t) {write : Word → Word → State → State}
    (hwrite : ∀ a b {u w}, agreeButReserved u w → agreeButReserved (write a b u) (write a b w)) :
    AgreeOut (cmp2 c rs im s write) (cmp2 c rs im t write) := by
  refine agreeOut_gated h c fun {_ _} h => agreeOut_withOperands h _ fun o => ?_
  rw [agree_regFault h, agree_reg h, agree_operand2 h]
  exact agreeOut_unlessFault _ (.next (hwrite _ _ h))

theorem agreeOut_loadCell (h : agreeButReserved s t) (extend : Word → Word) :
    AgreeOut (loadCell c rs im s extend) (loadCell c rs im t extend) := by
  refine agreeOut_gated h c fun {_ _} h => agreeOut_withOperands h _ fun o => ?_
  simp only [agree_regFault h, agree_effectiveAddress h, agree_memFault h, agree_cell h]
  exact agreeOut_unlessFault _ (agreeOut_unlessFault _ (.next (agree_writeReg h ..)))

theorem agreeOut_storeCell (h : agreeButReserved s t) (place : Word → Word → Word) :
    AgreeOut (storeCell c rs im s place) (storeCell c rs im t place) := by
  refine agreeOut_gated h c fun {_ _} h => agreeOut_withOperands h _ fun o => ?_
  simp only [agree_regFault h, agree_effectiveAddress h, agree_memFault h, agree_cell h, agree_reg h]
  exact agreeOut_unlessFault _ (agreeOut_unlessFault _ (.next (agree_writeCell h ..)))

theorem agreeOut_doubleword (h : agreeButReserved s t) {body : LsdOperands → Word → Word → State → State}
    (hbody : ∀ o a a2 {u w}, agreeButReserved u w → agreeButReserved (body o a a2 u) (body o a a2 w)) :
    AgreeOut (doubleword c rs im s body) (doubleword c rs im t body) := by
  refine agreeOut_gated h c fun {_ _} h => agreeOut_withOperands h _ fun o => ?_
  simp only [agree_pairFault h, agree_regFault h, agree_effectiveAddress h, agree_memFault h]
  exact agreeOut_unlessFault _ (agreeOut_unlessFault _ (agreeOut_unlessFault _ (.next (hbody _ _ _ h))))

theorem agreeOut_multiple (h : agreeButReserved s t) (mode : UpdateMode) {body : LsmOperands → List Word → State → State}
    (hbody : ∀ o as {u w}, agreeButReserved u w → agreeButReserved (body o as u) (body o as w)) :
    AgreeOut (multiple mode c rs im s body) (multiple mode c rs im t body) := by
  refine agreeOut_gated h c fun {_ _} h => agreeOut_withOperands h _ fun o => ?_
  simp only [agree_regFault h, agree_reg h, agree_memFault h]
  exact agreeOut_unlessFault _ (agreeOut_unlessFault _ (.next (hbody _ _ h)))

/-! ### Families of instructions -/

/-- An add or subtract whose computation may read the state, as the carry-in and the borrow-in do. -/
theorem agreeOut_arith (h : agreeButReserved s t) {x : Suffix} (f : State → Word → Word → ArithResult)
    (hf : ∀ a b {u w}, agreeButReserved u w → f w a b = f u a b) :
    AgreeOut (dp3 c rs im s fun d a b s => writeArith x d (f s a b) s)
      (dp3 c rs im t fun d a b s => writeArith x d (f s a b) s) :=
  agreeOut_dp3 h fun d a b {u w} h => by rw [hf a b h]; exact agree_writeArith h ..

theorem agreeOut_logic (h : agreeButReserved s t) {x : Suffix} (f : Word → Word → Word) :
    AgreeOut (dp3 c rs im s fun d a b s => writeLogic x d (f a b) s)
      (dp3 c rs im t fun d a b s => writeLogic x d (f a b) s) :=
  agreeOut_dp3 h fun _ _ _ {_ _} h => agree_writeLogic h ..

theorem agreeOut_compareArith (h : agreeButReserved s t) (f : Word → Word → ArithResult) :
    AgreeOut (cmp2 c rs im s fun a b s => s.setArithFlags (f a b))
      (cmp2 c rs im t fun a b s => s.setArithFlags (f a b)) :=
  agreeOut_cmp2 h fun _ _ {_ _} h => agree_setArithFlags h _

theorem agreeOut_compareLogic (h : agreeButReserved s t) (f : Word → Word → Word) :
    AgreeOut (cmp2 c rs im s fun a b s => s.setLogicFlags (f a b))
      (cmp2 c rs im t fun a b s => s.setLogicFlags (f a b)) :=
  agreeOut_cmp2 h fun _ _ {_ _} h => agree_setLogicFlags h _

/-- A narrow store, whose policy is a parameter. -/
theorem agreeOut_storeNarrow (h : agreeButReserved s t) (place : NarrowStore → Word → Word → Word) :
    AgreeOut (storeCell c rs im s (place s.params.narrowStore)) (storeCell c rs im t (place t.params.narrowStore)) := by
  rw [agree_params h]; exact agreeOut_storeCell h _

theorem agreeOut_loadDouble (h : agreeButReserved s t) :
    AgreeOut (doubleword c rs im s fun o a a2 s => (s.writeReg o.t (s.cell a)).writeReg o.t2 (s.cell a2))
      (doubleword c rs im t fun o a a2 s => (s.writeReg o.t (s.cell a)).writeReg o.t2 (s.cell a2)) :=
  agreeOut_doubleword h fun o a a2 {u w} h => by
    simp only [agree_cell h]; exact agree_writeReg (agree_writeReg h ..) ..

theorem agreeOut_storeDouble (h : agreeButReserved s t) :
    AgreeOut (doubleword c rs im s fun o a a2 s => (s.writeCell a (s.reg o.t)).writeCell a2 (s.reg o.t2))
      (doubleword c rs im t fun o a a2 s => (s.writeCell a (s.reg o.t)).writeCell a2 (s.reg o.t2)) :=
  agreeOut_doubleword h fun o a a2 {u w} h => by
    simp only [agree_reg h]; exact agree_writeCell (agree_writeCell h ..) ..

theorem agreeOut_loadMultiple (h : agreeButReserved s t) (mode : UpdateMode) :
    AgreeOut (loadMultiple mode c rs im s) (loadMultiple mode c rs im t) :=
  agreeOut_multiple h mode fun o as {u w} h => by
    rw [show w.cell = u.cell from funext (agree_cell h)]; exact agree_writeRegs h _

theorem agreeOut_storeMultiple (h : agreeButReserved s t) (mode : UpdateMode) :
    AgreeOut (storeMultiple mode c rs im s) (storeMultiple mode c rs im t) :=
  agreeOut_multiple h mode fun o as {u w} h => by
    rw [show w.reg = u.reg from funext (agree_reg h)]; exact agree_writeCells h _

theorem agreeOut_branch (h : agreeButReserved s t) (m : UpdateMode) (x : Suffix) :
    AgreeOut (execB c m x rs im s) (execB c m x rs im t) :=
  agreeOut_gated h c fun {_ _} h => agreeOut_withOperands h _ fun _ => .next (agree_writeReg h ..)

theorem agreeOut_branchLink (h : agreeButReserved s t) (m : UpdateMode) (x : Suffix) :
    AgreeOut (execBl c m x rs im s) (execBl c m x rs im t) :=
  agreeOut_gated h c fun {_ _} h => agreeOut_withOperands h _ fun o => by
    rw [agree_pc h]; exact .next (agree_writeReg (agree_writeReg h ..) ..)

theorem agreeOut_halt (h : agreeButReserved s t) (m : UpdateMode) (x : Suffix) :
    AgreeOut (execSwi c m x rs im s) (execSwi c m x rs im t) :=
  agreeOut_gated h c fun {_ _} h => agreeOut_withOperands h _ fun _ => .next (agree_setSignal h _)

/-! ### Executing a record -/

/-- No instruction reads a reserved bit of SR. -/
theorem agreeOut_exec (i : Instr) (h : agreeButReserved s t) : AgreeOut (exec i s) (exec i t) := by
  cases i with
  | add => exact agreeOut_arith h (fun _ a b => arithAdd a b false) fun _ _ {_ _} _ => rfl
  | adc => exact agreeOut_arith h (fun s a b => arithAdd a b s.flagC) fun _ _ {_ _} h => by rw [agree_flagC h]
  | sub => exact agreeOut_arith h (fun _ a b => arithSub a b false) fun _ _ {_ _} _ => rfl
  | sbc => exact agreeOut_arith h (fun s a b => arithSub a b s.borrowIn) fun _ _ {_ _} h => by rw [agree_borrowIn h]
  | rsb => exact agreeOut_arith h (fun _ a b => arithSub b a false) fun _ _ {_ _} _ => rfl
  | rsc => exact agreeOut_arith h (fun s a b => arithSub b a s.borrowIn) fun _ _ {_ _} h => by rw [agree_borrowIn h]
  | and => exact agreeOut_logic h fun a b => a &&& b
  | orr => exact agreeOut_logic h fun a b => a ||| b
  | eor => exact agreeOut_logic h fun a b => a ^^^ b
  | bic => exact agreeOut_logic h fun a b => a &&& ~~~b
  | cmn => exact agreeOut_compareArith h fun a b => arithAdd a b false
  | cmp => exact agreeOut_compareArith h fun a b => arithSub a b false
  | tst => exact agreeOut_compareLogic h fun a b => a &&& b
  | teq => exact agreeOut_compareLogic h fun a b => a ^^^ b
  | ldr => exact agreeOut_loadCell h id
  | ldrb => exact agreeOut_loadCell h zeroByte
  | ldrh => exact agreeOut_loadCell h zeroHalf
  | ldrsb => exact agreeOut_loadCell h signByte
  | ldrsh => exact agreeOut_loadCell h signHalf
  | ldrd => exact agreeOut_loadDouble h
  | str => exact agreeOut_storeCell h fun _ v => v
  | strb => exact agreeOut_storeNarrow h placeByte
  | strh => exact agreeOut_storeNarrow h placeHalf
  | strsb => exact agreeOut_storeNarrow h placeByte
  | strsh => exact agreeOut_storeNarrow h placeHalf
  | strd => exact agreeOut_storeDouble h
  | ldm => exact agreeOut_loadMultiple h .none
  | ldmia => exact agreeOut_loadMultiple h .ia
  | ldmib => exact agreeOut_loadMultiple h .ib
  | ldmda => exact agreeOut_loadMultiple h .da
  | ldmdb => exact agreeOut_loadMultiple h .db
  | stm => exact agreeOut_storeMultiple h .none
  | stmia => exact agreeOut_storeMultiple h .ia
  | stmib => exact agreeOut_storeMultiple h .ib
  | stmda => exact agreeOut_storeMultiple h .da
  | stmdb => exact agreeOut_storeMultiple h .db
  | b c m x => exact agreeOut_branch h m x
  | bl c m x => exact agreeOut_branchLink h m x
  | swi c m x => exact agreeOut_halt h m x

theorem agreeOut_execRecord (r : Record) (h : agreeButReserved s t) : AgreeOut (execRecord r s) (execRecord r t) := by
  unfold execRecord
  cases r.instr? with
  | some i => exact agreeOut_exec i h
  | none => exact agreeOut_gated h _ fun {_ _} h => by rw [agree_index h]; exact .fault _

/-! ### One step of the loop -/

theorem agree_advance (h : agreeButReserved s t) (pc : Word) : agreeButReserved (s.advance pc) (t.advance pc) := by
  have hsignal := agree_signal h
  obtain ⟨hregs, hmem, hparams, hprogram, hbudget, hstatus, hexecuted, -, hflags⟩ := h
  unfold State.advance
  rw [hsignal]
  cases hs : s.signal with
  | sequential => exact ⟨by simp only [hregs], hmem, hparams, hprogram, hbudget, hstatus, hexecuted, rfl, hflags⟩
  | branched => exact ⟨hregs, hmem, hparams, hprogram, hbudget, hstatus, hexecuted, rfl, hflags⟩
  | halt => exact ⟨hregs, hmem, hparams, hprogram, hbudget, rfl, hexecuted, rfl, hflags⟩

theorem agreeOut_settle (h : agreeButReserved s t) {o o' : Out} (ho : AgreeOut o o') :
    AgreeOut (settle s o) (settle t o') := by
  cases ho with
  | next hnext =>
    unfold settle
    rw [agree_pc h]
    exact .next (agree_advance hnext _)
  | fault f => exact .next (agree_setStatus h _)
  | refused r => exact .refused r

theorem agreeOut_step (h : agreeButReserved s t) : AgreeOut (step s) (step t) := by
  unfold step loopStep
  rw [agree_status h, agree_fetch h, agree_budgetSpent h]
  by_cases hrunning : s.status = .running
  · rw [if_pos hrunning, if_pos hrunning]
    cases s.fetch with
    | none => exact .next (agree_setStatus h _)
    | some r =>
      by_cases hspent : s.budgetSpent = true
      · simp only [hspent, if_true]
        exact .next (agree_setStatus h _)
      · simp only [hspent]
        exact agreeOut_settle (agree_countFetch h) (agreeOut_execRecord r (agree_countFetch h))
  · rw [if_neg hrunning, if_neg hrunning]
    exact .next h

end Sys2Proof.Proofs
end

section
/-! PROOF. The reserved bits of SR are never read (R25). -/

namespace Sys2Proof.Proofs

open Sys2Proof.Machine Sys2Proof.Laws

/-- Settles O54, by induction on the number of steps: `agreeOut_step` carries the agreement over one step. -/
theorem reservedSrBitsAreNeverRead : Obligations.ReservedSrBitsAreNeverRead := by
  intro s t k h
  induction k generalizing s t with
  | zero => exact h
  | succ k ih =>
    have hstep := agreeOut_step h
    unfold State.steps
    generalize step s = o, step t = o' at hstep ⊢
    cases hstep with
    | next hnext => exact ih _ _ hnext
    | fault => exact h
    | refused => exact h

end Sys2Proof.Proofs
end

section
/-! SUPPORT. The invariant of the machine (`State.Inv`): executing an instruction keeps the memory in canonical form and
below MEM_SIZE, and the advance of the PC uses the signal up. -/

namespace Sys2Proof.Proofs

open Sys2Proof.Machine Sys2Proof.Laws

variable {i : Instr} {s t : State}

/-! ### The advance of the PC -/

@[simp] theorem advance_mem (s : State) (pc : Word) : (s.advance pc).mem = s.mem := by
  unfold State.advance; split <;> rfl
@[simp] theorem advance_sr (s : State) (pc : Word) : (s.advance pc).sr = s.sr := by
  unfold State.advance; split <;> rfl
@[simp] theorem advance_executed (s : State) (pc : Word) : (s.advance pc).executed = s.executed := by
  unfold State.advance; split <;> rfl
@[simp] theorem advance_signal (s : State) (pc : Word) : (s.advance pc).signal = .sequential := by
  unfold State.advance; split <;> simp_all

/-! ### The memory -/

/-- A memory in canonical form whose entries are below `size` (R29, R43). -/
abbrev memoryWithin (m : Memory) (size : Nat) : Prop := Memory.wf m ∧ ∀ e ∈ m, e.1 < size

theorem memoryWithin_write {m : Memory} {size a : Nat} (h : memoryWithin m size) (ha : a < size) (v : Word) :
    memoryWithin (Memory.write m a v) size := by
  refine ⟨write_wf h.1 a v, fun e he => ?_⟩
  rcases mem_write he with rfl | hold
  · exact ha
  · exact h.2 e hold

theorem memoryWithin_writeCells {size : Nat} {l : List (Word × Word)} (h : memoryWithin s.mem size)
    (hl : ∀ w ∈ l, uint w.1 < size) : memoryWithin (s.writeCells l).mem size := by
  refine ⟨writeCells_wf s l h.1, fun e he => ?_⟩
  rcases mem_writeCells he with ⟨w, hw, haddr⟩ | hold
  · rw [haddr]; exact hl w hw
  · exact h.2 e hold

@[simp] theorem writeArith_mem (s : State) (x : Suffix) (d : Nat) (r : ArithResult) : (writeArith x d r s).mem = s.mem := by
  unfold writeArith; split <;> simp

@[simp] theorem writeLogic_mem (s : State) (x : Suffix) (d : Nat) (r : Word) : (writeLogic x d r s).mem = s.mem := by
  unfold writeLogic; split <;> simp

/-- The bounds check of a store (R43) is what keeps the memory below MEM_SIZE. -/
theorem effect_memoryWithin (h : Effect i s t) (hm : memoryWithin s.mem s.params.memSize) :
    memoryWithin t.mem s.params.memSize := by
  cases h with
  | arith => simpa using hm
  | logic => simpa using hm
  | compareArith => simpa using hm
  | compareLogic => simpa using hm
  | load => simpa using hm
  | loadDouble => simpa using hm
  | loadMultiple => simpa using hm
  | branch => simpa using hm
  | branchLink => simpa using hm
  | halt => simpa using hm
  | store _ n v _ _ _ ha =>
    rw [← effectiveAddress_cell] at ha
    exact memoryWithin_write hm ha v
  | storeDouble _ _ n v w _ _ _ ha ha2 =>
    rw [← effectiveAddress_next_cell] at ha2
    rw [← effectiveAddress_cell] at ha
    exact memoryWithin_write (memoryWithin_write hm ha v) ha2 w
  | storeMultiple n list vs hf _ hr ha =>
    rw [transferCells_multiple hf hr] at ha
    exact memoryWithin_writeCells (s := s.setSignal .sequential) hm fun w hw =>
      ha _ (List.mem_map_of_mem (List.of_mem_zip hw).1)

theorem exec_memoryWithin (h : exec i s = .next t) (hm : memoryWithin s.mem s.params.memSize) :
    memoryWithin t.mem s.params.memSize := by
  rcases exec_cases h with ⟨-, rfl⟩ | ⟨-, heffect⟩
  · exact hm
  · exact effect_memoryWithin heffect hm

/-! ### The count of a bounded run -/

/-- A fetch within the budget counts to at most the budget (R123). -/
theorem executed_succ_le_budget (hspent : s.budgetSpent = false) (h : s.budget ≠ 0 → s.executed ≤ s.budget) :
    s.budget ≠ 0 → s.executed + 1 ≤ s.budget := by
  simp only [State.budgetSpent, decide_eq_false_iff_not] at hspent
  omega

end Sys2Proof.Proofs
end

section
/-! PROOF. The invariant of the machine: it holds at reset, and every step keeps it. -/

namespace Sys2Proof.Proofs

open Sys2Proof.Machine Sys2Proof.Laws

/-- Settles O48, by cases on what the step did. The loop's own changes touch the status and the count; an instruction
touches the memory too, and keeps what a run was given. -/
theorem stepKeepsInvariant : Obligations.StepKeepsInvariant := by
  intro s t ⟨hwf, hbound, hparams, hprogram, hbudget, hsignal⟩ h
  cases step_cases h with
  | stays => exact ⟨hwf, hbound, hparams, hprogram, hbudget, hsignal⟩
  | completes => exact ⟨hwf, hbound, hparams, hprogram, hbudget, hsignal⟩
  | exhausts => exact ⟨hwf, hbound, hparams, hprogram, hbudget, hsignal⟩
  | faults r f _ _ hspent =>
    exact ⟨hwf, hbound, hparams, hprogram, executed_succ_le_budget hspent hbudget, hsignal⟩
  | runs r i u _ _ hspent _ hexec =>
    obtain ⟨hp, hprog, hbud, -, hcount⟩ := exec_sameRun hexec
    obtain ⟨hwf', hbound'⟩ := exec_memoryWithin hexec ⟨hwf, hbound⟩
    have hcount' := executed_succ_le_budget hspent hbudget
    simp only [State.Inv, advance_mem, advance_params, advance_program, advance_budget, advance_executed, advance_signal,
      hp, hprog, hbud, hcount]
    exact ⟨hwf', hbound', hparams, hprogram, hcount', trivial⟩
  | passesUnknown r _ _ hspent =>
    exact ⟨hwf, hbound, hparams, hprogram, executed_succ_le_budget hspent hbudget, rfl⟩

/-- Settles O49: reset has no memory entry, no program and no budget, and R9's default parameters. -/
theorem resetHasInvariant : Obligations.ResetHasInvariant := by
  have hparams : State.reset.params.wf := by decide
  have hinv : State.reset.Inv :=
    ⟨reset_mem_wf, fun _ he => (nomatch he), hparams, Nat.zero_le _, fun _ => Nat.le_refl 0, rfl⟩
  exact ⟨hinv, fun _ hr => (nomatch hr), rfl⟩

end Sys2Proof.Proofs
end

section
/-! PROOF. The machine after construction (R34, R230). -/

namespace Sys2Proof.Proofs

open Sys2Proof.Machine Sys2Proof.Laws

/-- The last register of a constructed machine is the program counter. -/
theorem construct_pc (p : Params) (regs : Vector Word 15) (mem : Memory) : (construct p regs mem).pc = 0#32 := by
  simp [State.pc, State.reg, construct]

/-- The others are the launch registers. -/
theorem construct_reg (p : Params) (regs : Vector Word 15) (mem : Memory) {k : Nat} (hk : k < 15) :
    (construct p regs mem).reg k = regs[k] := by
  simp [State.reg, construct, Vector.getElem?_push, hk, hk.ne]

/-- Settles O55: reset is one construction (`reset_eq_construct`), so its PC needs no argument of its own. -/
theorem constructionState : Obligations.ConstructionState := by
  refine ⟨fun p regs mem => ?_, ?_, rfl, rfl, rfl⟩
  · exact ⟨construct_pc p regs mem, rfl, rfl, rfl, rfl, fun k hk => construct_reg p regs mem hk, fun _ => rfl⟩
  · rw [reset_eq_construct]; exact construct_pc ..

end Sys2Proof.Proofs
end

section
/-! SUPPORT. What an instruction can do to SR (R28): keep it, or update the flags as an add or subtract does or as a logical
operation does. -/

namespace Sys2Proof.Proofs

open Sys2Proof.Machine Sys2Proof.Laws

variable {i : Instr} {s t : State}

/-- The instructions that write SR: data processing with suffix S, and the compares (R28). -/
abbrev writesFlags (i : Instr) : Prop := (i.format = .dp3 ∧ i.record.suffix = .s) ∨ i.format = .cmp2

/-- What an instruction can have done to SR. -/
inductive SrEffect (i : Instr) (s t : State) : Prop
  | keeps (hsr : t.sr = s.sr)
  | arith (r : ArithResult) (hw : writesFlags i) (ho : i.record.opcode ∉ logicalOpcodes)
      (hsr : t.sr = (s.setArithFlags r).sr)
  | logic (r : Word) (hw : writesFlags i) (hsr : t.sr = (s.setLogicFlags r).sr)

/-! ### A flag update reads no register, cell or signal -/

@[simp] theorem setArithFlags_writeReg_sr (s : State) (d : Nat) (v : Word) (r : ArithResult) :
    ((s.writeReg d v).setArithFlags r).sr = (s.setArithFlags r).sr := rfl

@[simp] theorem setArithFlags_setSignal_sr (s : State) (g : Signal) (r : ArithResult) :
    ((s.setSignal g).setArithFlags r).sr = (s.setArithFlags r).sr := rfl

@[simp] theorem setLogicFlags_writeReg_sr (s : State) (d : Nat) (v r : Word) :
    ((s.writeReg d v).setLogicFlags r).sr = (s.setLogicFlags r).sr := by
  unfold State.setLogicFlags; rw [writeReg_params]; cases s.params.logicCV <;> rfl

@[simp] theorem setLogicFlags_setSignal_sr (s : State) (g : Signal) (r : Word) :
    ((s.setSignal g).setLogicFlags r).sr = (s.setLogicFlags r).sr := by
  unfold State.setLogicFlags; rw [setSignal_params]; cases s.params.logicCV <;> rfl

/-! ### Every instruction -/

theorem effect_sr (h : Effect i s t) : SrEffect i s t := by
  cases h with
  | arith d _ _ r hf _ _ _ ho =>
    unfold writeArith
    split
    case isTrue hx => exact .arith r (.inl ⟨hf, hx⟩) ho (by simp)
    case isFalse => exact .keeps rfl
  | logic d _ _ r hf =>
    unfold writeLogic
    split
    case isTrue hx => exact .logic r (.inl ⟨hf, hx⟩) (by simp)
    case isFalse => exact .keeps rfl
  | compareArith r hf ho => exact .arith r (.inr hf) ho (by simp)
  | compareLogic r hf => exact .logic r (.inr hf) (by simp)
  | load => exact .keeps rfl
  | store => exact .keeps rfl
  | loadDouble => exact .keeps rfl
  | storeDouble => exact .keeps rfl
  | loadMultiple => exact .keeps (by simp)
  | storeMultiple => exact .keeps (by simp)
  | branch => exact .keeps rfl
  | branchLink => exact .keeps rfl
  | halt => exact .keeps rfl

theorem exec_sr (h : exec i s = .next t) : SrEffect i s t := by
  rcases exec_cases h with ⟨-, rfl⟩ | ⟨-, heffect⟩
  · exact .keeps rfl
  · exact effect_sr heffect

theorem exec_sr_eq (h : exec i s = .next t) (hi : ¬writesFlags i) : t.sr = s.sr := by
  cases exec_sr h with
  | keeps hsr => exact hsr
  | arith _ hw => exact absurd hw hi
  | logic _ hw => exact absurd hw hi

/-! ### The flags and the reserved bits -/

/-- C and V are bits of SR, at positions that no instruction moves. -/
theorem flagsCV_of_sr {u : State} (hsr : t.sr = u.sr) (hparams : t.params = u.params) :
    t.flagC = u.flagC ∧ t.flagV = u.flagV := by
  simp only [State.flagC, State.flagV, hsr, hparams, and_self]

/-- Under PRESERVE a logical flag update writes C and V as they were (R107). -/
theorem setLogicFlags_preserve_flagsCV (hcv : s.params.logicCV = .preserve) (hpos : s.params.flagPos.wf) (r : Word) :
    (s.setLogicFlags r).flagC = s.flagC ∧ (s.setLogicFlags r).flagV = s.flagV := by
  unfold State.setLogicFlags
  rw [hcv]
  exact ⟨withFlags_flagC s _ _ _ _ hpos, withFlags_flagV s _ _ _ _⟩

theorem setLogicFlags_other_bit {k : Nat} (hk : s.notFlagBit k) (r : Word) :
    (s.setLogicFlags r).sr.getLsbD k = s.sr.getLsbD k := by
  unfold State.setLogicFlags
  split <;> exact withFlags_other_bit s _ _ _ _ hk

theorem exec_sameReservedBits (h : exec i s = .next t) : sameReservedBits s t := by
  intro k hk
  cases exec_sr h with
  | keeps hsr => rw [hsr]
  | arith r _ _ hsr => rw [hsr]; exact withFlags_other_bit s _ _ _ _ hk
  | logic r _ hsr => rw [hsr]; exact setLogicFlags_other_bit hk r

end Sys2Proof.Proofs
end

section
/-! PROOF. Who writes SR, and which of its bits (R26, R28, R107). -/

namespace Sys2Proof.Proofs

open Sys2Proof.Machine Sys2Proof.Laws

/-- Settles O13, by cases on what the instruction did to SR: `exec_sr` names the instructions that write it. -/
theorem onlyFlagWritersWriteSr : Obligations.OnlyFlagWritersWriteSr := by
  intro i s t h
  refine ⟨fun hf hx => exec_sr_eq h ?_, fun hdp3 hcmp2 => exec_sr_eq h ?_, fun hop hcv hpos => ?_⟩
  · rintro (⟨-, hs⟩ | hcmp)
    · exact hx hs
    · rw [hf] at hcmp; cases hcmp
  · rintro (⟨hf, -⟩ | hf)
    · exact hdp3 hf
    · exact hcmp2 hf
  · have hparams : t.params = s.params := (exec_sameRun h).1
    cases exec_sr h with
    | keeps hsr => exact flagsCV_of_sr hsr hparams
    | arith _ _ ho => exact absurd hop ho
    | logic r _ hsr =>
      obtain ⟨hc, hv⟩ := flagsCV_of_sr hsr (by rw [hparams, setLogicFlags_params])
      rw [hc, hv]
      exact setLogicFlags_preserve_flagsCV hcv hpos r

/-- Settles O14, by cases on what the step did: only an instruction it runs writes SR. -/
theorem reservedSrBitsNeverChange : Obligations.ReservedSrBitsNeverChange := by
  intro s t h k hk
  cases step_cases h with
  | stays => rfl
  | completes => rfl
  | exhausts => rfl
  | faults => rfl
  | runs r i u _ _ _ _ hexec =>
    rw [advance_sr]
    exact exec_sameReservedBits hexec k hk
  | passesUnknown => rfl

end Sys2Proof.Proofs
end

section
/-! SUPPORT. Which registers an instruction writes and what it then tells the loop (R20 to R22, R87, R121), read off the
operand roles by `writtenRegs`. -/

namespace Sys2Proof.Proofs

open Sys2Proof.Machine Sys2Proof.Laws

variable {i : Instr} {s t : State}

/-! ### The registers written, format by format -/

theorem writtenRegs_dp3 {d : Nat} {l : List Nat} (hf : i.format = .dp3) (hr : i.record.regs = d :: l) :
    writtenRegs i = [d] := by
  unfold writtenRegs; rw [hf, hr]

theorem writtenRegs_cmp2 (hf : i.format = .cmp2) : writtenRegs i = [] := by
  unfold writtenRegs; rw [hf]

theorem writtenRegs_load {r : Nat} {l : List Nat} (hf : i.format = .ls) (ho : i.record.opcode = .ldr)
    (hr : i.record.regs = r :: l) : writtenRegs i = [r] := by
  unfold writtenRegs; rw [hf, ho, hr]

theorem writtenRegs_loadDouble {r r2 : Nat} {l : List Nat} (hf : i.format = .lsd) (ho : i.record.opcode = .ldr)
    (hr : i.record.regs = r :: r2 :: l) : writtenRegs i = [r, r2] := by
  unfold writtenRegs; rw [hf, ho, hr]

theorem writtenRegs_loadMultiple {n : Nat} {l : List Nat} (hf : i.format = .lsm) (ho : i.record.opcode = .ldm)
    (hr : i.record.regs = n :: l) : writtenRegs i = l := by
  unfold writtenRegs; rw [hf, ho, hr]

theorem writtenRegs_store (ho : i.record.opcode = .str ∨ i.record.opcode = .stm) : writtenRegs i = [] := by
  cases i <;> simp_all [Instr.record, writtenRegs, Instr.format]

theorem writtenRegs_branch (hf : i.format = .br) (ho : i.record.opcode = .b) : writtenRegs i = [15] := by
  unfold writtenRegs; rw [hf, ho]

theorem writtenRegs_branchLink (hf : i.format = .br) (ho : i.record.opcode = .bl) : writtenRegs i = [14, 15] := by
  unfold writtenRegs; rw [hf, ho]

theorem writtenRegs_sys (hf : i.format = .sys) : writtenRegs i = [] := by
  unfold writtenRegs; rw [hf]

/-- Only BL writes a register that its record does not list, the PC of a branch aside (R22). -/
theorem mem_writtenRegs {k : Nat} (h : k ∈ writtenRegs i) :
    i.record.opcode = .bl ∨ k ∈ i.record.regs ∨ k = 15 := by
  unfold writtenRegs at h
  split at h <;> simp_all
  tauto

/-- SWI is the one instruction of its format. -/
theorem opcode_eq_swi_iff : i.record.opcode = .swi ↔ i.format = .sys := by
  cases i <;> simp [Instr.record, Instr.format]

/-! ### The signal of a list of written registers -/

theorem signalOf_nil : signalOf [] = .sequential := rfl

theorem signalOf_singleton (d : Nat) : signalOf [d] = if d = 15 then .branched else .sequential := by
  simp [signalOf, eq_comm]

theorem signalOf_pair (d e : Nat) : signalOf [d, e] = if e = 15 then .branched else signalOf [d] := by
  by_cases h : e = 15 <;> simp [signalOf, h, eq_comm]

theorem signalOf_eq_branched_iff {written : List Nat} : signalOf written = .branched ↔ 15 ∈ written := by
  by_cases h : 15 ∈ written <;> simp [signalOf, h]

theorem signalOf_ne_halt {written : List Nat} : signalOf written ≠ .halt := by
  by_cases h : 15 ∈ written <;> simp [signalOf, h]

/-! ### Register writes -/

theorem sameRegsBut_writeReg (s : State) (d : Nat) (v : Word) : sameRegsBut s (s.writeReg d v) [d] := fun _ _ hj =>
  reg_writeReg_other s v (by simpa using hj)

theorem sameRegsBut_writeReg_writeReg (s : State) (d e : Nat) (v w : Word) :
    sameRegsBut s ((s.writeReg d v).writeReg e w) [d, e] := by
  intro j _ hj
  obtain ⟨hd, he⟩ : j ≠ d ∧ j ≠ e := by simpa using hj
  rw [reg_writeReg_other _ w he, reg_writeReg_other s v hd]

theorem sameRegsBut_writeRegs (s : State) (list : List Nat) (vs : List Word) :
    sameRegsBut s (s.writeRegs (list.zip vs)) list := fun _ _ hj =>
  reg_writeRegs_other s _ fun _ he heq => hj (heq ▸ (List.of_mem_zip he).1)

@[simp] theorem writeArith_reg (s : State) (x : Suffix) (d : Nat) (r : ArithResult) (j : Nat) :
    (writeArith x d r s).reg j = (s.writeReg d r.value).reg j := by
  unfold writeArith; split <;> simp

@[simp] theorem writeLogic_reg (s : State) (x : Suffix) (d : Nat) (r : Word) (j : Nat) :
    (writeLogic x d r s).reg j = (s.writeReg d r).reg j := by
  unfold writeLogic; split <;> simp

@[simp] theorem writeArith_signal (s : State) (x : Suffix) (d : Nat) (r : ArithResult) :
    (writeArith x d r s).signal = (s.writeReg d r.value).signal := by
  unfold writeArith; split <;> simp

@[simp] theorem writeLogic_signal (s : State) (x : Suffix) (d : Nat) (r : Word) :
    (writeLogic x d r s).signal = (s.writeReg d r).signal := by
  unfold writeLogic; split <;> simp

/-- Repeated writes are a branch exactly when R15 is among the registers written. -/
theorem writeRegs_signal (s : State) (l : List (Nat × Word)) :
    (s.writeRegs l).signal = if 15 ∈ l.map Prod.fst then .branched else s.signal := by
  induction l generalizing s with
  | nil => simp [State.writeRegs]
  | cons e l ih =>
    obtain ⟨d, v⟩ := e
    rw [State.writeRegs, ih, writeReg_signal]
    by_cases hl : 15 ∈ l.map Prod.fst
    · simp only [hl, List.map_cons, List.mem_cons, or_true, if_true]
    · by_cases hd : d = 15 <;> simp [hl, hd, eq_comm]

/-! ### Every instruction whose condition holds -/

theorem effect_sameRegsBut (h : Effect i s t) : sameRegsBut s t (writtenRegs i) := by
  cases h with
  | arith d _ _ r hf hr =>
    rw [writtenRegs_dp3 hf hr]
    intro j hlt hj
    rw [writeArith_reg]
    exact sameRegsBut_writeReg _ d r.value j hlt hj
  | logic d _ _ r hf hr =>
    rw [writtenRegs_dp3 hf hr]
    intro j hlt hj
    rw [writeLogic_reg]
    exact sameRegsBut_writeReg _ d r j hlt hj
  | compareArith => intro j _ _; simp
  | compareLogic => intro j _ _; simp
  | load r _ v hf ho hr =>
    rw [writtenRegs_load hf ho hr]
    exact sameRegsBut_writeReg (s.setSignal .sequential) r v
  | store => intro j _ _; simp
  | loadDouble r r2 _ v w hf ho hr =>
    rw [writtenRegs_loadDouble hf ho hr]
    exact sameRegsBut_writeReg_writeReg (s.setSignal .sequential) r r2 v w
  | storeDouble => intro j _ _; simp
  | loadMultiple _ list vs hf ho hr =>
    rw [writtenRegs_loadMultiple hf ho hr]
    exact sameRegsBut_writeRegs (s.setSignal .sequential) list vs
  | storeMultiple => intro j _ _; simp
  | branch v hf ho =>
    rw [writtenRegs_branch hf ho]
    exact sameRegsBut_writeReg (s.setSignal .sequential) 15 v
  | branchLink v w hf ho =>
    rw [writtenRegs_branchLink hf ho]
    exact sameRegsBut_writeReg_writeReg (s.setSignal .sequential) 14 15 v w
  | halt => intro j _ _; simp

/-- The loop is told of a branch when R15 is written (R121), and of a halt by SWI alone (R193). -/
theorem effect_signal (h : Effect i s t) :
    t.signal = if i.format = .sys then .halt else signalOf (writtenRegs i) := by
  cases h with
  | arith d _ _ r hf hr => simp [writtenRegs_dp3 hf hr, hf, signalOf_singleton]
  | logic d _ _ r hf hr => simp [writtenRegs_dp3 hf hr, hf, signalOf_singleton]
  | compareArith r hf => simp [writtenRegs_cmp2 hf, hf, signalOf_nil]
  | compareLogic r hf => simp [writtenRegs_cmp2 hf, hf, signalOf_nil]
  | load r _ v hf ho hr => simp [writtenRegs_load hf ho hr, hf, signalOf_singleton]
  | store _ _ _ hf ho => simp [writtenRegs_store (.inl ho), hf, signalOf_nil]
  | loadDouble r r2 _ v w hf ho hr => simp [writtenRegs_loadDouble hf ho hr, hf, signalOf_pair, signalOf_singleton]
  | storeDouble _ _ _ _ _ hf ho => simp [writtenRegs_store (.inl ho), hf, signalOf_nil]
  | loadMultiple _ list vs hf ho hr _ hv =>
    simp [writtenRegs_loadMultiple hf ho hr, hf, writeRegs_signal, List.map_fst_zip hv.ge]
  | storeMultiple _ _ _ hf ho => simp [writtenRegs_store (.inr ho), hf, signalOf_nil]
  | branch v hf ho => simp [writtenRegs_branch hf ho, hf, signalOf_singleton]
  | branchLink v w hf ho => simp [writtenRegs_branchLink hf ho, hf, signalOf_pair]
  | halt hf => simp [hf]

end Sys2Proof.Proofs
end

section
/-! PROOF. Only named registers change (R20 to R22, R87, R121). -/

namespace Sys2Proof.Proofs

open Sys2Proof.Machine Sys2Proof.Laws

/-- Settles O52, by cases on the format: SWI writes no register and halts, and of every other instruction the signal says
whether R15 was written (`effect_signal`). -/
theorem onlyNamedRegistersChange : Obligations.OnlyNamedRegistersChange := by
  intro i s t h
  refine ⟨fun hcond => ?_, fun h14 => ?_⟩
  · rcases exec_cases h with ⟨hfailed, -⟩ | ⟨-, heffect⟩
    · rw [hcond] at hfailed; cases hfailed
    · refine ⟨effect_sameRegsBut heffect, ?_⟩
      rw [opcode_eq_swi_iff, effect_signal heffect]
      by_cases hsys : i.format = .sys
      · simp [hsys, writtenRegs_sys hsys]
      · simp only [hsys, if_false, signalOf_eq_branched_iff, signalOf_ne_halt, iff_self, and_self]
  · rcases mem_writtenRegs h14 with hbl | hlisted | hpc
    · exact .inl hbl
    · exact .inr hlisted
    · cases hpc

end Sys2Proof.Proofs
end

section
/-! SUPPORT. What an instruction can do to memory (R41, R43, R48): keep it, or write cells that its operand roles address
(`transferCells`) below MEM_SIZE. -/

namespace Sys2Proof.Proofs

open Sys2Proof.Machine Sys2Proof.Laws

variable {i : Instr} {s t : State}

/-! ### The cells addressed, format by format -/

theorem transferCells_single {r n : Nat} (hf : i.format = .ls) (hr : i.record.regs = [r, n]) :
    transferCells s i = [expectedCell s n i.record.imm] := by
  unfold transferCells; rw [hf, hr]

theorem transferCells_double {r r2 n : Nat} (hf : i.format = .lsd) (hr : i.record.regs = [r, r2, n]) :
    transferCells s i = [expectedCell s n i.record.imm, (expectedCell s n i.record.imm + 1) % 2 ^ 32] := by
  unfold transferCells; rw [hf, hr]

/-! ### Every instruction -/

/-- What an instruction can have done to memory. -/
inductive MemEffect (i : Instr) (s t : State) : Prop
  | keeps (hmem : t.mem = s.mem)
  | stores (l : List (Word × Word)) (hi : isStore i) (hmem : t.mem = ((s.setSignal .sequential).writeCells l).mem)
      (hl : ∀ w ∈ l, uint w.1 ∈ transferCells s i ∧ uint w.1 < s.params.memSize)

theorem effect_mem (h : Effect i s t) : MemEffect i s t := by
  cases h with
  | arith => exact .keeps (by simp)
  | logic => exact .keeps (by simp)
  | compareArith => exact .keeps rfl
  | compareLogic => exact .keeps (by simp)
  | load => exact .keeps rfl
  | loadDouble => exact .keeps rfl
  | loadMultiple => exact .keeps (by simp)
  | branch => exact .keeps rfl
  | branchLink => exact .keeps rfl
  | halt => exact .keeps rfl
  | store _ n v hf ho hr ha =>
    refine .stores [(effectiveAddress s n (i.record.imm.getD 0#32), v)] (.inl ho) rfl ?_
    simpa [transferCells_single hf hr, effectiveAddress_cell] using ha
  | storeDouble _ _ n v w hf ho hr ha ha2 =>
    refine .stores [(effectiveAddress s n (i.record.imm.getD 0#32), v),
      (effectiveAddress s n (i.record.imm.getD 0#32) + 1#32, w)] (.inl ho) rfl ?_
    simp only [transferCells_double hf hr, List.mem_cons, List.not_mem_nil, or_false, forall_eq_or_imp, forall_eq,
      effectiveAddress_cell, effectiveAddress_next_cell, true_or, or_true, true_and]
    exact ⟨ha, ha2⟩
  | storeMultiple n list vs hf ho hr ha =>
    refine .stores _ (.inr ho) rfl fun w hw => ?_
    have haddressed : uint w.1 ∈ transferCells s i := by
      rw [transferCells_multiple hf hr]
      exact List.mem_map_of_mem (List.of_mem_zip hw).1
    exact ⟨haddressed, ha _ haddressed⟩

theorem exec_mem (h : exec i s = .next t) : MemEffect i s t := by
  rcases exec_cases h with ⟨-, rfl⟩ | ⟨-, heffect⟩
  · exact .keeps rfl
  · exact effect_mem heffect

/-- A cell that changed is one that a store addresses, below MEM_SIZE. -/
theorem exec_changedCell (h : exec i s = .next t) {a : Nat} (ha : Memory.read t.mem a ≠ Memory.read s.mem a) :
    isStore i ∧ a ∈ transferCells s i ∧ a < s.params.memSize := by
  cases exec_mem h with
  | keeps hmem => exact absurd (by rw [hmem]) ha
  | stores l hi hmem hl =>
    have hwritten : ∃ w ∈ l, a = uint w.1 := by
      by_contra hnone
      exact ha (hmem ▸ read_writeCells_other (s.setSignal .sequential) l fun w hw heq => hnone ⟨w, hw, heq⟩)
    obtain ⟨w, hw, rfl⟩ := hwritten
    exact ⟨hi, hl w hw⟩

end Sys2Proof.Proofs
end

section
/-! PROOF. Only stores change memory (R41, R43, R48). -/

namespace Sys2Proof.Proofs

open Sys2Proof.Machine Sys2Proof.Laws

/-- Settles O53: each clause denies, of a cell that changed, one thing that `exec_changedCell` says of it. -/
theorem onlyStoresChangeMemory : Obligations.OnlyStoresChangeMemory := by
  intro i s t h
  refine ⟨fun a hother => ?_, fun hnostore a _ => ?_, fun a hchanged => (exec_changedCell h hchanged).2.2⟩
  · by_contra hchanged
    exact hother (exec_changedCell h hchanged).2.1
  · by_contra hchanged
    exact hnostore (exec_changedCell h hchanged).1

end Sys2Proof.Proofs
end

section
/-! SUPPORT. A load through the base and offset of a store just completed (R51), and the low bits that the zero-extending
loads keep (R162, R163). -/

namespace Sys2Proof.Proofs

open Sys2Proof.Machine Sys2Proof.Laws

theorem uint_zeroByte (w : Word) : uint (zeroByte w) = uint w % 2 ^ 8 := by
  simp only [zeroByte, uint, BitVec.toNat_setWidth]; omega

theorem uint_zeroHalf (w : Word) : uint (zeroHalf w) = uint w % 2 ^ 16 := by
  simp only [zeroHalf, uint, BitVec.toNat_setWidth]; omega

@[simp] theorem cell_writeCell_same (s : State) (a v : Word) : (s.writeCell a v).cell a = v :=
  read_write_same s.mem (uint a) v

@[simp] theorem effectiveAddress_writeCell (s : State) (a v : Word) (n : Nat) (offset : Word) :
    effectiveAddress (s.writeCell a v) n offset = effectiveAddress s n offset := rfl

variable {c : Cond} {r r' n : Nat} {offset : Option Word} {s u : State}

/-- A store that passes the checks of R203 completes. -/
theorem storeCell_completes (hc : s.meets c = true) (hr : r < 16) (hn : n < 16)
    (ha : expectedCell s n offset < s.params.memSize) (place : Word → Word → Word) :
    ∃ u, storeCell c [r, n] offset s place = .next u := by
  rw [← effectiveAddress_cell] at ha
  exact ⟨_, storeCell_next (o := ⟨r, n, offset.getD 0#32⟩) hc rfl (by simp [hr, hn]) ha⟩

/-- The store changes neither the base register, nor the flags the condition reads, nor MEM_SIZE: the load of any register
passes the same checks and finds the stored word. -/
theorem loadCell_after_storeCell {place : Word → Word → Word} (hc : s.meets c = true)
    (hstore : storeCell c [r, n] offset s place = .next u) (hr' : r' < 16) (extend : Word → Word) :
    ∃ v, loadCell c [r', n] offset u extend = .next v ∧
      v.reg r' = extend (place (s.cell (effectiveAddress s n (offset.getD 0#32))) (s.reg r)) := by
  rcases storeCell_cases hstore with ⟨hfailed, -⟩ | ⟨-, o, ho, hregs, ha, rfl⟩
  · rw [hc] at hfailed; cases hfailed
  · cases ho
    refine ⟨_, loadCell_next (o := ⟨r', n, offset.getD 0#32⟩) (by simpa using hc) rfl ?_ (by simpa using ha), ?_⟩
    · simp [hr', hregs n (by simp)]
    · rw [reg_writeReg_same _ _ hr']
      simp

end Sys2Proof.Proofs
end

section
/-! PROOF. A load of a cell just stored (R45, R51). -/

namespace Sys2Proof.Proofs

open Sys2Proof.Machine Sys2Proof.Laws

/-- Settles O34: STR is the store that places the register's word itself, so `loadCell_after_storeCell` gives each load the
extension of that word. -/
theorem storeThenLoadReturnsValue : Obligations.StoreThenLoadReturnsValue := by
  intro s c m f t t' n offset hc ht ht' hn ha
  obtain ⟨u, hstore⟩ := storeCell_completes hc ht hn ha fun _ v => v
  have hload := loadCell_after_storeCell hc hstore ht'
  refine ⟨u, hstore, hload id, ?_, ?_⟩
  · obtain ⟨v, hexec, hv⟩ := hload zeroByte
    exact ⟨v, hexec, by rw [hv, uint_zeroByte]⟩
  · obtain ⟨v, hexec, hv⟩ := hload zeroHalf
    exact ⟨v, hexec, by rw [hv, uint_zeroHalf]⟩

end Sys2Proof.Proofs
end

section
/-! SUPPORT. Texts and numbers: the decimal digits the encoder writes are read back as the number (R75, R77), each operand
text is a token of its kind (R74), and joined operand texts split into themselves (R73). -/

namespace Sys2Proof.Proofs

/-! ### Decimal numbers -/

theorem isDigit_digitChar {d : Nat} (h : d < 10) : isDigit (digitChar d) = true := by
  have hall : ∀ d < 10, isDigit (digitChar d) = true := by decide
  exact hall d h

theorem toNat_digitChar {d : Nat} (h : d < 10) : (digitChar d).toNat - 48 = d := by
  have hall : ∀ d < 10, (digitChar d).toNat - 48 = d := by decide
  exact hall d h

theorem decValue_append_digit (ds : Text) (c : Char) : decValue (ds ++ [c]) = 10 * decValue ds + (c.toNat - 48) := by
  simp [decValue, List.foldl_append]

theorem isDecimal_and_decValue_decDigits (fuel n : Nat) (h : n < fuel) :
    isDecimal (decDigits fuel n) = true ∧ decValue (decDigits fuel n) = n := by
  induction fuel generalizing n with
  | zero => omega
  | succ fuel ih =>
    unfold decDigits
    split
    next hn => simp [isDecimal, isDigit_digitChar hn, decValue, toNat_digitChar hn]
    next hn =>
      obtain ⟨hdec, hval⟩ := ih (n / 10) (by omega)
      have hlast : n % 10 < 10 := Nat.mod_lt _ (by decide)
      have hdigits : (decDigits fuel (n / 10)).all isDigit = true := by
        simp only [isDecimal, Bool.and_eq_true] at hdec; exact hdec.2
      constructor
      · simp [isDecimal, isDigit_digitChar hlast, List.all_append, hdigits]
      · rw [decValue_append_digit, hval, toNat_digitChar hlast]; omega

@[simp] theorem isDecimal_decText (n : Nat) : isDecimal (decText n) = true :=
  (isDecimal_and_decValue_decDigits _ n (by omega)).1
@[simp] theorem decValue_decText (n : Nat) : decValue (decText n) = n :=
  (isDecimal_and_decValue_decDigits _ n (by omega)).2

theorem isDecimal_iff {ds : Text} : isDecimal ds = true ↔ ds ≠ [] ∧ ∀ c ∈ ds, isDigit c = true := by
  simp [isDecimal]

theorem isDigit_of_mem_decText {n : Nat} {c : Char} (h : c ∈ decText n) : isDigit c = true :=
  (isDecimal_iff.1 (isDecimal_decText n)).2 c h

theorem decText_injective {m n : Nat} (h : decText m = decText n) : m = n := by
  rw [← decValue_decText m, h, decValue_decText]

/-- A character of a class is none of the characters outside it. -/
theorem ne_of_class {p : Char → Bool} {c d : Char} (hc : p c = true) (hd : p d = false) : c ≠ d := by
  rintro rfl; rw [hc] at hd; cases hd

/-! ### The kind of an operand text -/

@[simp] theorem classifyToken_registerText (i : Nat) : classifyToken (registerText i) = some (.register i) := by
  simp [classifyToken, registerText, parseRegister]

/-- Digits alone are a decimal magnitude: a hexadecimal one has a letter in second place. -/
theorem parseMagnitude_of_isDecimal {ds : Text} (h : isDecimal ds = true) : parseMagnitude ds = some (decValue ds) := by
  unfold parseMagnitude
  split
  next x hs =>
    have hx : isDigit x = true := (isDecimal_iff.1 h).2 x (by simp)
    simp [h, ne_of_class hx (d := 'x') rfl, ne_of_class hx (d := 'X') rfl]
  next => simp [h]

theorem parseImmediate_negative {ds : Text} (h : isDecimal ds = true) :
    parseImmediate ('#' :: '-' :: ds) = some (-(decValue ds : Int)) := by
  simp [parseImmediate, parseMagnitude_of_isDecimal h]

theorem parseImmediate_nonnegative {ds : Text} (h : isDecimal ds = true) :
    parseImmediate ('#' :: ds) = some (decValue ds : Int) := by
  have hsign : ∀ rest, ds ≠ '-' :: rest := by
    rintro rest rfl
    exact ne_of_class ((isDecimal_iff.1 h).2 '-' (by simp)) rfl rfl
  rw [parseImmediate.eq_2 ds hsign, parseMagnitude_of_isDecimal h]; rfl

theorem parseImmediate_immediateText (w : Word) : parseImmediate (immediateText w) = some (sint w) := by
  unfold immediateText
  split
  next hneg => rw [parseImmediate_negative (isDecimal_decText _), decValue_decText]; congr 1; omega
  next hpos => rw [parseImmediate_nonnegative (isDecimal_decText _), decValue_decText]; congr 1; omega

theorem immediateText_eq_hash_cons (w : Word) : ∃ ds, immediateText w = '#' :: ds := by
  unfold immediateText; split <;> exact ⟨_, rfl⟩

@[simp] theorem classifyToken_immediateText (w : Word) :
    classifyToken (immediateText w) = some (.immediate (sint w)) := by
  obtain ⟨ds, hds⟩ := immediateText_eq_hash_cons w
  have hreg : parseRegister (immediateText w) = none := by rw [hds]; rfl
  have hrange : parseRange (immediateText w) = none := by rw [hds]; rfl
  simp [classifyToken, hreg, hrange, parseImmediate_immediateText]

theorem isIdentifier_labelText (k : Nat) : isIdentifier (labelText k) = true := by
  have hrest : ∀ c ∈ decText k, isIdentRest c = true := fun c hc => by
    simp [isIdentRest, isDigit_of_mem_decText hc]
  simp only [isIdentifier, labelText, Bool.and_eq_true, List.all_eq_true]
  exact ⟨by decide, hrest⟩

theorem parseRegister_labelText (k : Nat) : parseRegister (labelText k) = none := rfl

@[simp] theorem classifyToken_labelText (k : Nat) : classifyToken (labelText k) = some (.identifier (labelText k)) := by
  have hrange : parseRange (labelText k) = none := rfl
  have himm : parseImmediate (labelText k) = none := rfl
  simp [classifyToken, parseRegister_labelText, hrange, himm, isIdentifier_labelText]

theorem labelText_injective {m n : Nat} (h : labelText m = labelText n) : m = n :=
  decText_injective (List.cons.inj h).2

theorem classifyTokens_append {ts us : List Text} {ks ls : List Token} (ht : classifyTokens ts = some ks)
    (hu : classifyTokens us = some ls) : classifyTokens (ts ++ us) = some (ks ++ ls) := by
  induction ts generalizing ks with
  | nil => cases ht; exact hu
  | cons t ts ih =>
    simp only [classifyTokens] at ht
    split at ht
    next k ks' hk hks => cases ht; simp [classifyTokens, hk, ih hks]
    next => cases ht

theorem classifyTokens_map {α : Type} {f : α → Text} {g : α → Token} (h : ∀ a, classifyToken (f a) = some (g a))
    (as : List α) : classifyTokens (as.map f) = some (as.map g) := by
  induction as with
  | nil => rfl
  | cons a as ih => simp [classifyTokens, h, ih]

/-! ### Characters of operand texts -/

/-- A character of an operand text that the encoder writes. -/
def isOperandChar (c : Char) : Bool := isDigit c || ['r', 'L', '#', '-'].contains c

theorem isSeparator_of_isOperandChar {c : Char} (h : isOperandChar c = true) : isSeparator c = false := by
  simp only [isSeparator, isWs, Bool.or_eq_false_iff, beq_eq_false_iff_ne]
  refine ⟨⟨⟨⟨⟨⟨?_, ?_⟩, ?_⟩, ?_⟩, ?_⟩, ?_⟩, ?_⟩ <;> exact ne_of_class h (by decide)

/-- A nonempty text of such characters. -/
def IsOperandText (t : Text) : Prop := t ≠ [] ∧ ∀ c ∈ t, isOperandChar c = true

theorem isOperandText_cons_decText {p : Char} (hp : isOperandChar p = true) (n : Nat) : IsOperandText (p :: decText n) := by
  refine ⟨by simp, fun c hc => ?_⟩
  rcases List.mem_cons.1 hc with rfl | hc
  · exact hp
  · simp [isOperandChar, isDigit_of_mem_decText hc]

theorem isOperandText_cons {p : Char} {t : Text} (hp : isOperandChar p = true) (ht : IsOperandText t) :
    IsOperandText (p :: t) := ⟨by simp, by simpa [hp] using ht.2⟩

theorem isOperandText_registerText (i : Nat) : IsOperandText (registerText i) := isOperandText_cons_decText (by decide) i
theorem isOperandText_labelText (k : Nat) : IsOperandText (labelText k) := isOperandText_cons_decText (by decide) k

theorem isOperandText_immediateText (w : Word) : IsOperandText (immediateText w) := by
  unfold immediateText
  split
  · exact isOperandText_cons (by decide) (isOperandText_cons_decText (by decide) _)
  · exact isOperandText_cons_decText (by decide) _

/-! ### Splitting joined operands -/

theorem splitTokens_append {t : Text} (ht : ∀ c ∈ t, isSeparator c = false) (cur rest : Text) :
    splitTokens cur (t ++ rest) = splitTokens (t.reverse ++ cur) rest := by
  induction t generalizing cur with
  | nil => rfl
  | cons c t ih =>
    rw [List.forall_mem_cons] at ht
    simp [splitTokens, ht.1, ih ht.2]

theorem splitTokens_joinOperands {ts : List Text} (h : ∀ t ∈ ts, IsOperandText t) :
    splitTokens [] (joinOperands ts) = ts := by
  have hsplit : ∀ t ∈ ts, ∀ rest, splitTokens [] (t ++ rest) = splitTokens t.reverse rest := fun t ht rest => by
    simpa using splitTokens_append (fun c hc => isSeparator_of_isOperandChar ((h t ht).2 c hc)) [] rest
  induction ts using joinOperands.induct with
  | case1 => rfl
  | case2 t => simpa [joinOperands, splitTokens, (h t (by simp)).1] using hsplit t (by simp) []
  | case3 t ts hne ih =>
    rw [List.forall_mem_cons] at h
    have hrest := ih h.2 fun u hu => hsplit u (List.mem_cons_of_mem t hu)
    rw [joinOperands.eq_3 t ts hne, List.append_assoc, hsplit t (by simp)]
    simp [splitTokens, isSeparator, isWs, h.1.1, hrest]

theorem mem_joinOperands {ts : List Text} (h : ∀ t ∈ ts, IsOperandText t) {c : Char} (hc : c ∈ joinOperands ts) :
    isOperandChar c = true ∨ c = ',' ∨ c = ' ' := by
  induction ts using joinOperands.induct with
  | case1 => cases hc
  | case2 t => exact .inl ((h t (by simp)).2 c hc)
  | case3 t ts hne ih =>
    rw [List.forall_mem_cons] at h
    rw [joinOperands.eq_3 t ts hne] at hc
    simp only [List.mem_append, List.mem_cons, List.not_mem_nil, or_false] at hc
    rcases hc with (hc | hc) | hc
    · exact .inl (h.1.2 c hc)
    · exact .inr hc
    · exact ih h.2 hc

/-- The operand tail that the encoder writes has no comment, and its tokens are the operand texts. -/
theorem operandTokens_joinOperands {ts : List Text} (h : ∀ t ∈ ts, IsOperandText t) :
    operandTokens (' ' :: joinOperands ts) = ts := by
  have hcomment : ∀ c ∈ ' ' :: joinOperands ts, (c != ';') = true := by
    intro c hc
    rcases List.mem_cons.1 hc with rfl | hc
    · rfl
    · rcases mem_joinOperands h hc with hc | rfl | rfl
      · simpa using ne_of_class hc (d := ';') (by decide)
      · rfl
      · rfl
  rw [operandTokens, List.takeWhile_eq_self_iff.2 hcomment]
  simpa [splitTokens, isSeparator, isWs] using splitTokens_joinOperands h

end Sys2Proof.Proofs
end

section
/-! SUPPORT. The mnemonic token (R66 to R72): the greedy decoder takes off the token that the encoder writes the four fields
it was written from, and the fields it takes off any token are ones the encoder can write. -/

namespace Sys2Proof.Proofs

/-- The fields of a record that its mnemonic token spells. -/
def mnemonicOf (r : Record) : Mnemonic := ⟨r.opcode, r.cond, r.mode, r.suffix⟩

/-- Fields that some token spells: an opcode and a condition of the tables, and no B that reads as a BL (R89). -/
structure Spellable (f : Mnemonic) : Prop where
  opcode : ∀ n, f.opcode ≠ .unknown n
  cond : f.cond.mapped = true
  noClash : f.opcode = .b → f.cond.clashesWithBl = false

theorem opcode_ne_unknown (i : Instr) (n : Nat) : i.record.opcode ≠ .unknown n := by
  cases i <;> simp [Instr.record]

/-- A well-formed instruction is one whose operands fit and whose mnemonic can be spelled. -/
theorem wf_iff {i : Instr} :
    i.wf = true ↔ i.format.fits i.record.regs.length i.record.imm.isSome = true ∧ Spellable (mnemonicOf i.record) := by
  simp only [Instr.wf, Bool.and_eq_true, Bool.not_eq_true', Bool.and_eq_false_imp, beq_iff_eq, and_assoc]
  exact and_congr_right fun _ =>
    ⟨fun ⟨hc, hb⟩ => ⟨opcode_ne_unknown i, hc, hb⟩, fun h => ⟨h.cond, h.noClash⟩⟩

/-! ### Taking a field -/

theorem mem_of_lookup_eq_some {α : Type} {table : List (Text × α)} {name : Text} {a : α}
    (h : table.lookup name = some a) : (name, a) ∈ table := by
  obtain ⟨before, after, htable, -⟩ := List.lookup_eq_some_iff.1 h
  simp [htable]

theorem takeField_eq_some {α : Type} {table : List (Text × α)} {k : Nat} {m rest : Text} {a : α}
    (h : takeField table k m = some (a, rest)) :
    ∃ name, (name, a) ∈ table ∧ name.length = k ∧ m = name ++ rest := by
  unfold takeField at h
  split at h
  next hk =>
    obtain ⟨b, hb, heq⟩ := Option.map_eq_some_iff.1 h
    cases heq
    exact ⟨m.take k, mem_of_lookup_eq_some hb, by simp [hk], (List.take_append_drop k m).symm⟩
  next => cases h

/-! ### The fields that the encoder writes -/

theorem takeOpcode_threeLetters {op : Opcode} (hop : ∀ n, op ≠ .unknown n) (hb : op ≠ .b) (hbl : op ≠ .bl) (rest : Text) :
    takeOpcode (nameIn opcodeNames op ++ rest) = some (op, rest) := by
  cases op with
  | unknown n => exact absurd rfl (hop n)
  | b => exact absurd rfl hb
  | bl => exact absurd rfl hbl
  | _ => rfl

theorem takeOpcode_bl (rest : Text) : takeOpcode ('B' :: 'L' :: rest) = some (.bl, rest) := by
  cases rest <;> simp [takeOpcode, takeField, opcodeNames, List.lookup]

/-- After a B, the longer names `BL` and `BIC` are tried first (R67). -/
theorem takeOpcode_b {rest : Text} (hl : ∀ cs, rest ≠ 'L' :: cs) (hic : ∀ cs, rest ≠ 'I' :: 'C' :: cs) :
    takeOpcode ('B' :: rest) = some (.b, rest) := by
  match rest with
  | [] => rfl
  | [c] =>
    have hc : (c == 'L') = false := beq_eq_false_iff_ne.2 fun h => hl [] (by rw [h])
    simp [takeOpcode, takeField, opcodeNames, List.lookup, hc]
  | c :: d :: cs =>
    have hc : (c == 'L') = false := beq_eq_false_iff_ne.2 fun h => hl (d :: cs) (by rw [h])
    have hd : (c == 'I' && d == 'C') = false := by
      simp only [Bool.and_eq_false_imp, beq_iff_eq, beq_eq_false_iff_ne]
      exact fun h h' => hic cs (by rw [h, h'])
    simp [takeOpcode, takeField, opcodeNames, List.lookup, hc, hd]

theorem takeCond_name {c : Cond} (hc : c.mapped = true) (hne : c ≠ .none) (rest : Text) :
    takeCond (nameIn condNames c ++ rest) = (c, rest) := by
  cases c with
  | none => exact absurd rfl hne
  | unmapped n => cases hc
  | _ => rfl

/-- No mode and suffix together begin with a condition's name. -/
theorem takeCond_none (m : UpdateMode) (x : Suffix) :
    takeCond (nameIn modeNames m ++ nameIn (longSuffixNames ++ shortSuffixNames) x) =
      (.none, nameIn modeNames m ++ nameIn (longSuffixNames ++ shortSuffixNames) x) := by
  cases m <;> cases x <;> rfl

theorem takeMode_name (m : UpdateMode) (x : Suffix) :
    takeMode (nameIn modeNames m ++ nameIn (longSuffixNames ++ shortSuffixNames) x) =
      (m, nameIn (longSuffixNames ++ shortSuffixNames) x) := by
  cases m <;> cases x <;> rfl

theorem takeSuffix_name (x : Suffix) : takeSuffix (nameIn (longSuffixNames ++ shortSuffixNames) x) = (x, []) := by
  cases x <;> rfl

/-- What follows the opcode in a token: condition, mode, suffix. -/
def fieldsText (f : Mnemonic) : Text :=
  nameIn condNames f.cond ++ (nameIn modeNames f.mode ++ nameIn (longSuffixNames ++ shortSuffixNames) f.suffix)

theorem mnemonic_eq (r : Record) : r.mnemonic = nameIn opcodeNames r.opcode ++ fieldsText (mnemonicOf r) := by
  simp [Record.mnemonic, fieldsText, mnemonicOf]

theorem takeCond_fieldsText {f : Mnemonic} (hc : f.cond.mapped = true) :
    takeCond (fieldsText f) =
      (f.cond, nameIn modeNames f.mode ++ nameIn (longSuffixNames ++ shortSuffixNames) f.suffix) := by
  obtain ⟨op, c, m, x⟩ := f
  by_cases hnone : c = .none
  · subst hnone; exact takeCond_none m x
  · exact takeCond_name hc hnone _

/-- Of the conditions' names, those with which a B reads as a BL begin with an L, and none begins with `IC`; nor does a mode
with a suffix. -/
theorem takeOpcode_b_fieldsText {f : Mnemonic} (hc : f.cond.mapped = true) (hclash : f.cond.clashesWithBl = false) :
    takeOpcode ('B' :: fieldsText f) = some (.b, fieldsText f) := by
  obtain ⟨op, c, m, x⟩ := f
  cases c with
  | unmapped n => cases hc
  | ls => cases hclash
  | lt => cases hclash
  | le => cases hclash
  | none => cases m <;> cases x <;> rfl
  | _ => exact takeOpcode_b (by rintro cs ⟨⟩) (by rintro cs ⟨⟩)

theorem takeOpcode_mnemonic {r : Record} (h : Spellable (mnemonicOf r)) :
    takeOpcode r.mnemonic = some (r.opcode, fieldsText (mnemonicOf r)) := by
  rw [mnemonic_eq]
  by_cases hb : r.opcode = .b
  · rw [hb]; exact takeOpcode_b_fieldsText h.cond (h.noClash hb)
  by_cases hbl : r.opcode = .bl
  · rw [hbl]; exact takeOpcode_bl _
  · exact takeOpcode_threeLetters h.opcode hb hbl _

theorem decodeMnemonic_mnemonic {r : Record} (h : Spellable (mnemonicOf r)) :
    decodeMnemonic r.mnemonic = .fields (mnemonicOf r) := by
  simp [decodeMnemonic, takeOpcode_mnemonic h, takeCond_fieldsText h.cond, takeMode_name, takeSuffix_name]
  rfl

/-! ### The fields that the decoder takes -/

theorem takeCond_cases (m : Text) :
    takeCond m = (.none, m) ∨ ∃ c rest name, takeCond m = (c, rest) ∧ (name, c) ∈ condNames ∧ m = name ++ rest := by
  unfold takeCond
  cases hfield : takeField condNames 2 m with
  | none => exact .inl rfl
  | some e =>
    obtain ⟨name, hname, -, hm⟩ := takeField_eq_some hfield
    exact .inr ⟨e.1, e.2, name, rfl, hname, hm⟩

theorem mapped_of_takeCond (m : Text) : (takeCond m).1.mapped = true := by
  have htable : ∀ e ∈ condNames, e.2.mapped = true := by decide
  rcases takeCond_cases m with h | ⟨c, rest, name, h, hname, -⟩
  · rw [h]; rfl
  · rw [h]; exact htable _ hname

/-- A condition whose name a B cannot carry begins with an L. -/
theorem eq_L_cons_of_clash {m : Text} (h : (takeCond m).1.clashesWithBl = true) : ∃ cs, m = 'L' :: cs := by
  have htable : ∀ e ∈ condNames, e.2.clashesWithBl = true → e.1.head? = some 'L' := by decide
  rcases takeCond_cases m with hm | ⟨c, rest, name, hm, hname, rfl⟩
  · rw [hm] at h; cases h
  · rw [hm] at h
    obtain ⟨cs, hcs⟩ := List.head?_eq_some_iff.1 (htable _ hname h)
    exact ⟨cs ++ rest, by rw [show name = 'L' :: cs from hcs]; rfl⟩

theorem takeOpcode_cases {m rest : Text} {op : Opcode} (h : takeOpcode m = some (op, rest)) :
    ∃ name, (name, op) ∈ opcodeNames ∧ m = name ++ rest := by
  have hfield (k : Nat) (hk : takeField opcodeNames k m = some (op, rest)) :
      ∃ name, (name, op) ∈ opcodeNames ∧ m = name ++ rest := by
    obtain ⟨name, hname, -, hm⟩ := takeField_eq_some hk
    exact ⟨name, hname, hm⟩
  rcases Option.or_eq_some_iff.1 h with h3 | ⟨-, h⟩
  · exact hfield 3 h3
  rcases Option.or_eq_some_iff.1 h with h2 | ⟨-, h1⟩
  · exact hfield 2 h2
  · exact hfield 1 h1

/-- The decoder finds the opcode B only where no L follows: there it takes BL. -/
theorem ne_L_cons_of_takeOpcode_b {m rest : Text} (h : takeOpcode m = some (.b, rest)) (cs : Text) : rest ≠ 'L' :: cs := by
  rintro rfl
  have htable : ∀ e ∈ opcodeNames, e.2 = .b → e.1 = ['B'] := by decide
  obtain ⟨name, hname, rfl⟩ := takeOpcode_cases h
  rw [show name = ['B'] from htable _ hname rfl] at h
  cases (takeOpcode_bl cs).symm.trans h

theorem spellable_of_decodeMnemonic {m : Text} {f : Mnemonic} (h : decodeMnemonic m = .fields f) : Spellable f := by
  have htable : ∀ e ∈ opcodeNames, ∀ n, e.2 ≠ .unknown n := by simp [opcodeNames]
  unfold decodeMnemonic at h
  split at h
  next => cases h
  next op rest hop =>
    simp only at h
    split at h
    next =>
      cases h
      obtain ⟨name, hname, -⟩ := takeOpcode_cases hop
      refine ⟨htable _ hname, mapped_of_takeCond rest, ?_⟩
      rintro rfl
      by_contra hclash
      obtain ⟨cs, hcs⟩ := eq_L_cons_of_clash (by simpa using hclash)
      exact ne_L_cons_of_takeOpcode_b hop cs hcs
    next => cases h

end Sys2Proof.Proofs
end

section
/-! SUPPORT. One line (R61, R66 to R86): the operands that the encoder writes are read back, and so is the whole line; and a
line that emits a record emits one that fits its format, or a branch that still waits for its target. -/

namespace Sys2Proof.Proofs

variable {policy : ImmPolicy} {i : Instr}

/-! ### Immediates -/

theorem sint_bounds (w : Word) : -2 ^ 31 ≤ sint w ∧ sint w ≤ 2 ^ 31 - 1 := by
  have hlow := BitVec.le_toInt w
  have hhigh := BitVec.toInt_lt (x := w)
  simp only [sint]
  omega

theorem fromInt_sint (policy : ImmPolicy) (w : Word) : fromInt policy (sint w) = w := by
  obtain ⟨hlow, hhigh⟩ := sint_bounds w
  have hword : trunc32 (sint w) = w := BitVec.ofInt_toInt
  cases policy with
  | wrap => exact hword
  | saturate => rw [fromInt, if_neg (by omega), if_neg (by omega), hword]

theorem outOfRange_sint (w : Word) : (Token.immediate (sint w)).outOfRange = false := by
  obtain ⟨hlow, hhigh⟩ := sint_bounds w
  simp only [Token.outOfRange, decide_eq_false_iff_not]
  omega

/-! ### Operands -/

theorem parseOperands_joinOperands {ts : List Text} {ks : List Token} (htexts : ∀ t ∈ ts, IsOperandText t)
    (htokens : classifyTokens ts = some ks) (himm : (ks.filterMap Token.immediate?).length ≤ 1)
    (hident : ks.dropLast.filterMap Token.identifier? = [])
    (hranges : ∀ k ∈ ks, k.badRange = false ∧ k.outOfRange = false) :
    parseOperands (' ' :: joinOperands ts) = .ok ⟨ks.flatMap Token.registers, (ks.filterMap Token.immediate?).head?,
      (ks.filterMap Token.identifier?).head?⟩ := by
  have hbad : ks.any Token.badRange = false := List.any_eq_false.2 fun k hk => by simp [(hranges k hk).1]
  have hout : ks.any Token.outOfRange = false := List.any_eq_false.2 fun k hk => by simp [(hranges k hk).2]
  simp [parseOperands, operandTokens_joinOperands htexts, htokens, Nat.not_lt.2 himm, hident, hbad, hout]

/-- The tokens of registers and at most one immediate. -/
def valueTokens (rs : List Nat) (im : Option Word) : List Token :=
  rs.map Token.register ++ (im.map fun w => Token.immediate (sint w)).toList

theorem valueTokens_registers (rs : List Nat) (im : Option Word) : (valueTokens rs im).flatMap Token.registers = rs := by
  cases im <;> simp [valueTokens, Token.registers, List.flatMap_append, List.flatMap_map]

theorem valueTokens_immediate? (rs : List Nat) (im : Option Word) :
    (valueTokens rs im).filterMap Token.immediate? = (im.map sint).toList := by
  cases im <;> simp [valueTokens, List.filterMap_append, Token.immediate?, List.filterMap_map, Function.comp_def]

theorem valueTokens_identifier? (rs : List Nat) (im : Option Word) :
    (valueTokens rs im).filterMap Token.identifier? = [] := by
  cases im <;> simp [valueTokens, List.filterMap_append, Token.identifier?, List.filterMap_map, Function.comp_def]

theorem valueTokens_inRange (rs : List Nat) (im : Option Word) :
    ∀ k ∈ valueTokens rs im, k.badRange = false ∧ k.outOfRange = false := by
  intro k hk
  rcases List.mem_append.1 hk with hk | hk
  · obtain ⟨r, -, rfl⟩ := List.mem_map.1 hk; exact ⟨rfl, rfl⟩
  · obtain ⟨w, -, rfl⟩ : ∃ w, im = some w ∧ Token.immediate (sint w) = k := by simpa using hk
    exact ⟨rfl, outOfRange_sint w⟩

theorem isOperandText_of_mem_values {rs : List Nat} {im : Option Word} {t : Text}
    (ht : t ∈ rs.map registerText ++ (im.map immediateText).toList) : IsOperandText t := by
  rcases List.mem_append.1 ht with ht | ht
  · obtain ⟨r, -, rfl⟩ := List.mem_map.1 ht; exact isOperandText_registerText r
  · obtain ⟨w, -, rfl⟩ : ∃ w, im = some w ∧ immediateText w = t := by simpa using ht
    exact isOperandText_immediateText w

/-- The tail of a line with registers and at most one immediate. -/
theorem parseOperands_values (rs : List Nat) (im : Option Word) :
    parseOperands (' ' :: joinOperands (rs.map registerText ++ (im.map immediateText).toList)) =
      .ok ⟨rs, im.map sint, none⟩ := by
  have htokens : classifyTokens (rs.map registerText ++ (im.map immediateText).toList) = some (valueTokens rs im) := by
    refine classifyTokens_append (classifyTokens_map classifyToken_registerText rs) ?_
    cases im <;> simp [classifyTokens]
  have himm : ((valueTokens rs im).filterMap Token.immediate?).length ≤ 1 := by
    rw [valueTokens_immediate?]; cases im <;> simp
  have hident : (valueTokens rs im).dropLast.filterMap Token.identifier? = [] :=
    List.sublist_nil.1 (valueTokens_identifier? rs im ▸ (List.dropLast_sublist _).filterMap _)
  rw [parseOperands_joinOperands (fun t => isOperandText_of_mem_values) htokens himm hident (valueTokens_inRange rs im),
    valueTokens_registers, valueTokens_immediate?, valueTokens_identifier?]
  cases im <;> rfl

/-- The tail of a branch. -/
theorem parseOperands_label (k : Nat) :
    parseOperands (' ' :: joinOperands [labelText k]) = .ok ⟨[], none, some (labelText k)⟩ := by
  rw [parseOperands_joinOperands (ks := [.identifier (labelText k)]) (by simpa using isOperandText_labelText k)
    (by simp [classifyTokens]) (Nat.zero_le 1) rfl (by simp [Token.badRange, Token.outOfRange])]
  rfl

/-! ### The operand shape -/

/-- The shape check on the text's operands is the one on the record's entries, a branch's label standing for its entry. -/
theorem operandsFit_record (i : Instr) (n : Nat) (hasImm hasLabel : Bool) :
    operandsFit i.record.opcode i.record.suffix n hasImm hasLabel =
      if i.format = .br then n == 0 && !hasImm && hasLabel else i.format.fits n hasImm && !hasLabel := by
  cases i with
  | ldr c m f rs im => cases f <;> rfl
  | str c m f rs im => cases f <;> rfl
  | _ => rfl

theorem format_eq_br_iff : i.format = .br ↔ i.record.opcode = .b ∨ i.record.opcode = .bl := by
  cases i <;> simp [Instr.format, Instr.record]

theorem operandTexts_of_ne_br (h : i.format ≠ .br) :
    i.record.operandTexts = i.record.regs.map registerText ++ (i.record.imm.map immediateText).toList := by
  rw [Ne, format_eq_br_iff, not_or] at h
  unfold Record.operandTexts
  split
  next hb => exact absurd hb h.1
  next hbl => exact absurd hbl h.2
  next => rfl

theorem operandTexts_of_br (h : i.format = .br) : i.record.operandTexts = i.record.regs.map labelText := by
  rcases format_eq_br_iff.1 h with h | h <;> simp [Record.operandTexts, h]

/-- A well-formed branch has its target and no immediate. -/
theorem operands_of_wf_br (hwf : i.wf = true) (h : i.format = .br) : ∃ k, i.record.regs = [k] ∧ i.record.imm = none := by
  have hfits := (wf_iff.1 hwf).1
  rw [h] at hfits
  simpa [Format.fits, List.length_eq_one_iff] using hfits

/-! ### The line of an instruction -/

/-- The mnemonic token that the encoder writes: one or more capital letters. -/
theorem isUpper_of_mem_mnemonic {r : Record} {c : Char} (h : c ∈ r.mnemonic) : c.isUpper = true := by
  have hname : ∀ {α : Type} [DecidableEq α] (table : List (Text × α)) (a : α),
      (table.all fun e => e.1.all Char.isUpper) = true → ∀ c ∈ nameIn table a, c.isUpper = true := by
    intro α _ table a htable
    unfold nameIn
    split
    next e he => exact List.all_eq_true.1 (List.all_eq_true.1 htable e (List.mem_of_find?_eq_some he))
    next => simp
  simp only [Record.mnemonic, List.mem_append] at h
  rcases h with ((h | h) | h) | h
  · exact hname opcodeNames _ (by decide) c h
  · exact hname condNames _ (by decide) c h
  · exact hname modeNames _ (by decide) c h
  · exact hname (longSuffixNames ++ shortSuffixNames) _ (by decide) c h

theorem mnemonic_ne_nil (i : Instr) : i.record.mnemonic ≠ [] := by
  have hop : nameIn opcodeNames i.record.opcode ≠ [] := by cases i <;> simp [Instr.record, nameIn, opcodeNames]
  simp [Record.mnemonic, hop]

theorem decodeStatement_statementText (hwf : i.wf = true) {o : Operands}
    (hoperands : parseOperands (' ' :: joinOperands i.record.operandTexts) = .ok o)
    (hfit : operandsFit i.record.opcode i.record.suffix o.regs.length o.imm.isSome o.label.isSome = true) :
    decodeStatement policy (statementText i) =
      .emit { i.record with regs := o.regs, imm := o.imm.map (fromInt policy) } o.label := by
  have hletters : ∀ c ∈ i.record.mnemonic, (!(isWs c || c == ';')) = true := fun c hc => by
    have hne := @ne_of_class Char.isUpper c (hc := isUpper_of_mem_mnemonic hc)
    simp [isWs, hne (d := ' ') rfl, hne (d := '\t') rfl, hne (d := ';') rfl]
  have htoken := decodeMnemonic_mnemonic (wf_iff.1 hwf).2
  simp only [decodeStatement, statementText, List.takeWhile_append_of_pos hletters, List.dropWhile_append_of_pos hletters]
  simp [isWs, htoken, hoperands, mnemonicOf, hfit]

/-- An encoded instruction is an instruction line (R61). -/
theorem classifyLine_encode (i : Instr) : classifyLine (encode i) = .statement (statementText i) := by
  obtain ⟨c, cs, hcs⟩ := List.exists_cons_of_ne_nil (mnemonic_ne_nil i)
  have hne := @ne_of_class Char.isUpper c (hc := isUpper_of_mem_mnemonic (r := i.record) (by simp [hcs]))
  simp [classifyLine, encode, statementText, hcs, isWs, hne (d := ' ') rfl, hne (d := '\t') rfl, hne (d := ';') rfl,
    hne (d := '@') rfl]

theorem decodeLine_encode (policy : ImmPolicy) (i : Instr) :
    decodeLine policy (encode i) = decodeStatement policy (statementText i) := by
  rw [decodeLine, classifyLine_encode]

theorem decodeLine_encode_of_ne_br (policy : ImmPolicy) (hwf : i.wf = true) (h : i.format ≠ .br) :
    decodeLine policy (encode i) = .emit i.record none := by
  have hoperands := parseOperands_values i.record.regs i.record.imm
  rw [← operandTexts_of_ne_br h] at hoperands
  rw [decodeLine_encode, decodeStatement_statementText hwf hoperands (by simp [operandsFit_record, h, (wf_iff.1 hwf).1])]
  simp [Option.map_map, Function.comp_def, fromInt_sint]

theorem decodeLine_encode_of_br (policy : ImmPolicy) (hwf : i.wf = true) (h : i.format = .br) {k : Nat}
    (hk : i.record.regs = [k]) : decodeLine policy (encode i) = .emit { i.record with regs := [] } (some (labelText k)) := by
  have hoperands := parseOperands_label k
  rw [show [labelText k] = i.record.operandTexts by rw [operandTexts_of_br h, hk]; rfl] at hoperands
  obtain ⟨-, -, himm⟩ := operands_of_wf_br hwf h
  rw [decodeLine_encode, decodeStatement_statementText hwf hoperands (by simp [operandsFit_record, h])]
  simp [himm]

end Sys2Proof.Proofs
end

section
/-! PROOF. The encoded line decodes to its instruction's record (R66 to R87). -/

namespace Sys2Proof.Proofs

/-- Settles O2: the mnemonic token decodes to the four fields it was spelled from (`decodeMnemonic_mnemonic`), the operand
tail to the registers and the immediate or to the label, and these pass the shape check because the instruction is
well-formed. -/
theorem encodedLineDecodes : Obligations.EncodedLineDecodes := by
  intro policy i hwf
  exact ⟨decodeLine_encode_of_ne_br policy hwf, fun _ hbr => decodeLine_encode_of_br policy hwf hbr⟩

end Sys2Proof.Proofs
end

section
/-! SUPPORT. The two passes (R64, R65, R79, R80): what pass 1 does with a line it accepts, and the invariant of the unresolved
labels, by which every record of the image is what its line asks for. -/

namespace Sys2Proof.Proofs

variable {policy : ImmPolicy} {p q : Pass} {n : Nat} {line : Text}

/-! ### Pass 1 -/

/-- What pass 1 does with a line it does not refuse. -/
inductive PassStep (policy : ImmPolicy) (p : Pass) (n : Nat) (line : Text) : Pass → Prop
  | blank (hline : decodeLine policy line = .blank) : PassStep policy p n line p
  | label {name : Text} (hline : decodeLine policy line = .label name) (hnew : p.symbols.lookup name = none) :
      PassStep policy p n line { p with symbols := p.symbols ++ [(name, p.records.length)] }
  | skip (hline : decodeLine policy line = .skip) : PassStep policy p n line { p with diag := p.diag ++ [n] }
  | emit {r : Record} (hline : decodeLine policy line = .emit r none) :
      PassStep policy p n line { p with records := p.records ++ [r] }
  | resolves {r : Record} {name : Text} {v : Nat} (hline : decodeLine policy line = .emit r (some name))
      (hsymbol : p.symbols.lookup name = some v) :
      PassStep policy p n line { p with records := p.records ++ [r.addEntry v] }
  | awaits {r : Record} {name : Text} (hline : decodeLine policy line = .emit r (some name))
      (hsymbol : p.symbols.lookup name = none) :
      PassStep policy p n line
        { p with records := p.records ++ [r], pending := p.pending ++ [⟨name, p.records.length, n⟩] }

theorem passLine_eq_ok_iff : passLine policy p n line = .ok q ↔ PassStep policy p n line q := by
  constructor
  · intro h
    unfold passLine at h
    split at h
    next hline => cases h; exact .blank hline
    next name hline =>
      split at h
      next => cases h
      next hnew => cases h; exact .label hline hnew
    next hline => cases h; exact .skip hline
    next => cases h
    next r hline => cases h; exact .emit hline
    next r name hline =>
      split at h
      next v hsymbol => cases h; exact .resolves hline hsymbol
      next hsymbol => cases h; exact .awaits hline hsymbol
  · intro h
    cases h with
    | blank hline => simp [passLine, hline]
    | label hline hnew => simp [passLine, hline, hnew]
    | skip hline => simp [passLine, hline]
    | emit hline => simp [passLine, hline]
    | resolves hline hsymbol => simp [passLine, hline, hsymbol]
    | awaits hline hsymbol => simp [passLine, hline, hsymbol]

theorem passLines_cons {ls : List Text} (h : passLine policy p n line = .ok q) :
    passLines policy p n (line :: ls) = passLines policy q (n + 1) ls := by
  simp [passLines, h]

/-- What every accepted line keeps, pass 1 keeps. -/
theorem passLines_induction {motive : Pass → Prop} (hstep : ∀ p q n line, PassStep policy p n line q → motive p → motive q)
    {ls : List Text} (h : passLines policy p n ls = .ok q) (hp : motive p) : motive q := by
  induction ls generalizing p n with
  | nil => cases h; exact hp
  | cons line ls ih =>
    unfold passLines at h
    split at h
    next => cases h
    next p' hline => exact ih h (hstep p p' n line (passLine_eq_ok_iff.1 hline) hp)

theorem records_length_le_of_passStep (h : PassStep policy p n line q) : p.records.length ≤ q.records.length := by
  cases h <;> simp

/-! ### The unresolved labels -/

/-- Every record stands as it must (`final`) or is on the unresolved-label list, once, and will stand so with whatever value
its label can denote. -/
structure Tracked (denotes : Text → Nat → Prop) (final : Nat → Record → Prop) (qs : List Pending) (rs : List Record) :
    Prop where
  indices : (qs.map Pending.index).Nodup
  bound : ∀ q ∈ qs, q.index < rs.length
  settled : ∀ j r, rs[j]? = some r → j ∉ qs.map Pending.index → final j r
  awaiting : ∀ q ∈ qs, ∀ r, rs[q.index]? = some r → ∀ v, denotes q.name v → final q.index (r.addEntry v)

variable {denotes : Text → Nat → Prop} {final : Nat → Record → Prop} {qs : List Pending} {rs out : List Record} {r : Record}

theorem tracked_nil : Tracked denotes final [] [] where
  indices := List.nodup_nil
  bound := by simp
  settled := by simp
  awaiting := by simp

theorem getElem?_concat_eq_some {j : Nat} {r' : Record} (h : (rs ++ [r])[j]? = some r') :
    rs[j]? = some r' ∨ j = rs.length ∧ r = r' := by
  rw [List.getElem?_append] at h
  split at h
  next => exact .inl h
  next hge =>
    obtain ⟨hj, hr⟩ := List.getElem?_eq_some_iff.1 h
    simp only [List.length_singleton, List.getElem_singleton] at hj hr
    exact .inr ⟨by omega, hr⟩

/-- A record that stands as it must is added. -/
theorem Tracked.emit (h : Tracked denotes final qs rs) (hr : final rs.length r) : Tracked denotes final qs (rs ++ [r]) where
  indices := h.indices
  bound q hq := by simpa using Nat.lt_succ_of_lt (h.bound q hq)
  settled j r' hj hnot := by
    rcases getElem?_concat_eq_some hj with hj | ⟨rfl, rfl⟩
    · exact h.settled j r' hj hnot
    · exact hr
  awaiting q hq r' hj := by
    rw [List.getElem?_append_left (h.bound q hq)] at hj
    exact h.awaiting q hq r' hj

/-- A record that waits for its label is added. -/
theorem Tracked.await {name : Text} (h : Tracked denotes final qs rs)
    (hr : ∀ v, denotes name v → final rs.length (r.addEntry v)) :
    Tracked denotes final (qs ++ [⟨name, rs.length, n⟩]) (rs ++ [r]) where
  indices := by
    have hfresh : ∀ q ∈ qs, q.index ≠ rs.length := fun q hq => (h.bound q hq).ne
    simpa [List.nodup_append, h.indices] using hfresh
  bound q hq := by
    rcases List.mem_append.1 hq with hq | hq
    · simpa using Nat.lt_succ_of_lt (h.bound q hq)
    · simp [List.mem_singleton.1 hq]
  settled j r' hj hnot := by
    rw [List.map_append, List.mem_append, not_or] at hnot
    rcases getElem?_concat_eq_some hj with hj | ⟨rfl, -⟩
    · exact h.settled j r' hj hnot.1
    · simp at hnot
  awaiting q hq r' hj := by
    rcases List.mem_append.1 hq with hq | hq
    · rw [List.getElem?_append_left (h.bound q hq)] at hj
      exact h.awaiting q hq r' hj
    · obtain rfl := List.mem_singleton.1 hq
      rw [List.getElem?_concat_length] at hj
      cases hj; exact hr

/-- The first reference on the list is resolved. -/
theorem Tracked.resolve {ref : Pending} {v : Nat} (h : Tracked denotes final (ref :: qs) rs) (hv : denotes ref.name v) :
    Tracked denotes final qs (rs.modify ref.index (·.addEntry v)) where
  indices := (List.nodup_cons.1 h.indices).2
  bound q hq := by simpa using h.bound q (by simp [hq])
  settled j r' hj hnot := by
    rw [List.getElem?_modify] at hj
    by_cases hindex : ref.index = j
    · subst hindex
      obtain ⟨r, hr, rfl⟩ := Option.map_eq_some_iff.1 hj
      simpa using h.awaiting ref (by simp) r hr v hv
    · exact h.settled j r' (by simpa [hindex] using hj) (by simpa [Ne.symm hindex] using hnot)
  awaiting q hq r' hj := by
    have hindex : ref.index ≠ q.index := fun heq =>
      (List.nodup_cons.1 h.indices).1 (List.mem_map.2 ⟨q, hq, heq.symm⟩)
    exact h.awaiting q (by simp [hq]) r' (by simpa [List.getElem?_modify, hindex] using hj)

/-- Pass 2 resolves every reference, so every record of the image stands as it must. -/
theorem resolve_final {symbols : List (Text × Nat)} (hsymbols : ∀ e ∈ symbols, denotes e.1 e.2)
    (h : Tracked denotes final qs rs) (hout : resolve symbols qs rs = .ok out) :
    out.length = rs.length ∧ ∀ j r, out[j]? = some r → final j r := by
  induction qs generalizing rs with
  | nil => cases hout; exact ⟨rfl, fun j r hj => h.settled j r hj (by simp)⟩
  | cons ref qs ih =>
    unfold resolve at hout
    split at hout
    next => cases hout
    next v hv => simpa using ih (h.resolve (hsymbols _ (mem_of_lookup_eq_some hv))) hout

theorem resolve_isOk {symbols : List (Text × Nat)} (h : ∀ q ∈ qs, ∃ v, symbols.lookup q.name = some v) (rs : List Record) :
    ∃ out, resolve symbols qs rs = .ok out := by
  induction qs generalizing rs with
  | nil => exact ⟨rs, rfl⟩
  | cons ref qs ih =>
    rw [List.forall_mem_cons] at h
    obtain ⟨v, hv⟩ := h.1
    simpa [resolve, hv] using ih h.2 _

/-- The tables after some lines: labels denote their values, and the records are tracked. -/
structure TrackedPass (denotes : Text → Nat → Prop) (final : Nat → Record → Prop) (p : Pass) : Prop where
  symbols : ∀ e ∈ p.symbols, denotes e.1 e.2
  tracked : Tracked denotes final p.pending p.records

theorem trackedPass_empty : TrackedPass denotes final {} := ⟨by simp, tracked_nil⟩

/-- A line keeps the tables tracked when its label denotes its index, its record stands as it must, and its branch will. -/
theorem TrackedPass.step (h : TrackedPass denotes final p) (hstep : PassStep policy p n line q)
    (hlabel : ∀ name, decodeLine policy line = .label name → denotes name p.records.length)
    (hemit : ∀ r, decodeLine policy line = .emit r none → final p.records.length r)
    (hbranch : ∀ r name, decodeLine policy line = .emit r (some name) →
      ∀ v, denotes name v → final p.records.length (r.addEntry v)) : TrackedPass denotes final q := by
  obtain ⟨hsymbols, htracked⟩ := h
  cases hstep with
  | blank => exact ⟨hsymbols, htracked⟩
  | skip => exact ⟨hsymbols, htracked⟩
  | label hline =>
    refine ⟨fun e he => ?_, htracked⟩
    rcases List.mem_append.1 he with he | he
    · exact hsymbols e he
    · rw [List.mem_singleton.1 he]; exact hlabel _ hline
  | emit hline => exact ⟨hsymbols, htracked.emit (hemit _ hline)⟩
  | resolves hline hsymbol =>
    exact ⟨hsymbols, htracked.emit (hbranch _ _ hline _ (hsymbols _ (mem_of_lookup_eq_some hsymbol)))⟩
  | awaits hline => exact ⟨hsymbols, htracked.await (hbranch _ _ hline)⟩

/-- The program image of tracked tables. -/
theorem TrackedPass.image (h : TrackedPass denotes final p) (hout : resolve p.symbols p.pending p.records = .ok out) :
    out.length = p.records.length ∧ ∀ j r, out[j]? = some r → final j r :=
  resolve_final h.symbols h.tracked hout

theorem assembleLines_eq_program {lines : List Text} {image : List Record} {diag : List Nat}
    (h : assembleLines policy lines = .program image diag) :
    ∃ p, passLines policy {} 1 lines = .ok p ∧ resolve p.symbols p.pending p.records = .ok image ∧ p.diag = diag := by
  unfold assembleLines at h
  split at h
  next => cases h
  next p hpass =>
    split at h
    next => cases h
    next out hresolve => cases h; exact ⟨p, hpass, hresolve, rfl⟩

end Sys2Proof.Proofs
end

section
/-! SUPPORT. What a line emits (R66, R81, R86): fields that some token spells, and operands that fit them. -/

namespace Sys2Proof.Proofs

open Sys2Proof.Laws

variable {policy : ImmPolicy} {line : Text} {r : Record} {label : Option Text} {size : Nat}

theorem decodeLabel_ne_emit (line : Text) : decodeLabel line ≠ .emit r label := by
  unfold decodeLabel
  simp only
  split
  · simp
  · split <;> simp

theorem emit_of_decodeStatement (h : decodeStatement policy line = .emit r label) :
    Spellable (mnemonicOf r) ∧ operandsFit r.opcode r.suffix r.regs.length r.imm.isSome label.isSome = true := by
  unfold decodeStatement at h
  simp only at h
  split at h
  next => cases h
  next => cases h
  next f hfields =>
    split at h
    next => cases h
    next o hoperands =>
      split at h
      next hfit => cases h; exact ⟨spellable_of_decodeMnemonic hfields, by simpa using hfit⟩
      next => cases h

theorem emit_of_decodeLine (h : decodeLine policy line = .emit r label) :
    Spellable (mnemonicOf r) ∧ operandsFit r.opcode r.suffix r.regs.length r.imm.isSome label.isSome = true := by
  unfold decodeLine at h
  split at h
  next => cases h
  next => exact absurd h (decodeLabel_ne_emit _)
  next => exact emit_of_decodeStatement h

/-! ### The instruction of an emitted record -/

theorem exists_instr? (h : ∀ n, r.opcode ≠ .unknown n) : ∃ i, r.instr? = some i := by
  obtain ⟨op, c, m, x, rs, im⟩ := r
  cases op with
  | unknown n => exact absurd rfl (h n)
  | ldr => cases x <;> exact ⟨_, rfl⟩
  | str => cases x <;> exact ⟨_, rfl⟩
  | ldm => cases m <;> exact ⟨_, rfl⟩
  | stm => cases m <;> exact ⟨_, rfl⟩
  | _ => exact ⟨_, rfl⟩

/-- A record that a program image of `size` records may hold: of a well-formed instruction, a branch's target in reach. -/
def WellFormedRecord (size : Nat) (r : Record) : Prop :=
  ∃ i, r.instr? = some i ∧ i.wf = true ∧ (i.format = .br → ∀ k ∈ r.regs, k ≤ size)

/-- Operands without a label are those of a row that is no branch. -/
theorem wellFormedRecord_of_values (hfields : Spellable (mnemonicOf r))
    (hfit : operandsFit r.opcode r.suffix r.regs.length r.imm.isSome false = true) : WellFormedRecord size r := by
  obtain ⟨i, hi⟩ := exists_instr? hfields.opcode
  obtain rfl := record_of_instr? hi
  rw [operandsFit_record] at hfit
  split at hfit
  next => simp at hfit
  next hbr => exact ⟨i, hi, wf_iff.2 ⟨by simpa using hfit, hfields⟩, fun h => absurd h hbr⟩

/-- Operands with a label are those of a branch, whose one entry is the label's value. -/
theorem wellFormedRecord_of_branch (hfields : Spellable (mnemonicOf r))
    (hfit : operandsFit r.opcode r.suffix r.regs.length r.imm.isSome true = true) {v : Nat} (hv : v ≤ size) :
    WellFormedRecord size (r.addEntry v) := by
  obtain ⟨i, hi⟩ := exists_instr? (r := r.addEntry v) hfields.opcode
  have hrecord := record_of_instr? hi
  have hrow : operandsFit i.record.opcode i.record.suffix r.regs.length r.imm.isSome true = true := by
    rw [hrecord]; exact hfit
  rw [operandsFit_record] at hrow
  split at hrow
  next hbr =>
    obtain ⟨hregs, himm⟩ : r.regs = [] ∧ r.imm = none := by simpa using hrow
    refine ⟨i, hi, wf_iff.2 ⟨?_, by rw [hrecord]; exact hfields⟩, fun _ => ?_⟩
    · simp [hbr, hrecord, Record.addEntry, hregs, himm, Format.fits]
    · simp [Record.addEntry, hregs, hv]
  next => simp at hrow

/-! ### The program image -/

/-- Labels denote at most the final length, and every record is well-formed or will be, as long as the lines so far emit no
more records than the final ones. -/
def WellFormedUpTo (size : Nat) (p : Pass) : Prop :=
  p.records.length ≤ size → TrackedPass (fun _ v => v ≤ size) (fun _ => WellFormedRecord size) p

theorem wellFormedUpTo_of_passStep {p q : Pass} {n : Nat} (hstep : PassStep policy p n line q)
    (h : WellFormedUpTo size p) : WellFormedUpTo size q := by
  intro hq
  have hp := (records_length_le_of_passStep hstep).trans hq
  refine (h hp).step hstep (fun _ _ => hp) (fun r hline => ?_) (fun r name hline v hv => ?_)
  · obtain ⟨hfields, hfit⟩ := emit_of_decodeLine hline
    exact wellFormedRecord_of_values hfields hfit
  · obtain ⟨hfields, hfit⟩ := emit_of_decodeLine hline
    exact wellFormedRecord_of_branch hfields hfit hv

theorem wellFormedUpTo_of_passLines {q : Pass} {ls : List Text} (h : passLines policy {} 1 ls = .ok q) (size : Nat) :
    WellFormedUpTo size q :=
  passLines_induction (fun _ _ _ _ => wellFormedUpTo_of_passStep) h fun _ => trackedPass_empty

end Sys2Proof.Proofs
end

section
/-! PROOF. The assembler's records are well-formed (R64, R81, R86, R91). -/

namespace Sys2Proof.Proofs

/-- Settles O4: an emitted record's fields are spellable and its operands fit, a branch lacking only its target; pass 1 keeps
the records tracked (`wellFormedUpTo_of_passLines`), a label denoting an index up to the final length, and pass 2 gives each
waiting branch such an index. -/
theorem assembledRecordsAreWellFormed : Obligations.AssembledRecordsAreWellFormed := by
  intro policy text image diag h r hr
  obtain ⟨p, hpass, hresolve, -⟩ := assembleLines_eq_program h
  obtain ⟨hlength, hfinal⟩ := (wellFormedUpTo_of_passLines hpass p.records.length le_rfl).image hresolve
  obtain ⟨j, hj⟩ := List.getElem?_of_mem hr
  exact hlength ▸ hfinal j r hj

end Sys2Proof.Proofs
end

section
/-! SUPPORT. Encoded programs (R60 to R65, R79, R80): the source text splits into the lines it was joined from, each label
line defines the index that its name tells, and pass 1 goes over them without a refusal or a diagnostic. -/

namespace Sys2Proof.Proofs

variable {policy : ImmPolicy} {i : Instr} {is : List Instr} {k n : Nat} {p : Pass}

/-! ### The lines of the text -/

/-- A line without a line feed or a carriage return. -/
def IsPlainLine (l : Text) : Prop := '\n' ∉ l ∧ '\r' ∉ l

theorem splitLf_append_lf {l : Text} (h : '\n' ∉ l) (rest : Text) : splitLf (l ++ '\n' :: rest) = l :: splitLf rest := by
  induction l with
  | nil => simp [splitLf]
  | cons c l ih =>
    rw [List.mem_cons, not_or] at h
    simp [splitLf, Ne.symm h.1, ih h.2]

theorem splitLf_joinLines {ls : List Text} (h : ∀ l ∈ ls, IsPlainLine l) : splitLf (joinLines ls) = ls ++ [[]] := by
  induction ls with
  | nil => rfl
  | cons l ls ih =>
    rw [List.forall_mem_cons] at h
    rw [joinLines, List.flatMap_cons, List.append_assoc, List.singleton_append, splitLf_append_lf h.1.1, ← joinLines, ih h.2]
    rfl

theorem dropCr_of_isPlainLine {l : Text} (h : IsPlainLine l) : dropCr l = l :=
  if_neg fun hlast => h.2 (List.mem_of_getLast? hlast)

theorem sourceLines_joinLines {ls : List Text} (h : ∀ l ∈ ls, IsPlainLine l) : sourceLines (joinLines ls) = ls ++ [[]] := by
  have hmap : ls.map dropCr = ls := (List.map_congr_left fun l hl => dropCr_of_isPlainLine (h l hl)).trans (List.map_id ls)
  rw [sourceLines, splitLf_joinLines h, List.map_append, hmap]; rfl

theorem isPlainLine_labelLine (k : Nat) : IsPlainLine (labelText k ++ [':']) := by
  have hchars := (isOperandText_labelText k).2
  have hnot : ∀ c, isOperandChar c = false → c ≠ ':' → c ∉ labelText k ++ [':'] := by
    intro c hc hcolon hmem
    rcases List.mem_append.1 hmem with hmem | hmem
    · exact ne_of_class (hchars c hmem) hc rfl
    · exact hcolon (List.mem_singleton.1 hmem)
  exact ⟨hnot _ (by decide) (by decide), hnot _ (by decide) (by decide)⟩

theorem isOperandText_of_mem_operandTexts {t : Text} (h : t ∈ i.record.operandTexts) : IsOperandText t := by
  by_cases hbr : i.format = .br
  · rw [operandTexts_of_br hbr] at h
    obtain ⟨k, -, rfl⟩ := List.mem_map.1 h
    exact isOperandText_labelText k
  · rw [operandTexts_of_ne_br hbr] at h
    exact isOperandText_of_mem_values h

theorem isPlainLine_encode (i : Instr) : IsPlainLine (encode i) := by
  have hnot : ∀ c, c.isUpper = false → isOperandChar c = false → c ≠ ' ' → c ≠ ',' → c ∉ encode i := by
    intro c hupper hoperand hspace hcomma hmem
    simp only [encode, statementText, List.mem_append, List.mem_cons, List.not_mem_nil, or_false] at hmem
    rcases hmem with (h | h) | h | h | h
    · exact hspace h
    · exact hspace h
    · exact ne_of_class (isUpper_of_mem_mnemonic h) hupper rfl
    · exact hspace h
    · rcases mem_joinOperands (fun t => isOperandText_of_mem_operandTexts) h with h | h | h
      · exact ne_of_class h hoperand rfl
      · exact hcomma h
      · exact hspace h
  exact ⟨hnot _ (by decide) (by decide) (by decide) (by decide), hnot _ (by decide) (by decide) (by decide) (by decide)⟩

theorem isPlainLine_of_mem_encodeFrom {l : Text} (h : l ∈ encodeFrom k is) : IsPlainLine l := by
  induction is generalizing k with
  | nil => rw [List.mem_singleton.1 h]; exact isPlainLine_labelLine k
  | cons i is ih =>
    simp only [encodeFrom, List.mem_cons] at h
    rcases h with rfl | rfl | h
    · exact isPlainLine_labelLine k
    · exact isPlainLine_encode i
    · exact ih h

theorem sourceLines_encodeProgram (is : List Instr) : sourceLines (encodeProgram is) = encodeFrom 0 is ++ [[]] :=
  sourceLines_joinLines fun _ => isPlainLine_of_mem_encodeFrom

/-! ### Label lines -/

theorem endsLabel_of_mem_labelText {c : Char} (h : c ∈ labelText k) : (!endsLabel c) = true := by
  have hc := @ne_of_class isOperandChar c (hc := (isOperandText_labelText k).2 c h)
  simp [endsLabel, isWs, hc (d := ' ') (by decide), hc (d := '\t') (by decide), hc (d := ':') (by decide),
    hc (d := ';') (by decide)]

theorem decodeLine_labelLine (policy : ImmPolicy) (k : Nat) :
    decodeLine policy (labelText k ++ [':']) = .label (labelText k) := by
  have hclass : classifyLine (labelText k ++ [':']) = .label (labelText k ++ [':']) := by
    simp [classifyLine, labelText, isWs]
  have hname : ∀ c ∈ labelText k, (!endsLabel c) = true := fun c => endsLabel_of_mem_labelText
  rw [decodeLine, hclass]
  simp only [decodeLabel, List.takeWhile_append_of_pos hname, List.dropWhile_append_of_pos hname]
  simp [endsLabel, labelTailOk, isIdentifier_labelText, parseRegister_labelText]

/-- The symbols after the label lines of the first `k` indices. -/
def indexSymbols (k : Nat) : List (Text × Nat) := (List.range k).map fun j => (labelText j, j)

theorem indexSymbols_succ (k : Nat) : indexSymbols (k + 1) = indexSymbols k ++ [(labelText k, k)] := by
  simp [indexSymbols, List.range_succ]

theorem lookup_indexSymbols_self (k : Nat) : (indexSymbols k).lookup (labelText k) = none := by
  refine List.lookup_eq_none_iff.2 fun e he => ?_
  obtain ⟨j, hj, rfl⟩ := List.mem_map.1 he
  have hne : k ≠ j := (List.mem_range.1 hj).ne'
  simpa using fun heq => hne (labelText_injective heq)

theorem lookup_indexSymbols {j : Nat} (h : j < k) : (indexSymbols k).lookup (labelText j) = some j := by
  induction k with
  | zero => omega
  | succ k ih =>
    rw [indexSymbols_succ, List.lookup_append]
    rcases Nat.lt_succ_iff_lt_or_eq.1 h with hlt | rfl
    · simp [ih hlt]
    · simp [lookup_indexSymbols_self, List.lookup]

/-! ### Pass 1 over the encoded lines -/

/-- The tables after `labels` label lines and the first `k` instruction lines of the program `is`. -/
structure EncodedPass (is : List Instr) (labels k : Nat) (p : Pass) : Prop where
  tracked : TrackedPass (fun name v => name = labelText v) (fun j r => is[j]?.map Instr.record = some r) p
  symbols : p.symbols = indexSymbols labels
  length : p.records.length = k
  targets : ∀ q ∈ p.pending, ∃ v ≤ is.length, q.name = labelText v
  noSkips : p.diag = []

/-- Instructions whose program assembles: well-formed, with branch targets up to the end of the program. -/
def InReach (size : Nat) (i : Instr) : Prop := i.wf = true ∧ (i.format = .br → ∀ k ∈ i.record.regs, k ≤ size)

theorem encodedPass_labelLine (h : EncodedPass is k k p) (policy : ImmPolicy) (n : Nat) :
    ∃ q, passLine policy p n (labelText k ++ [':']) = .ok q ∧ EncodedPass is (k + 1) k q := by
  have hline := decodeLine_labelLine policy k
  have hnew : p.symbols.lookup (labelText k) = none := by rw [h.symbols, lookup_indexSymbols_self]
  have hstep := PassStep.label (n := n) hline hnew
  refine ⟨_, passLine_eq_ok_iff.2 hstep, ?_, ?_, h.length, h.targets, h.noSkips⟩
  · refine h.tracked.step hstep (fun name hname => ?_) ?_ ?_
    · cases hline.symm.trans hname; rw [h.length]
    · simp [hline]
    · simp [hline]
  · simp [indexSymbols_succ, h.symbols, h.length]

theorem encodedPass_encode (h : EncodedPass is (k + 1) k p) (hi : is[k]? = some i) (hreach : InReach is.length i)
    (policy : ImmPolicy) (n : Nat) :
    ∃ q, passLine policy p n (encode i) = .ok q ∧ EncodedPass is (k + 1) (k + 1) q := by
  obtain ⟨hwf, htargets⟩ := hreach
  by_cases hbr : i.format = .br
  · obtain ⟨v, hv, himm⟩ := operands_of_wf_br hwf hbr
    have hline := decodeLine_encode_of_br policy hwf hbr hv
    have hfull : Record.addEntry { i.record with regs := [] } v = i.record := by simp [Record.addEntry, ← hv]
    have htracked : ∀ {q}, PassStep policy p n (encode i) q → TrackedPass _ _ q := fun hstep =>
      h.tracked.step hstep (by simp [hline]) (by simp [hline]) fun r name hr u hu => by
        rw [hline] at hr
        cases hr
        cases labelText_injective hu
        rw [hfull, h.length, hi]; rfl
    cases hsymbol : p.symbols.lookup (labelText v) with
    | some u =>
      have hstep := PassStep.resolves (n := n) hline hsymbol
      exact ⟨_, passLine_eq_ok_iff.2 hstep, htracked hstep, h.symbols, by simp [h.length], h.targets, h.noSkips⟩
    | none =>
      have hstep := PassStep.awaits (n := n) hline hsymbol
      refine ⟨_, passLine_eq_ok_iff.2 hstep, htracked hstep, h.symbols, by simp [h.length], fun q hq => ?_, h.noSkips⟩
      rcases List.mem_append.1 hq with hq | hq
      · exact h.targets q hq
      · exact ⟨v, htargets hbr v (by simp [hv]), by rw [List.mem_singleton.1 hq]⟩
  · have hline := decodeLine_encode_of_ne_br policy hwf hbr
    have hstep := PassStep.emit (p := p) (n := n) hline
    refine ⟨_, passLine_eq_ok_iff.2 hstep, ?_, h.symbols, by simp [h.length], h.targets, h.noSkips⟩
    refine h.tracked.step hstep (by simp [hline]) (fun r hr => ?_) (by simp [hline])
    rw [hline] at hr
    cases hr
    rw [h.length, hi]; rfl

/-- Pass 1 over the lines from instruction `k` on, and the empty last line of the text. -/
theorem passLines_encodeFrom (policy : ImmPolicy) (hreach : ∀ i ∈ is, InReach is.length i) {rest : List Instr}
    (hrest : is.drop k = rest) (hk : k ≤ is.length) (h : EncodedPass is k k p) :
    ∃ q, passLines policy p n (encodeFrom k rest ++ [[]]) = .ok q ∧ EncodedPass is (is.length + 1) is.length q := by
  induction rest generalizing k n p with
  | nil =>
    obtain rfl : k = is.length := by have := List.drop_eq_nil_iff.1 hrest; omega
    obtain ⟨q, hq, hpass⟩ := encodedPass_labelLine h policy n
    exact ⟨q, by simp [encodeFrom, passLines_cons hq, passLines, passLine, decodeLine, classifyLine], hpass⟩
  | cons i rest ih =>
    have hi : is[k]? = some i := by rw [← List.head?_drop, hrest]; rfl
    have hlt : k < is.length := (List.getElem?_eq_some_iff.1 hi).1
    obtain ⟨q, hq, hlabel⟩ := encodedPass_labelLine h policy n
    obtain ⟨u, hu, hinstr⟩ := encodedPass_encode hlabel hi (hreach i (List.mem_of_getElem? hi)) policy (n + 1)
    obtain ⟨t, ht, hpass⟩ := ih (n := n + 1 + 1) (by rw [← List.tail_drop, hrest]; rfl) hlt hinstr
    exact ⟨t, by simp [encodeFrom, passLines_cons hq, passLines_cons hu, ht], hpass⟩

theorem encodedPass_empty (is : List Instr) : EncodedPass is 0 0 {} := ⟨trackedPass_empty, rfl, rfl, by simp, rfl⟩

end Sys2Proof.Proofs
end

section
/-! PROOF. Encoded programs assemble (R60 to R87). -/

namespace Sys2Proof.Proofs

/-- Settles O3: pass 1 accepts every encoded line, with each label's name telling its index (`passLines_encodeFrom`); so
pass 2 finds every label, and gives each waiting branch the target it was encoded from. -/
theorem encodedProgramAssembles : Obligations.EncodedProgramAssembles := by
  intro policy is hreach
  obtain ⟨p, hpass, h⟩ :=
    passLines_encodeFrom (n := 1) policy hreach is.drop_zero (Nat.zero_le _) (encodedPass_empty is)
  have hlabels : ∀ q ∈ p.pending, ∃ v, p.symbols.lookup q.name = some v := fun q hq => by
    obtain ⟨v, hv, hname⟩ := h.targets q hq
    exact ⟨v, by rw [h.symbols, hname, lookup_indexSymbols (Nat.lt_succ_of_le hv)]⟩
  obtain ⟨image, himage⟩ := resolve_isOk hlabels p.records
  obtain ⟨hlength, hfinal⟩ := h.tracked.image himage
  have hrecords : image = is.map Instr.record := by
    refine List.ext_getElem (by simp [hlength, h.length]) fun j hj _ => ?_
    obtain ⟨i, hi, hrecord⟩ := Option.map_eq_some_iff.1 (hfinal j image[j] (List.getElem?_eq_getElem hj))
    simp [← hrecord, (List.getElem?_eq_some_iff.1 hi).2]
  simp [assemble, sourceLines_encodeProgram, assembleLines, hpass, himage, h.noSkips, hrecords]

end Sys2Proof.Proofs
end

section
/-! SUPPORT. Line numbers (R78, R90, R95): they reach the diagnostics and the refusals, and no record, so that passes which
differ in them only make the same program image. -/

namespace Sys2Proof.Proofs

variable {policy : ImmPolicy} {p q : Pass} {m n : Nat} {line : Text} {lines : List Text}

/-! ### Tables without their line numbers -/

/-- A label reference without its line number. -/
def forgetLine (q : Pending) : Pending := { q with line := 0 }

/-- The tables without line numbers. -/
def forgetLines (p : Pass) : Pass := { p with pending := p.pending.map forgetLine, diag := [] }

theorem forgetLines_eq_iff :
    forgetLines p = forgetLines q ↔
      p.records = q.records ∧ p.symbols = q.symbols ∧ p.pending.map forgetLine = q.pending.map forgetLine := by
  simp [forgetLines]

/-- Two verdicts that are refusals both, or the same tables but for line numbers. -/
def SameTables (x y : Except DecodeRefusal Pass) : Prop := x.toOption.map forgetLines = y.toOption.map forgetLines

/-- Each branch of pass 1 reads the records and the symbols only. -/
theorem sameTables_passLine (h : forgetLines p = forgetLines q) :
    SameTables (passLine policy p m line) (passLine policy q n line) := by
  obtain ⟨hrecords, hsymbols, hpending⟩ := forgetLines_eq_iff.1 h
  unfold passLine SameTables
  rw [hrecords, hsymbols]
  cases decodeLine policy line with
  | blank => exact congrArg some h
  | label name =>
    cases hlookup : q.symbols.lookup name <;> simp [hlookup, Except.toOption, forgetLines_eq_iff, hpending]
  | skip => simp [Except.toOption, forgetLines_eq_iff, hpending]
  | refuse => rfl
  | emit r label =>
    cases label with
    | none => simp [Except.toOption, forgetLines_eq_iff, hpending]
    | some name =>
      cases hlookup : q.symbols.lookup name <;>
        simp [hlookup, Except.toOption, forgetLines_eq_iff, forgetLine, hpending]

theorem sameTables_passLines (h : forgetLines p = forgetLines q) :
    SameTables (passLines policy p m lines) (passLines policy q n lines) := by
  induction lines generalizing p q m n with
  | nil => exact congrArg some h
  | cons line lines ih =>
    have hline := sameTables_passLine (policy := policy) (m := m) (n := n) (line := line) h
    unfold passLines
    cases hp : passLine policy p m line <;> cases hq : passLine policy q n line <;> rw [hp, hq] at hline
    case error.error => rfl
    case error.ok => cases hline
    case ok.error => cases hline
    case ok.ok p' q' => exact ih (Option.some.inj hline)

theorem passLines_append (before : List Text) :
    passLines policy p n (before ++ lines) =
      (passLines policy p n before).bind fun q => passLines policy q (n + before.length) lines := by
  induction before generalizing p n with
  | nil => rfl
  | cons line before ih =>
    simp only [List.cons_append, passLines]
    split
    next => rfl
    next q hq => rw [ih, List.length_cons, Nat.add_right_comm, Nat.add_assoc]

theorem passLine_skip (h : decodeLine policy line = .skip) (p : Pass) (n : Nat) :
    passLine policy p n line = .ok { p with diag := p.diag ++ [n] } := passLine_eq_ok_iff.2 (.skip h)

theorem sameTables_skip (h : decodeLine policy line = .skip) (before after : List Text) :
    SameTables (passLines policy p n (before ++ line :: after)) (passLines policy p n (before ++ after)) := by
  rw [passLines_append, passLines_append]
  cases passLines policy p n before with
  | error e => rfl
  | ok q =>
    simp only [Except.bind, passLines_cons (passLine_skip h q _)]
    exact sameTables_passLines rfl

/-! ### The program image -/

theorem resolve_forgetLine (symbols : List (Text × Nat)) (qs : List Pending) (rs : List Record) :
    (resolve symbols (qs.map forgetLine) rs).toOption = (resolve symbols qs rs).toOption := by
  induction qs generalizing rs with
  | nil => rfl
  | cons q qs ih =>
    simp only [List.map_cons, resolve, forgetLine]
    split
    next => rfl
    next => exact ih _

/-- The image is made from the tables without their line numbers. -/
theorem image?_assembleLines (policy : ImmPolicy) (lines : List Text) :
    (assembleLines policy lines).image? =
      ((passLines policy {} 1 lines).toOption.map forgetLines).bind fun p =>
        (resolve p.symbols p.pending p.records).toOption := by
  unfold assembleLines
  cases passLines policy {} 1 lines with
  | error e => rfl
  | ok p =>
    change _ = (resolve p.symbols (p.pending.map forgetLine) p.records).toOption
    rw [resolve_forgetLine]
    cases hresolve : resolve p.symbols p.pending p.records <;> simp [hresolve, Verdict.image?, Except.toOption]

/-! ### The diagnostics -/

theorem mem_diag_of_passStep {k : Nat} (hstep : PassStep policy p n line q) (h : k ∈ p.diag) : k ∈ q.diag := by
  cases hstep with
  | skip => exact List.mem_append_left _ h
  | _ => exact h

/-- A skipped line's number stays on the list. -/
theorem mem_diag_of_skip (h : decodeLine policy line = .skip) {before after : List Text}
    (hpass : passLines policy p n (before ++ line :: after) = .ok q) : n + before.length ∈ q.diag := by
  rw [passLines_append] at hpass
  cases hbefore : passLines policy p n before with
  | error e => rw [hbefore] at hpass; cases hpass
  | ok u =>
    rw [hbefore, Except.bind, passLines_cons (passLine_skip h u _)] at hpass
    exact passLines_induction (motive := fun p => n + before.length ∈ p.diag) (fun _ _ _ _ => mem_diag_of_passStep) hpass
      (by simp)

end Sys2Proof.Proofs
end

section
/-! PROOF. A skipped line is absent (R78, R95). -/

namespace Sys2Proof.Proofs

/-- Settles O6: the image is made from tables without line numbers (`image?_assembleLines`), and a skipped line changes the
tables in nothing else (`sameTables_skip`); pass 1 takes no number off the diagnostics (`mem_diag_of_skip`). -/
theorem skippedLineIsAbsent : Obligations.SkippedLineIsAbsent := by
  intro policy before after line hskip
  constructor
  · have htables : SameTables _ _ := sameTables_skip (p := {}) (n := 1) hskip before after
    rw [image?_assembleLines, image?_assembleLines, htables]
  · intro image diag h
    obtain ⟨p, hpass, -, rfl⟩ := assembleLines_eq_program h
    rw [Nat.add_comm]
    exact mem_diag_of_skip hskip hpass

end Sys2Proof.Proofs
end

section
/-! PROOF. The sample texts (R88). -/

namespace Sys2Proof.Proofs

/-- Settles O1: the decoder is evaluated on each text. -/
theorem sampleTextsDecode : Obligations.SampleTextsDecode := by
  unfold Obligations.SampleTextsDecode
  decide

end Sys2Proof.Proofs
end

section
/-! SUPPORT. The bit-serial adder and subtractor in closed form (R102, R104): an induction over the bits, carrying the sum of
the low `k` bits and the carry that is still to be added at bit `k`. -/

namespace Sys2Proof.Proofs

open Sys2Proof.Machine Sys2Proof.Laws

variable {r : Word} {k : Nat}

/-! ### One bit more -/

theorem addBitsTo_succ (a b : Word) (cin : Bool) (k : Nat) :
    addBitsTo a b cin (k + 1) =
      ((addBitsTo a b cin k).1 ||| bitAt k (a.getLsbD k ^^ b.getLsbD k ^^ (addBitsTo a b cin k).2),
        (a.getLsbD k && b.getLsbD k) || ((addBitsTo a b cin k).2 && (a.getLsbD k ^^ b.getLsbD k))) := rfl

theorem subBitsTo_succ (a b : Word) (bin : Bool) (k : Nat) :
    subBitsTo a b bin (k + 1) =
      ((subBitsTo a b bin k).1 ||| bitAt k (a.getLsbD k ^^ b.getLsbD k ^^ (subBitsTo a b bin k).2),
        (!a.getLsbD k && b.getLsbD k) || ((subBitsTo a b bin k).2 && !(a.getLsbD k ^^ b.getLsbD k))) := rfl

/-- The low `k + 1` bits are the low `k` bits and bit `k`. -/
theorem uint_mod_two_pow_succ (w : Word) (k : Nat) :
    uint w % 2 ^ (k + 1) = uint w % 2 ^ k + 2 ^ k * (w.getLsbD k).toNat := by
  rw [Nat.pow_succ, Nat.mod_mul, ← BitVec.testBit_toNat, Nat.toNat_testBit]

theorem uint_bitAt (hk : k < 32) (x : Bool) : uint (bitAt k x) = 2 ^ k * x.toNat := by
  have hpow : 2 ^ k < 2 ^ 32 := Nat.pow_lt_pow_right (by decide) hk
  cases x with
  | false => simp [bitAt, uint]
  | true => simpa [bitAt, uint, Nat.shiftLeft_eq] using hpow

/-- A bit put above the bits a word already has is added to it. -/
theorem uint_or_bitAt (hk : k < 32) (hr : uint r < 2 ^ k) (x : Bool) :
    uint (r ||| bitAt k x) = uint r + 2 ^ k * x.toNat := by
  rw [Nat.add_comm, Nat.two_pow_add_eq_or_of_lt hr, ← uint_bitAt hk x, Nat.or_comm]
  exact BitVec.toNat_or ..

theorem uint_or_bitAt_lt (hk : k < 32) (hr : uint r < 2 ^ k) (x : Bool) : uint (r ||| bitAt k x) < 2 ^ (k + 1) := by
  have hx : 2 ^ k * x.toNat ≤ 2 ^ k * 1 := Nat.mul_le_mul_left _ x.toNat_le
  rw [uint_or_bitAt hk hr, Nat.pow_succ]
  omega

/-- The full adder: the sum bit and the carry out of three bits (R102). -/
theorem fullAdder_toNat (x y c : Bool) :
    (x ^^ y ^^ c).toNat + 2 * ((x && y) || (c && (x ^^ y))).toNat = x.toNat + y.toNat + c.toNat := by
  cases x <;> cases y <;> cases c <;> rfl

/-- The full subtractor: the difference bit and the borrow out of three bits (R104). -/
theorem fullSubtractor_toNat (x y w : Bool) :
    (x ^^ y ^^ w).toNat + y.toNat + w.toNat = x.toNat + 2 * ((!x && y) || (w && !(x ^^ y))).toNat := by
  cases x <;> cases y <;> cases w <;> rfl

/-! ### The low bits -/

theorem addBitsTo_toNat (a b : Word) (cin : Bool) (hk : k ≤ 32) :
    uint (addBitsTo a b cin k).1 < 2 ^ k ∧
    uint (addBitsTo a b cin k).1 + 2 ^ k * (addBitsTo a b cin k).2.toNat =
      uint a % 2 ^ k + uint b % 2 ^ k + cin.toNat := by
  induction k with
  | zero => simp [addBitsTo, uint, Nat.mod_one]
  | succ k ih =>
    obtain ⟨hlt, hsum⟩ := ih (by omega)
    rw [addBitsTo_succ]
    refine ⟨uint_or_bitAt_lt hk hlt _, ?_⟩
    have hbit := congrArg (2 ^ k * ·) (fullAdder_toNat (a.getLsbD k) (b.getLsbD k) (addBitsTo a b cin k).2)
    rw [uint_or_bitAt hk hlt, uint_mod_two_pow_succ, uint_mod_two_pow_succ, Nat.pow_succ]
    simp only [Nat.mul_add] at hbit
    linarith

theorem subBitsTo_toNat (a b : Word) (bin : Bool) (hk : k ≤ 32) :
    uint (subBitsTo a b bin k).1 < 2 ^ k ∧
    uint (subBitsTo a b bin k).1 + uint b % 2 ^ k + bin.toNat =
      uint a % 2 ^ k + 2 ^ k * (subBitsTo a b bin k).2.toNat := by
  induction k with
  | zero => simp [subBitsTo, uint, Nat.mod_one]
  | succ k ih =>
    obtain ⟨hlt, hdiff⟩ := ih (by omega)
    rw [subBitsTo_succ]
    refine ⟨uint_or_bitAt_lt hk hlt _, ?_⟩
    have hbit := congrArg (2 ^ k * ·) (fullSubtractor_toNat (a.getLsbD k) (b.getLsbD k) (subBitsTo a b bin k).2)
    rw [uint_or_bitAt hk hlt, uint_mod_two_pow_succ, uint_mod_two_pow_succ, Nat.pow_succ]
    simp only [Nat.mul_add] at hbit
    linarith

/-! ### Whole words -/

theorem uint_lt (w : Word) : uint w < 2 ^ 32 := w.isLt

/-- Sum word and carry out are the low 32 bits and bit 32 of the exact sum. -/
theorem addBits_toNat (a b : Word) (cin : Bool) :
    uint (addBits a b cin).1 + 2 ^ 32 * (addBits a b cin).2.toNat = uint a + uint b + cin.toNat := by
  have hsum := (addBitsTo_toNat a b cin (Nat.le_refl 32)).2
  rwa [Nat.mod_eq_of_lt (uint_lt a), Nat.mod_eq_of_lt (uint_lt b)] at hsum

/-- The borrow out is what the difference word owes. -/
theorem subBits_toNat (a b : Word) (bin : Bool) :
    uint (subBits a b bin).1 + uint b + bin.toNat = uint a + 2 ^ 32 * (subBits a b bin).2.toNat := by
  have hdiff := (subBitsTo_toNat a b bin (Nat.le_refl 32)).2
  rwa [Nat.mod_eq_of_lt (uint_lt a), Nat.mod_eq_of_lt (uint_lt b)] at hdiff

theorem addBits_carry (a b : Word) (cin : Bool) :
    (addBits a b cin).2 = decide (2 ^ 32 ≤ uint a + uint b + cin.toNat) := by
  have hlt := uint_lt (addBits a b cin).1
  have hsum := addBits_toNat a b cin
  have hle := (addBits a b cin).2.toNat_le
  rw [Bool.eq_iff_iff, decide_eq_true_eq, ← Bool.toNat_eq_one]
  omega

theorem subBits_borrow (a b : Word) (bin : Bool) :
    (subBits a b bin).2 = decide (uint a < uint b + bin.toNat) := by
  have hlt := uint_lt (subBits a b bin).1
  have hdiff := subBits_toNat a b bin
  have hle := (subBits a b bin).2.toNat_le
  rw [Bool.eq_iff_iff, decide_eq_true_eq, ← Bool.toNat_eq_one]
  omega

theorem uint_addBits (a b : Word) (cin : Bool) :
    uint (addBits a b cin).1 = (uint a + uint b + cin.toNat) % 2 ^ 32 := by
  rw [← addBits_toNat, Nat.add_mul_mod_self_left, Nat.mod_eq_of_lt (uint_lt _)]

theorem uint_subBits (a b : Word) (bin : Bool) :
    (uint (subBits a b bin).1 : Int) = ((uint a : Int) - uint b - bin.toNat) % 2 ^ 32 := by
  have hlt := uint_lt (subBits a b bin).1
  have hdiff := subBits_toNat a b bin
  omega

/-! ### As words, and as the wide result's truncation -/

theorem trunc32_uint (w : Word) : trunc32 (uint w) = w := by simp [trunc32, uint]

theorem trunc32_emod (n : Int) : trunc32 (n % 2 ^ 32) = trunc32 n :=
  BitVec.eq_of_toInt_eq (by
    rw [BitVec.toInt_ofInt, BitVec.toInt_ofInt]; exact Int.emod_bmod n (2 ^ 32))

theorem addBits_value (a b : Word) (cin : Bool) : (addBits a b cin).1 = sumOf a b cin :=
  BitVec.eq_of_toNat_eq ((uint_addBits a b cin).trans (BitVec.toNat_ofNat _ _).symm)

theorem subBits_value (a b : Word) (bin : Bool) : (subBits a b bin).1 = differenceOf a b bin := by
  rw [← trunc32_uint (subBits a b bin).1, uint_subBits, trunc32_emod]

theorem sumOf_eq_add (a b : Word) (cin : Bool) : sumOf a b cin = a + b + BitVec.ofNat 32 cin.toNat := by
  simp [sumOf, BitVec.ofNat_add]

theorem trunc32_sint (w : Word) : trunc32 (sint w) = w := BitVec.ofInt_toInt

theorem trunc32_add (m n : Int) : trunc32 (m + n) = trunc32 m + trunc32 n := BitVec.ofInt_add m n

theorem trunc32_sub (m n : Int) : trunc32 (m - n) = trunc32 m - trunc32 n := by
  simp only [trunc32, Int.sub_eq_add_neg, BitVec.ofInt_add, BitVec.ofInt_neg, BitVec.sub_eq_add_neg]

theorem trunc32_toNat (n : Nat) : trunc32 n = BitVec.ofNat 32 n := BitVec.ofInt_natCast 32 n

theorem differenceOf_eq_sub (a b : Word) (bin : Bool) : differenceOf a b bin = a - b - BitVec.ofNat 32 bin.toNat := by
  simp [differenceOf, trunc32_sub]

theorem toInt_eq_toNat (c : Bool) : c.toInt = c.toNat := by cases c <;> rfl

/-- The wide sum truncates to the sum word: a word is its signed value modulo 2^32 as well as its unsigned one. -/
theorem trunc32_arithAdd_wide (a b : Word) (cin : Bool) :
    trunc32 (arithAdd a b cin).wide = (arithAdd a b cin).value := by
  have hvalue : (arithAdd a b cin).value = a + b + BitVec.ofNat 32 cin.toNat := by
    rw [arithAdd, addBits_value, sumOf_eq_add]
  rw [hvalue, arithAdd, trunc32_add, trunc32_add, trunc32_sint, trunc32_sint, toInt_eq_toNat, trunc32_toNat]

theorem trunc32_arithSub_wide (a b : Word) (bin : Bool) :
    trunc32 (arithSub a b bin).wide = (arithSub a b bin).value := by
  have hvalue : (arithSub a b bin).value = a - b - BitVec.ofNat 32 bin.toNat := by
    rw [arithSub, subBits_value, differenceOf_eq_sub]
  rw [hvalue, arithSub, trunc32_sub, trunc32_sub, trunc32_sint, trunc32_sint, toInt_eq_toNat, trunc32_toNat]

/-- Within the signed range truncation loses nothing. -/
theorem sint_trunc32 {n : Int} (hlow : -2 ^ 31 ≤ n) (hhigh : n ≤ 2 ^ 31 - 1) : sint (trunc32 n) = n :=
  BitVec.toInt_ofInt_eq_self (by decide) hlow (by omega)

/-- V reads a result as signed (R105): it is set exactly when the wide value is not the signed value of its word. -/
theorem wideOverflow_iff_sint_ne {r : ArithResult} (h : trunc32 r.wide = r.value) :
    wideOverflow r.wide = true ↔ sint r.value ≠ r.wide := by
  obtain ⟨hlow, hhigh⟩ := sint_bounds r.value
  simp only [wideOverflow, decide_eq_true_eq]
  constructor
  · omega
  · intro hne
    by_contra hin
    exact hne (h ▸ sint_trunc32 (by omega) (by omega))

end Sys2Proof.Proofs
end

section
/-! PROOF. The arithmetic of the execution core (R102, R104, R105, R116). -/

namespace Sys2Proof.Proofs

open Sys2Proof.Machine Sys2Proof.Laws

/-- Settles O7: the carry out of the recurrence is bit 32 of the exact sum (`addBits_toNat`). -/
theorem addBitsClosedForm : Obligations.AddBitsClosedForm := fun a b cin =>
  ⟨uint_addBits a b cin, by rw [addBits_carry, decide_eq_true_eq]⟩

/-- Settles O8: the borrow out of the recurrence is what the difference owes (`subBits_toNat`). -/
theorem subBitsClosedForm : Obligations.SubBitsClosedForm := fun a b bin =>
  ⟨uint_subBits a b bin, by rw [subBits_borrow, decide_eq_true_eq]⟩

/-- Settles O9: sum and difference are those of words, to which the wide results truncate; V follows from the truncation
alone (`wideOverflow_iff_sint_ne`). -/
theorem arithmeticLaws : Obligations.ArithmeticLaws := by
  intro a b c
  have hadd := trunc32_arithAdd_wide a b c
  have hsub := trunc32_arithSub_wide a b c
  refine ⟨?_, hadd, hsub, wideOverflow_iff_sint_ne hadd, wideOverflow_iff_sint_ne hsub⟩
  rw [subBits_value, addBits_value, differenceOf_eq_sub, sumOf_eq_add]
  simp

end Sys2Proof.Proofs
end

section
/-! PROOF. Words from integers (R100) and the condition table (R110). -/

namespace Sys2Proof.Proofs

open Sys2Proof.Machine Sys2Proof.Laws

/-- Settles O5: WRAP truncates; SATURATE truncates only in range, where `sint` undoes it. -/
theorem fromIntSaturatesOrWraps : Obligations.FromIntSaturatesOrWraps := by
  intro v
  refine ⟨?_, ?_⟩
  · simp only [fromInt]
    split
    case isTrue hhigh =>
      have hmax : sint 0x7FFFFFFF#32 = 2 ^ 31 - 1 := rfl
      omega
    case isFalse hhigh =>
      split
      case isTrue hlow =>
        have hmin : sint 0x80000000#32 = -2 ^ 31 := rfl
        omega
      case isFalse hlow =>
        rw [sint_trunc32 (by omega) (by omega)]
        omega
  · rw [fromInt, uint, trunc32, BitVec.toNat_ofInt]
    omega

/-- Settles O10: the evaluator is the table with Boolean connectives, on the four flags and nothing else. -/
theorem conditionTable : Obligations.ConditionTable := by
  refine ⟨fun s => ?_, fun s t c hn hz hc hv => ?_⟩
  · simp only [State.meets, condHolds, Bool.and_eq_true, Bool.or_eq_true, Bool.not_eq_true', beq_iff_eq, bne_iff_ne,
      and_self, iff_self]
  · rw [State.meets, State.meets, hn, hz, hc, hv]

end Sys2Proof.Proofs
end

section
/-! SUPPORT. Every instruction stands behind the condition gate (R112), and none is refused. -/

namespace Sys2Proof.Proofs

open Sys2Proof.Machine Sys2Proof.Laws

variable {c : Cond} {rs : List Nat} {im : Option Word} {s : State}

/-! ### The gate -/

/-- Each instruction's meaning is a gate on its record's condition, whatever stands behind the gate. -/
theorem exec_unmet {i : Instr} (h : s.meets i.record.cond = false) : exec i s = .next (s.setSignal .sequential) := by
  cases i <;> exact if_neg (Bool.eq_false_iff.1 h)

theorem execRecord_of_instr? {r : Record} {i : Instr} (h : r.instr? = some i) (s : State) :
    execRecord r s = exec i s := by rw [execRecord, h]

theorem execRecord_of_unknown {r : Record} (h : r.instr? = none) (s : State) :
    execRecord r s = gated r.cond s fun s => .fault (.unknownOpcode s.index) := by rw [execRecord, h]

theorem execRecord_unmet {r : Record} (h : s.meets r.cond = false) :
    execRecord r s = .next (s.setSignal .sequential) := by
  cases hi : r.instr? with
  | none => rw [execRecord_of_unknown hi, gated_unmet _ h]
  | some i =>
    rw [execRecord_of_instr? hi]
    exact exec_unmet (by rwa [record_of_instr? hi])

/-! ### No refusal -/

/-- An outcome that is a next state or a fault. -/
def NotRefused (out : Out) : Prop := ∀ r, out ≠ .refused r

theorem notRefused_next (t : State) : NotRefused (.next t) := fun _ h => nomatch h
theorem notRefused_fault (f : Fault) : NotRefused (.fault f) := fun _ h => nomatch h

theorem notRefused_gated {body : State → Out} (h : ∀ s, NotRefused (body s)) (c : Cond) (s : State) :
    NotRefused (gated c s body) := by
  unfold gated
  split
  · exact h _
  · exact notRefused_next _

theorem notRefused_withOperands {α : Type} {body : α → Out} (h : ∀ a, NotRefused (body a)) (s : State) (o : Option α) :
    NotRefused (withOperands s o body) := by
  cases o with
  | none => exact notRefused_fault _
  | some a => exact h a

theorem notRefused_unlessFault {out : Out} (h : NotRefused out) (f : Option Fault) : NotRefused (unlessFault f out) := by
  cases f with
  | none => exact h
  | some f => exact notRefused_fault f

/-- The shape of every meaning: the gate, then the operands, then what is done with them. -/
theorem notRefused_onOperands {α : Type} {o : Option α} {body : State → α → Out} (h : ∀ s a, NotRefused (body s a)) :
    NotRefused (gated c s fun s => withOperands s o (body s)) :=
  notRefused_gated (fun s => notRefused_withOperands (h s) s o) c s

theorem notRefused_dp3 {write : Nat → Word → Word → State → State} : NotRefused (dp3 c rs im s write) :=
  notRefused_onOperands fun _ _ => notRefused_unlessFault (notRefused_next _) _

theorem notRefused_cmp2 {write : Word → Word → State → State} : NotRefused (cmp2 c rs im s write) :=
  notRefused_onOperands fun _ _ => notRefused_unlessFault (notRefused_next _) _

theorem notRefused_loadCell {extend : Word → Word} : NotRefused (loadCell c rs im s extend) :=
  notRefused_onOperands fun _ _ => notRefused_unlessFault (notRefused_unlessFault (notRefused_next _) _) _

theorem notRefused_storeCell {place : Word → Word → Word} : NotRefused (storeCell c rs im s place) :=
  notRefused_onOperands fun _ _ => notRefused_unlessFault (notRefused_unlessFault (notRefused_next _) _) _

theorem notRefused_doubleword {body : LsdOperands → Word → Word → State → State} :
    NotRefused (doubleword c rs im s body) :=
  notRefused_onOperands fun _ _ =>
    notRefused_unlessFault (notRefused_unlessFault (notRefused_unlessFault (notRefused_next _) _) _) _

theorem notRefused_multiple {mode : UpdateMode} {body : LsmOperands → List Word → State → State} :
    NotRefused (multiple mode c rs im s body) :=
  notRefused_onOperands fun _ _ => notRefused_unlessFault (notRefused_unlessFault (notRefused_next _) _) _

theorem notRefused_loadMultiple {mode : UpdateMode} : NotRefused (loadMultiple mode c rs im s) := notRefused_multiple

theorem notRefused_storeMultiple {mode : UpdateMode} : NotRefused (storeMultiple mode c rs im s) := notRefused_multiple

theorem notRefused_exec (i : Instr) (s : State) : NotRefused (exec i s) := by
  cases i with
  | add | adc | sub | sbc | rsb | rsc => unfold exec; exact notRefused_dp3
  | and | orr | eor | bic => unfold exec; exact notRefused_dp3
  | cmn | cmp | tst | teq => unfold exec; exact notRefused_cmp2
  | ldr | ldrb | ldrh | ldrsb | ldrsh => unfold exec; exact notRefused_loadCell
  | str | strb | strh | strsb | strsh => unfold exec; exact notRefused_storeCell
  | ldrd | strd => unfold exec; exact notRefused_doubleword
  | ldm | ldmia | ldmib | ldmda | ldmdb => unfold exec; exact notRefused_loadMultiple
  | stm | stmia | stmib | stmda | stmdb => unfold exec; exact notRefused_storeMultiple
  | b | bl | swi => unfold exec; exact notRefused_onOperands fun _ _ => notRefused_next _

theorem notRefused_execRecord (r : Record) (s : State) : NotRefused (execRecord r s) := by
  cases hi : r.instr? with
  | none => rw [execRecord_of_unknown hi]; exact notRefused_gated (fun _ => notRefused_fault _) _ s
  | some i => rw [execRecord_of_instr? hi]; exact notRefused_exec i s

end Sys2Proof.Proofs
end

section
/-! SUPPORT. A compare beside the data-processing instruction it mirrors (R109): the same operands, the same flag update. -/

namespace Sys2Proof.Proofs

open Sys2Proof.Machine Sys2Proof.Laws Sys2Proof.Statements

theorem dp3Operands_registers (d n : Nat) (o : Operand2) :
    dp3Operands (d :: n :: o.registers) o.imm? = some ⟨d, n, o⟩ := by cases o <;> rfl

theorem cmp2Operands_registers (n : Nat) (o : Operand2) : cmp2Operands (n :: o.registers) o.imm? = some ⟨n, o⟩ := by
  cases o <;> rfl

theorem frame_setArithFlags (s : State) (r : ArithResult) : frame s (s.setArithFlags r) [] [] :=
  ⟨fun _ _ _ => rfl, fun _ _ => rfl, rfl, rfl, rfl, rfl, rfl⟩

theorem frame_setLogicFlags (s : State) (r : Word) : frame s (s.setLogicFlags r) [] [] := by
  simp [frame, sameRegsBut, sameCellsBut, sameRun]

theorem writeArith_suffixS_sr (s : State) (d : Nat) (r : ArithResult) :
    (writeArith .s d r s).sr = (s.setArithFlags r).sr := by rw [writeArith, if_pos rfl, setArithFlags_writeReg_sr]

theorem writeLogic_suffixS_sr (s : State) (d : Nat) (r : Word) : (writeLogic .s d r s).sr = (s.setLogicFlags r).sr := by
  rw [writeLogic, if_pos rfl, setLogicFlags_writeReg_sr]

variable {s : State} {c : Cond} {d n : Nat} {o : Operand2}

/-- A compare and the data-processing instruction it mirrors complete on the same operands and leave the same SR, when their
updates do. -/
theorem cmp2_mirrors_dp3 {update : Word → Word → State → State} {write : Nat → Word → Word → State → State}
    (hc : s.meets c = true) (hd : d < 16) (hn : n < 16) (ho : ∀ k ∈ o.registers, k < 16)
    (hsr : ∀ a b u, (update a b u).sr = (write d a b u).sr) (hframe : ∀ a b u, frame u (update a b u) [] []) :
    ∃ t u, cmp2 c (n :: o.registers) o.imm? s update = .next t ∧ dp3 c (d :: n :: o.registers) o.imm? s write = .next u ∧
      t.sr = u.sr ∧ frame s t [] [] := by
  have hreads : ∀ k ∈ n :: o.registers, k < 16 := List.forall_mem_cons.2 ⟨hn, ho⟩
  exact ⟨_, _, cmp2_next hc (cmp2Operands_registers n o) hreads,
    dp3_next hc (dp3Operands_registers d n o) (List.forall_mem_cons.2 ⟨hd, hreads⟩), hsr _ _ _,
    hframe _ _ (s.setSignal .sequential)⟩

theorem compareArith_mirrors (f : Word → Word → ArithResult) (hc : s.meets c = true) (hd : d < 16) (hn : n < 16)
    (ho : ∀ k ∈ o.registers, k < 16) :
    ∃ t u, cmp2 c (n :: o.registers) o.imm? s (fun a b s => s.setArithFlags (f a b)) = .next t ∧
      dp3 c (d :: n :: o.registers) o.imm? s (fun d a b s => writeArith .s d (f a b) s) = .next u ∧
      t.sr = u.sr ∧ frame s t [] [] :=
  cmp2_mirrors_dp3 hc hd hn ho (fun _ _ u => (writeArith_suffixS_sr u d _).symm) fun _ _ u => frame_setArithFlags u _

theorem compareLogic_mirrors (f : Word → Word → Word) (hc : s.meets c = true) (hd : d < 16) (hn : n < 16)
    (ho : ∀ k ∈ o.registers, k < 16) :
    ∃ t u, cmp2 c (n :: o.registers) o.imm? s (fun a b s => s.setLogicFlags (f a b)) = .next t ∧
      dp3 c (d :: n :: o.registers) o.imm? s (fun d a b s => writeLogic .s d (f a b) s) = .next u ∧
      t.sr = u.sr ∧ frame s t [] [] :=
  cmp2_mirrors_dp3 hc hd hn ho (fun _ _ u => (writeLogic_suffixS_sr u d _).symm) fun _ _ u => frame_setLogicFlags u _

end Sys2Proof.Proofs
end

section
/-! PROOF. The condition gate (R112) and the compares (R109). -/

namespace Sys2Proof.Proofs

open Sys2Proof.Machine Sys2Proof.Laws

/-- Settles O11: the gate is passed before anything else is looked at (`execRecord_unmet`). -/
theorem failedConditionDoesNothing : Obligations.FailedConditionDoesNothing := fun s _ h =>
  ⟨⟨s.setSignal .sequential, execRecord_unmet h, rfl, rfl, rfl, ⟨rfl, rfl, rfl, rfl, rfl⟩, rfl⟩,
    fun _ hi => execRecord_of_instr? hi s⟩

/-- Settles O12, pair by pair: each compare updates the flags from the value its mirror writes, and its mirror's write of a
register touches no bit of SR. -/
theorem compareDiscardsResult : Obligations.CompareDiscardsResult := by
  intro s c m x d n o hc hd hn ho pair hpair
  simp only [List.mem_cons, List.not_mem_nil, or_false] at hpair
  rcases hpair with rfl | rfl | rfl | rfl
  · exact compareArith_mirrors (fun a b => arithAdd a b false) hc hd hn ho
  · exact compareArith_mirrors (fun a b => arithSub a b false) hc hd hn ho
  · exact compareLogic_mirrors (fun a b => a &&& b) hc hd hn ho
  · exact compareLogic_mirrors (fun a b => a ^^^ b) hc hd hn ho

end Sys2Proof.Proofs
end

section
/-! SUPPORT. The loop (R120 to R125): a step in each state of a run, and the steps of a run one after another. -/

namespace Sys2Proof.Proofs

open Sys2Proof.Machine Sys2Proof.Laws

variable {s t : State}

/-! ### The fetch and the budget -/

theorem fetch_eq_none_iff : s.fetch = none ↔ s.program.length ≤ uint s.pc := List.getElem?_eq_none_iff

theorem budgetSpent_eq_true_iff : s.budgetSpent = true ↔ s.budget ≠ 0 ∧ s.executed = s.budget := decide_eq_true_iff

theorem budgetSpent_eq_false_iff : s.budgetSpent = false ↔ (s.budget ≠ 0 → s.executed ≠ s.budget) := by
  rw [State.budgetSpent, decide_eq_false_iff_not, not_and]

/-! ### One step, by the order of R122 -/

theorem step_of_not_running (h : s.status ≠ .running) : step s = .next s := by
  rw [step, loopStep, if_neg h]

theorem step_of_past_end (h : s.status = .running) (hf : s.fetch = none) :
    step s = .next { s with status := .completed } := by
  rw [step, loopStep, if_pos h, hf]

theorem step_of_budget_spent {r : Record} (h : s.status = .running) (hf : s.fetch = some r) (hb : s.budgetSpent = true) :
    step s = .next { s with status := .budgetExhausted } := by
  rw [step, loopStep, if_pos h, hf]
  exact if_pos hb

theorem step_of_fetched {r : Record} (h : s.status = .running) (hf : s.fetch = some r) (hb : s.budgetSpent = false) :
    step s = settle s.countFetch (execRecord r s.countFetch) := by
  rw [step, loopStep, if_pos h, hf]
  exact if_neg (by rw [hb]; decide)

theorem settle_of_notRefused {out : Out} (h : NotRefused out) (s : State) : ∃ t, settle s out = .next t := by
  cases out with
  | next t => exact ⟨_, rfl⟩
  | fault f => exact ⟨_, rfl⟩
  | refused r => exact absurd rfl (h r)

theorem step_isNext (s : State) : ∃ t, step s = .next t := by
  by_cases h : s.status = .running
  · cases hf : s.fetch with
    | none => exact ⟨_, step_of_past_end h hf⟩
    | some r =>
      cases hb : s.budgetSpent with
      | true => exact ⟨_, step_of_budget_spent h hf hb⟩
      | false =>
        rw [step_of_fetched h hf hb]
        exact settle_of_notRefused (notRefused_execRecord r _) _
  · exact ⟨s, step_of_not_running h⟩

/-! ### The PC rule (R121) -/

theorem advance_of_sequential (h : s.signal = .sequential) (pc : Word) :
    s.advance pc = (s.writeReg 15 (pc + 1#32)).setSignal .sequential := by
  simp [State.advance, State.writeReg, State.setSignal, h]

theorem advance_of_branched (h : s.signal = .branched) (pc : Word) : s.advance pc = s.setSignal .sequential := by
  rw [State.advance, h, State.setSignal]

theorem advance_of_halt (h : s.signal = .halt) (pc : Word) :
    s.advance pc = { s with status := .halted, signal := .sequential } := by
  rw [State.advance, h]

theorem advance_status (s : State) (pc : Word) :
    (s.advance pc).status = if s.signal = .halt then .halted else s.status := by
  cases h : s.signal with
  | sequential => rw [advance_of_sequential h]; rfl
  | branched => rw [advance_of_branched h]; rfl
  | halt => rw [advance_of_halt h]; rfl

/-! ### The steps of a run -/

theorem steps_succ (h : step s = .next t) (k : Nat) : s.steps (k + 1) = t.steps k := by
  rw [State.steps, h]

theorem steps_of_not_running (h : s.status ≠ .running) (k : Nat) : s.steps k = s := by
  induction k with
  | zero => rfl
  | succ k ih => rw [steps_succ (step_of_not_running h), ih]

/-- A further element of a run is the step of the one before. -/
theorem step_steps (s : State) (k : Nat) : step (s.steps k) = .next (s.steps (k + 1)) := by
  induction k generalizing s with
  | zero =>
    obtain ⟨t, ht⟩ := step_isNext s
    rw [steps_succ ht]
    exact ht
  | succ k ih =>
    obtain ⟨t, ht⟩ := step_isNext s
    rw [steps_succ ht, steps_succ ht]
    exact ih t

theorem beginRun_of_not_faulted (h : ∀ f, s.status ≠ .faulted f) (image : List Record) (budget : Nat) :
    s.beginRun image budget = { s with program := image, budget := budget, status := .running, executed := 0 } := by
  unfold State.beginRun
  split
  case h_1 f hf => exact absurd hf (h f)
  case h_2 => rfl

theorem run_of_faulted {f : Fault} (h : s.status = .faulted f) (image : List Record) (budget k : Nat) :
    s.run image budget k = s := by
  have hbegin : s.beginRun image budget = s := by rw [State.beginRun, h]
  rw [State.run, hbegin]
  exact steps_of_not_running (by simp [h]) k

/-! ### A bounded run ends (R125) -/

theorem not_running_of_over (h : s.status.over = true) : s.status ≠ .running := by
  intro hrunning
  rw [hrunning] at h
  cases h

/-- A step of a running machine ends the run or counts one more of its budget (R122, R123). -/
theorem step_progress (hrun : s.status = .running) (h : step s = .next t) :
    t.status.over = true ∨
      (t.status = .running ∧ s.budgetSpent = false ∧ t.executed = s.executed + 1 ∧ t.budget = s.budget) := by
  cases step_cases h with
  | stays hnot => exact absurd hrun hnot
  | completes => exact .inl rfl
  | exhausts => exact .inl rfl
  | faults => exact .inl rfl
  | runs r i u _ _ hb _ he =>
    obtain ⟨-, -, hbudget, hstatus, hexecuted⟩ := exec_sameRun he
    rw [advance_status, advance_executed, advance_budget, hbudget, hstatus, hexecuted]
    by_cases hhalt : u.signal = .halt
    · exact .inl (by rw [if_pos hhalt])
    · exact .inr ⟨(if_neg hhalt).trans hrun, hb, rfl, rfl⟩
  | passesUnknown r _ _ hb => exact .inr ⟨hrun, hb, rfl, rfl⟩

/-- A running machine is over once the steps outnumber what is left of its budget. -/
theorem steps_over {k : Nat} (hrun : s.status = .running) (hbudget : s.budget ≠ 0) (hle : s.executed ≤ s.budget)
    (hk : s.budget < s.executed + k) : (s.steps k).status.over = true := by
  induction k generalizing s with
  | zero => omega
  | succ k ih =>
    obtain ⟨t, ht⟩ := step_isNext s
    rw [steps_succ ht]
    rcases step_progress hrun ht with hover | ⟨hrun', hspent, hexecuted, hbudget'⟩
    · rwa [steps_of_not_running (not_running_of_over hover)]
    · have hne := budgetSpent_eq_false_iff.1 hspent hbudget
      exact ih hrun' (by omega) (by omega) (by omega)

end Sys2Proof.Proofs
end

section
/-! PROOF. The loop and its runs (R114, R120 to R125). -/

namespace Sys2Proof.Proofs

open Sys2Proof.Machine Sys2Proof.Laws

/-- Settles O43: a refusal could only come of an arm of `exec`, and each one's handler answers a next state or a fault. -/
theorem stepIsTotal : Obligations.StepIsTotal := ⟨notRefused_exec, step_isNext⟩

/-- Settles O51: a machine that has faulted stays over, and any other begins with its whole budget left (`steps_over`). -/
theorem budgetedRunIsOver : Obligations.BudgetedRunIsOver := by
  intro s image budget hbudget
  by_cases hfaulted : ∃ f, s.status = .faulted f
  · obtain ⟨f, hf⟩ := hfaulted
    rw [run_of_faulted hf, hf]
  · rw [State.run, beginRun_of_not_faulted (not_exists.1 hfaulted)]
    exact steps_over rfl hbudget (Nat.zero_le _) (by simp)

/-- Settles O46: with the record fetched and the budget not spent the step is `settle` of `exec` (`step_of_fetched`), and each
end of `exec` is one equation of the PC rule. -/
theorem stepRunsDecodedInstruction : Obligations.StepRunsDecodedInstruction := by
  intro s r i hrun hfetch hinstr hbudget
  have hstep : step s = settle s.countFetch (exec i s.countFetch) := by
    rw [step_of_fetched hrun hfetch (budgetSpent_eq_false_iff.2 hbudget), execRecord_of_instr? hinstr]
  have hnext : ∀ t, exec i s.countFetch = .next t → step s = .next (t.advance s.pc) := fun t ht => by
    rw [hstep, ht]; rfl
  refine ⟨fun t ht hsignal => ⟨_, hnext t ht, ?_⟩, fun t ht hsignal => ?_, fun t ht hsignal => ?_, fun f hf => ?_⟩
  · rw [advance_of_sequential hsignal]
    have hpc : (t.writeReg 15 (s.pc + 1#32)).pc = s.pc + 1#32 := reg_writeReg_same t _ (by decide)
    refine ⟨?_, fun k hk => reg_writeReg_other t _ (by omega), rfl, rfl, ⟨rfl, rfl, rfl, rfl, rfl⟩, rfl⟩
    exact (congrArg uint hpc).trans (BitVec.toNat_add ..)
  · rw [hnext t ht, advance_of_branched hsignal]; rfl
  · rw [hnext t ht, advance_of_halt hsignal]
  · have hf : exec i s.countFetch = .fault f := hf
    rw [hstep, hf]; rfl

/-- Settles O47: the three ends that come before a fetch, in the order of R122. -/
theorem runEndsBeforeFetch : Obligations.RunEndsBeforeFetch := fun _ =>
  ⟨fun hrun hend => step_of_past_end hrun (fetch_eq_none_iff.2 hend),
    fun hrun hpc hbudget hspent =>
      step_of_budget_spent hrun (List.getElem?_eq_getElem hpc) (budgetSpent_eq_true_iff.2 ⟨hbudget, hspent⟩),
    step_of_not_running⟩

/-- Settles O56: the run's first state is read off `beginRun_of_not_faulted`; a run that starts at the end is Completed by its
first step and stays so. -/
theorem runStartsFromCurrentState : Obligations.RunStartsFromCurrentState := by
  intro s image budget k hfaulted
  have hbegin := beginRun_of_not_faulted hfaulted image budget
  refine ⟨?_, step_steps _ k, fun hend => ?_⟩
  · rw [State.run, hbegin]
    exact ⟨rfl, rfl, rfl, rfl, rfl, rfl, rfl, rfl⟩
  · rw [State.run, hbegin, steps_succ (step_of_past_end rfl (fetch_eq_none_iff.2 hend)),
      steps_of_not_running (not_running_of_over rfl)]
    exact ⟨rfl, rfl, rfl, rfl⟩

end Sys2Proof.Proofs
end

section
/-! SUPPORT. Data processing and compares that update the flags as an add or subtract does (R103): the update writes the flag
values of its result and nothing else, and an instruction of format DP3 or CMP2 that ends in it completes as its family's
rules say. -/

namespace Sys2Proof.Proofs

open Sys2Proof.Machine Sys2Proof.Laws Sys2Proof.Statements

/-! ### The flag update -/

/-- The flag values that `set_arith_flags` writes for a result (R103). -/
def arithFlags (source : NFlagSource) (r : ArithResult) : FlagValues where
  n := arithN source r
  z := r.value == 0#32
  c := r.carry
  v := wideOverflow r.wide

theorem flagsAre_setArithFlags {s : State} (h : s.params.flagPos.wf) (r : ArithResult) :
    flagsAre (s.setArithFlags r) (arithFlags s.params.nFlagSource r) :=
  ⟨withFlags_flagN _ _ _ _ _ h, withFlags_flagZ _ _ _ _ _ h, withFlags_flagC _ _ _ _ _ h, withFlags_flagV _ _ _ _ _⟩

theorem sameReservedBits_setArithFlags (s : State) (r : ArithResult) : sameReservedBits s (s.setArithFlags r) :=
  fun _ hk => withFlags_other_bit s _ _ _ _ hk

/-- The carry and the wide value are those of the exact sum, and N of the word is its bit 31 (R101, R103, R105). -/
theorem arithFlags_arithAdd (source : NFlagSource) (a b : Word) (cin : Bool) :
    arithFlags source (arithAdd a b cin) = addFlags source a b cin := by
  have hn : arithN source (arithAdd a b cin) =
      expectedN source (sumOf a b cin) (sint a + sint b + cin.toNat) := by
    cases source with
    | truncated => rw [arithN, arithAdd, addBits_value, BitVec.msb_eq_getLsbD_last]
    | wide => rw [arithN, arithAdd, toInt_eq_toNat]
  rw [arithFlags, hn, arithAdd, addBits_value, addBits_carry, toInt_eq_toNat]
  rfl

/-! ### The result and the flags of format DP3 -/

theorem srUpdated_writeArith {s : State} {x : Suffix} (h : x = .s → s.params.flagPos.wf) (d : Nat) (r : ArithResult) :
    srUpdated s (writeArith x d r s) (x = .s) (arithFlags s.params.nFlagSource r) := by
  unfold writeArith
  refine ⟨fun hx => ?_, fun hx => ?_⟩
  · rw [if_pos hx]
    exact ⟨flagsAre_setArithFlags (s := s.writeReg d r.value) (h hx) r,
      sameReservedBits_setArithFlags (s.writeReg d r.value) r⟩
  · rw [if_neg hx]; rfl

theorem frame_writeArith (s : State) (x : Suffix) (d : Nat) (r : ArithResult) :
    frame s (writeArith x d r s) [d] [] := by
  refine ⟨fun j hj hne => ?_, fun a _ => ?_, sameRun_writeArith s x d r⟩
  · rw [writeArith_reg]
    exact sameRegsBut_writeReg s d r.value j hj hne
  · rw [writeArith_mem]

/-! ### Completion -/

/-- A DP3 instruction that writes `compute` of its operands completes with that result and its flags. -/
theorem dp3Completes_of_arith {mk : Cond → UpdateMode → Suffix → List Nat → Option Word → Instr}
    {result : State → Word → Word → Word} {flags : State → Word → Word → FlagValues}
    (compute : State → Word → Word → ArithResult)
    (hexec : ∀ c m x rs im s,
      exec (mk c m x rs im) s = dp3 c rs im s fun d a b s => writeArith x d (compute s a b) s)
    (hsignal : ∀ s g a b, compute (s.setSignal g) a b = compute s a b)
    (hvalue : ∀ s a b, (compute s a b).value = result s a b)
    (hflags : ∀ s a b, arithFlags s.params.nFlagSource (compute s a b) = flags s a b) :
    dp3Completes mk result flags := by
  intro s c m x d n o hc hd hn ho hpos
  have hregs : ∀ k ∈ d :: n :: o.registers, k < 16 := List.forall_mem_cons.2 ⟨hd, List.forall_mem_cons.2 ⟨hn, ho⟩⟩
  refine ⟨_, (hexec ..).trans (dp3_next hc (dp3Operands_registers d n o) hregs), ?_, ?_, ?_,
    frame_writeArith (s.setSignal .sequential) ..⟩
  · rw [writeArith_reg, reg_writeReg_same _ _ hd, hsignal, hvalue]
  · rw [← hflags, hsignal]
    exact srUpdated_writeArith (s := s.setSignal .sequential) hpos d _
  · rw [writeArith_signal, writeReg_signal, setSignal_signal, signalOf_singleton]

/-- A CMP2 instruction that updates the flags from `compute` of its operands completes with those flags and nothing else. -/
theorem cmp2Completes_of_arith {mk : Cond → UpdateMode → Suffix → List Nat → Option Word → Instr}
    {flags : State → Word → Word → FlagValues} (compute : Word → Word → ArithResult)
    (hexec : ∀ c m x rs im s, exec (mk c m x rs im) s = cmp2 c rs im s fun a b s => s.setArithFlags (compute a b))
    (hflags : ∀ s a b, arithFlags s.params.nFlagSource (compute a b) = flags s a b) :
    cmp2Completes mk flags := by
  intro s c m x n o hc hn ho hpos
  have hregs : ∀ k ∈ n :: o.registers, k < 16 := List.forall_mem_cons.2 ⟨hn, ho⟩
  refine ⟨_, (hexec ..).trans (cmp2_next hc (cmp2Operands_registers n o) hregs), ?_,
    sameReservedBits_setArithFlags (s.setSignal .sequential) _, rfl, frame_setArithFlags (s.setSignal .sequential) _⟩
  rw [← hflags]
  exact flagsAre_setArithFlags (s := s.setSignal .sequential) hpos _

end Sys2Proof.Proofs
end

section
/-! PROOF. The add family: ADD, ADC, CMN (R130 to R132). -/

namespace Sys2Proof.Proofs

open Sys2Proof.Machine Sys2Proof.Laws

/-- Settles O16: the sum of the bit-serial adder is the closed form (`addBits_value`), and so are its flags
(`arithFlags_arithAdd`). -/
theorem addCompletes : Obligations.AddCompletes :=
  dp3Completes_of_arith (fun _ a b => arithAdd a b false) (fun _ _ _ _ _ _ => rfl) (fun _ _ _ _ => rfl)
    (fun _ a b => addBits_value a b false) fun s a b => arithFlags_arithAdd s.params.nFlagSource a b false

/-- Settles O17: as ADD, with SR.C as the carry-in, read before any flag is written; the signal that the gate sets is no part
of SR. -/
theorem adcCompletes : Obligations.AdcCompletes :=
  dp3Completes_of_arith (fun s a b => arithAdd a b s.flagC) (fun _ _ _ _ _ _ => rfl) (fun _ _ _ _ => rfl)
    (fun s a b => addBits_value a b s.flagC) fun s a b => arithFlags_arithAdd s.params.nFlagSource a b s.flagC

/-- Settles O23: the flags of ADD, whatever the suffix, and no destination. -/
theorem cmnCompletes : Obligations.CmnCompletes :=
  cmp2Completes_of_arith (fun a b => arithAdd a b false) (fun _ _ _ _ _ _ => rfl)
    fun s a b => arithFlags_arithAdd s.params.nFlagSource a b false

end Sys2Proof.Proofs
end

section
/-! SUPPORT. The flags of a subtraction (R101, R103, R105): those of `arithSub` in closed form, and the orders of the operands
that Z, C and N beside V stand for. -/

namespace Sys2Proof.Proofs

open Sys2Proof.Machine Sys2Proof.Laws Sys2Proof.Statements

/-! ### In closed form -/

/-- The borrow and the wide value are those of the exact difference, and N of the word is its bit 31 (R101, R103, R105). -/
theorem arithFlags_arithSub (source : NFlagSource) (a b : Word) (bin : Bool) :
    arithFlags source (arithSub a b bin) = subFlags source a b bin := by
  have hn : arithN source (arithSub a b bin) =
      expectedN source (differenceOf a b bin) (sint a - sint b - bin.toNat) := by
    cases source with
    | truncated => rw [arithN, arithSub, subBits_value, BitVec.msb_eq_getLsbD_last]
    | wide => rw [arithN, arithSub, toInt_eq_toNat]
  have hc : (!(subBits a b bin).2) = decide (uint b + bin.toNat ≤ uint a) := by
    rw [subBits_borrow, ← decide_not, decide_eq_decide, Nat.not_lt]
  rw [arithFlags, hn, arithSub, subBits_value, hc, toInt_eq_toNat]
  rfl

theorem borrowIn_eq_expectedBorrowIn (s : State) : s.borrowIn = expectedBorrowIn s := by
  cases h : s.params.sbcBorrowIn <;> simp only [State.borrowIn, expectedBorrowIn, h]

/-! ### As orders of the operands -/

/-- The wide difference truncates to the difference word. -/
theorem differenceOf_eq_trunc32 (a b : Word) (bin : Bool) :
    differenceOf a b bin = trunc32 (sint a - sint b - bin.toNat) := by
  rw [← subBits_value, ← toInt_eq_toNat]
  exact (trunc32_arithSub_wide a b bin).symm

/-- An overflow flips the sign: bit 31 of the truncated word and V together give the sign of the wide value. -/
theorem msb_trunc32_eq_wideOverflow_iff {wide : Int} (hlow : -2 ^ 32 ≤ wide) (hhigh : wide < 2 ^ 32) :
    (trunc32 wide).msb = wideOverflow wide ↔ 0 ≤ wide := by
  rw [BitVec.msb_eq_toInt, BitVec.toInt_ofInt, wideOverflow, decide_eq_decide, Int.bmod_def]
  split <;> omega

variable (source : NFlagSource) (a b : Word)

theorem subFlags_z_iff : (subFlags source a b false).z = true ↔ a = b := by
  have hdiff : differenceOf a b false = a - b := (differenceOf_eq_sub a b false).trans (BitVec.sub_zero _)
  rw [decide_eq_true_eq, hdiff]
  exact sub_eq_zero

theorem subFlags_c_iff : (subFlags source a b false).c = true ↔ uint b ≤ uint a := decide_eq_true_iff

/-- With N taken from the truncated word, N beside V is the true sign of the wide difference (R144). -/
theorem subFlags_n_eq_v_iff :
    (subFlags .truncated a b false).n = (subFlags .truncated a b false).v ↔ sint b ≤ sint a := by
  have ha := sint_bounds a
  have hb := sint_bounds b
  have hsign := msb_trunc32_eq_wideOverflow_iff (wide := sint a - sint b - false.toNat) (by simp; omega) (by simp; omega)
  rw [← differenceOf_eq_trunc32, BitVec.msb_eq_getLsbD_last] at hsign
  exact hsign.trans (by simp)

end Sys2Proof.Proofs
end

section
/-! PROOF. The subtract family: SUB, SBC, RSB, RSC, CMP (R140 to R144), and the conditions after a CMP. -/

namespace Sys2Proof.Proofs

open Sys2Proof.Machine Sys2Proof.Laws Sys2Proof.Statements

/-- Settles O18: the difference of the bit-serial subtractor is the closed form (`subBits_value`), and so are its flags
(`arithFlags_arithSub`). -/
theorem subCompletes : Obligations.SubCompletes :=
  dp3Completes_of_arith (fun _ a b => arithSub a b false) (fun _ _ _ _ _ _ => rfl) (fun _ _ _ _ => rfl)
    (fun _ a b => subBits_value a b false) fun s a b => arithFlags_arithSub s.params.nFlagSource a b false

/-- Settles O19: as SUB, with the borrow-in read before any flag is written; the signal that the gate sets is no part of
SR. -/
theorem sbcCompletes : Obligations.SbcCompletes :=
  dp3Completes_of_arith (fun s a b => arithSub a b s.borrowIn) (fun _ _ _ _ _ _ => rfl) (fun _ _ _ _ => rfl)
    (fun s a b => borrowIn_eq_expectedBorrowIn s ▸ subBits_value a b s.borrowIn)
    fun s a b => borrowIn_eq_expectedBorrowIn s ▸ arithFlags_arithSub s.params.nFlagSource a b s.borrowIn

/-- Settles O20: SUB with the operands exchanged. -/
theorem rsbCompletes : Obligations.RsbCompletes :=
  dp3Completes_of_arith (fun _ a b => arithSub b a false) (fun _ _ _ _ _ _ => rfl) (fun _ _ _ _ => rfl)
    (fun _ a b => subBits_value b a false) fun s a b => arithFlags_arithSub s.params.nFlagSource b a false

/-- Settles O21: SBC with the operands exchanged. -/
theorem rscCompletes : Obligations.RscCompletes :=
  dp3Completes_of_arith (fun s a b => arithSub b a s.borrowIn) (fun _ _ _ _ _ _ => rfl) (fun _ _ _ _ => rfl)
    (fun s a b => borrowIn_eq_expectedBorrowIn s ▸ subBits_value b a s.borrowIn)
    fun s a b => borrowIn_eq_expectedBorrowIn s ▸ arithFlags_arithSub s.params.nFlagSource b a s.borrowIn

/-- Settles O24: the flags of SUB, whatever the suffix, and no destination. -/
theorem cmpCompletes : Obligations.CmpCompletes :=
  cmp2Completes_of_arith (fun a b => arithSub a b false) (fun _ _ _ _ _ _ => rfl)
    fun s a b => arithFlags_arithSub s.params.nFlagSource a b false

/-- Settles O15: after CMP (O24) Z is equality, C is unsigned `≥`, and N = V is signed `≥`; the condition table (O10) builds
every condition from these three. -/
theorem compareThenConditionOrders : Obligations.CompareThenConditionOrders := by
  intro s c m x n o hmet hn ho hpos
  obtain ⟨t, ht, hflags, -, -, -⟩ := cmpCompletes s c m x n o hmet hn ho hpos
  obtain ⟨hflagN, hflagZ, hflagC, hflagV⟩ : flagsAre t (subFlags s.params.nFlagSource (s.reg n) (o.value s) false) := hflags
  have hz : t.flagZ = true ↔ s.reg n = o.value s := hflagZ ▸ subFlags_z_iff ..
  have hc : t.flagC = true ↔ uint (o.value s) ≤ uint (s.reg n) := hflagC ▸ subFlags_c_iff ..
  have huint : s.reg n = o.value s ↔ uint (s.reg n) = uint (o.value s) := BitVec.toNat_inj.symm
  have hsint : s.reg n = o.value s ↔ sint (s.reg n) = sint (o.value s) := BitVec.toInt_inj.symm
  obtain ⟨-, -, heq, hne, hcs, hcc, -, -, -, -, hhi, hls, hge, hlt, hgt, hle⟩ := conditionTable.1 t
  refine ⟨t, ht, ?_, ?_, ?_, ?_, ?_, ?_, fun hsource => ?_⟩
  · rw [heq, hz]
  · rw [hne, ← Bool.not_eq_true, hz]
  · rw [hcs, hc]
  · rw [hcc, ← Bool.not_eq_true, hc]; omega
  · rw [hhi, ← Bool.not_eq_true, hc, hz, huint]; omega
  · rw [hls, ← Bool.not_eq_true, hc, hz, huint]; omega
  · have hnv : t.flagN = t.flagV ↔ sint (o.value s) ≤ sint (s.reg n) := by
      rw [hflagN, hflagV, hsource]
      exact subFlags_n_eq_v_iff ..
    refine ⟨?_, ?_, ?_, ?_⟩
    · rw [hge, hnv]
    · rw [hlt, ne_eq, hnv]; omega
    · rw [hgt, ← Bool.not_eq_true, hnv, hz, hsint]; omega
    · rw [hle, ne_eq, hnv, hz, hsint]; omega

end Sys2Proof.Proofs
end

section
/-! SUPPORT. Data processing and compares that update the flags as a logical operation does (R107): the update writes the
closed form of the flags and nothing else, and an instruction of format DP3 or CMP2 that ends in it completes. -/

namespace Sys2Proof.Proofs

open Sys2Proof.Machine Sys2Proof.Laws Sys2Proof.Statements

/-! ### The flag update -/

/-- `set_logic_flags` is one write of the four flags, under both settings of LOGIC_CV (R107). -/
theorem setLogicFlags_eq_withFlags (s : State) (r : Word) :
    s.setLogicFlags r = s.withFlags (logicFlags s r).n (logicFlags s r).z (logicFlags s r).c (logicFlags s r).v := by
  unfold State.setLogicFlags logicFlags
  rw [BitVec.msb_eq_getLsbD_last]
  cases s.params.logicCV with
  | preserve => rfl
  | clear => rfl

theorem flagsAre_setLogicFlags {s : State} (h : s.params.flagPos.wf) (r : Word) :
    flagsAre (s.setLogicFlags r) (logicFlags s r) := by
  rw [setLogicFlags_eq_withFlags]
  exact ⟨withFlags_flagN _ _ _ _ _ h, withFlags_flagZ _ _ _ _ _ h, withFlags_flagC _ _ _ _ _ h, withFlags_flagV _ _ _ _ _⟩

theorem sameReservedBits_setLogicFlags (s : State) (r : Word) : sameReservedBits s (s.setLogicFlags r) :=
  fun _ hk => setLogicFlags_other_bit hk r

/-! ### The result and the flags of format DP3 -/

/-- The destination's write comes first, but it changes nothing that the flags are computed from. -/
theorem srUpdated_writeLogic {s : State} {x : Suffix} (h : x = .s → s.params.flagPos.wf) (d : Nat) (r : Word) :
    srUpdated s (writeLogic x d r s) (x = .s) (logicFlags s r) := by
  unfold writeLogic
  refine ⟨fun hx => ?_, fun hx => ?_⟩
  · rw [if_pos hx]
    exact ⟨flagsAre_setLogicFlags (s := s.writeReg d r) (h hx) r, sameReservedBits_setLogicFlags (s.writeReg d r) r⟩
  · rw [if_neg hx]; rfl

theorem frame_writeLogic (s : State) (x : Suffix) (d : Nat) (r : Word) : frame s (writeLogic x d r s) [d] [] := by
  refine ⟨fun j hj hne => ?_, fun a _ => ?_, sameRun_writeLogic s x d r⟩
  · rw [writeLogic_reg]
    exact sameRegsBut_writeReg s d r j hj hne
  · rw [writeLogic_mem]

/-! ### Completion -/

variable {mk : Cond → UpdateMode → Suffix → List Nat → Option Word → Instr}

/-- A DP3 instruction that writes the word `f` of its operands completes with that word and its flags. -/
theorem dp3Completes_of_logic (f : Word → Word → Word)
    (hexec : ∀ c m x rs im s, exec (mk c m x rs im) s = dp3 c rs im s fun d a b s => writeLogic x d (f a b) s) :
    dp3Completes mk (fun _ a b => f a b) fun s a b => logicFlags s (f a b) := by
  intro s c m x d n o hc hd hn ho hpos
  have hregs : ∀ k ∈ d :: n :: o.registers, k < 16 := List.forall_mem_cons.2 ⟨hd, List.forall_mem_cons.2 ⟨hn, ho⟩⟩
  refine ⟨_, (hexec ..).trans (dp3_next hc (dp3Operands_registers d n o) hregs), ?_,
    srUpdated_writeLogic (s := s.setSignal .sequential) hpos d _, ?_, frame_writeLogic (s.setSignal .sequential) ..⟩
  · rw [writeLogic_reg, reg_writeReg_same _ _ hd]
  · rw [writeLogic_signal, writeReg_signal, setSignal_signal, signalOf_singleton]

/-- A CMP2 instruction that updates the flags from the word `f` of its operands completes with those flags and nothing else. -/
theorem cmp2Completes_of_logic (f : Word → Word → Word)
    (hexec : ∀ c m x rs im s, exec (mk c m x rs im) s = cmp2 c rs im s fun a b s => s.setLogicFlags (f a b)) :
    cmp2Completes mk fun s a b => logicFlags s (f a b) := by
  intro s c m x n o hc hn ho hpos
  have hregs : ∀ k ∈ n :: o.registers, k < 16 := List.forall_mem_cons.2 ⟨hn, ho⟩
  exact ⟨_, (hexec ..).trans (cmp2_next hc (cmp2Operands_registers n o) hregs),
    flagsAre_setLogicFlags (s := s.setSignal .sequential) hpos _,
    sameReservedBits_setLogicFlags (s.setSignal .sequential) _, setLogicFlags_signal ..,
    frame_setLogicFlags (s.setSignal .sequential) _⟩

end Sys2Proof.Proofs
end

section
/-! PROOF. The logical family: AND, ORR, EOR, BIC, TST, TEQ (R151 to R156). -/

namespace Sys2Proof.Proofs

open Sys2Proof.Machine

/-- Settles O22: each of the four is a logical update of format DP3, of its own bitwise operation. -/
theorem logicalCompletes : Obligations.LogicalCompletes :=
  ⟨dp3Completes_of_logic (fun a b => a &&& b) fun _ _ _ _ _ _ => rfl,
    dp3Completes_of_logic (fun a b => a ||| b) fun _ _ _ _ _ _ => rfl,
    dp3Completes_of_logic (fun a b => a ^^^ b) fun _ _ _ _ _ _ => rfl,
    dp3Completes_of_logic (fun a b => a &&& ~~~b) fun _ _ _ _ _ _ => rfl⟩

/-- Settles O25: the flags of AND and of EOR, whatever the suffix, and no destination. -/
theorem tstTeqComplete : Obligations.TstTeqComplete :=
  ⟨cmp2Completes_of_logic (fun a b => a &&& b) fun _ _ _ _ _ _ => rfl,
    cmp2Completes_of_logic (fun a b => a ^^^ b) fun _ _ _ _ _ _ => rfl⟩

end Sys2Proof.Proofs
end

section
/-! SUPPORT. Narrow words, bit by bit (R162 to R165, R168, R169): what the extending loads and the narrow stores make of the
low bits, stated for every width. -/

namespace Sys2Proof.Proofs

open Sys2Proof.Machine Sys2Proof.Statements

/-! ### Loads -/

theorem getLsbD_zeroExtend {w k : Nat} (hk : k < 32) (v : Word) :
    ((v.setWidth w).setWidth 32).getLsbD k = zeroExtended w v k := by
  simp [zeroExtended, hk]

theorem zeroExtended_eq_ite (w : Nat) (v : Word) (k : Nat) :
    zeroExtended w v k = if k < w then v.getLsbD k else false := by
  by_cases hlow : k < w <;> simp [zeroExtended, hlow]

/-- Above the low bits stands a copy of the highest of them. -/
theorem getLsbD_signExtend {w k : Nat} (hw : 0 < w) (hk : k < 32) (v : Word) :
    ((v.setWidth w).signExtend 32).getLsbD k = signExtended w v k := by
  have hmsb : (v.setWidth w).msb = v.getLsbD (w - 1) := by
    rw [BitVec.msb_eq_getLsbD_last, BitVec.getLsbD_setWidth, decide_eq_true (by omega), Bool.true_and]
  rw [BitVec.getLsbD_signExtend, decide_eq_true hk, Bool.true_and, hmsb, BitVec.getLsbD_setWidth]
  by_cases hlow : k < w
  · simp [signExtended, hlow]
  · simp [signExtended, hlow]

/-! ### Stores -/

/-- The mask clears the low `w` bits of the old word, and the new low bits take their place. -/
theorem getLsbD_merge {w k : Nat} (hk : k < 32) (old v : Word) :
    ((old &&& BitVec.allOnes 32 <<< w) ||| (v.setWidth w).setWidth 32).getLsbD k =
      if k < w then v.getLsbD k else old.getLsbD k := by
  have hshift : k - w < 32 := by omega
  rw [BitVec.getLsbD_or, getLsbD_zeroExtend hk, BitVec.getLsbD_and, BitVec.getLsbD_shiftLeft, BitVec.getLsbD_allOnes]
  by_cases hlow : k < w <;> simp [zeroExtended, hlow, hk, hshift]

theorem getLsbD_placeByte {k : Nat} (hk : k < 32) (p : Params) (old v : Word) :
    (placeByte p.narrowStore old v).getLsbD k = narrowStored 8 p old v k := by
  unfold placeByte narrowStored
  cases p.narrowStore with
  | zeroFill => exact (getLsbD_zeroExtend hk v).trans (zeroExtended_eq_ite 8 v k)
  | merge => exact getLsbD_merge (w := 8) hk old v

theorem getLsbD_placeHalf {k : Nat} (hk : k < 32) (p : Params) (old v : Word) :
    (placeHalf p.narrowStore old v).getLsbD k = narrowStored 16 p old v k := by
  unfold placeHalf narrowStored
  cases p.narrowStore with
  | zeroFill => exact (getLsbD_zeroExtend hk v).trans (zeroExtended_eq_ite 16 v k)
  | merge => exact getLsbD_merge (w := 16) hk old v

end Sys2Proof.Proofs
end

section
/-! SUPPORT. What a list of register writes, or of cell writes, leaves unchanged, and what the loop is then told (R121). A single
transfer is the list of one write, a doubleword transfer that of two. -/

namespace Sys2Proof.Proofs

open Sys2Proof.Machine Sys2Proof.Laws Sys2Proof.Statements

theorem frame_writeRegs (s : State) (list : List Nat) (vs : List Word) :
    frame s (s.writeRegs (list.zip vs)) list [] := by
  refine ⟨sameRegsBut_writeRegs s list vs, fun a _ => ?_, ?_⟩
  · rw [writeRegs_mem]
  · simp [sameRun]

theorem signal_writeRegs (s : State) {list : List Nat} {vs : List Word} (h : vs.length = list.length) :
    ((s.setSignal .sequential).writeRegs (list.zip vs)).signal = signalOf list := by
  rw [writeRegs_signal, List.map_fst_zip h.ge, setSignal_signal]

theorem frame_writeCells (s : State) (as vs : List Word) :
    frame s (s.writeCells (as.zip vs)) [] (as.map uint) := by
  refine ⟨fun j _ _ => writeCells_reg s _ j, fun a ha => ?_, ?_⟩
  · exact read_writeCells_other s _ fun w hw heq => ha (heq ▸ List.mem_map_of_mem (List.of_mem_zip hw).1)
  · simp [sameRun]

end Sys2Proof.Proofs
end

section
/-! SUPPORT. Transfers of one cell (R160): an instruction that is `loadCell` or `storeCell` of some function of the words
completes, its result being that function bit by bit. -/

namespace Sys2Proof.Proofs

open Sys2Proof.Machine Sys2Proof.Laws Sys2Proof.Statements

variable {mk : Cond → UpdateMode → List Nat → Option Word → Instr}

theorem loadCompletes_of_loadCell {bits : Word → Nat → Bool} (extend : Word → Word)
    (hexec : ∀ c m rs im s, exec (mk c m rs im) s = loadCell c rs im s extend)
    (hbits : ∀ {k}, k < 32 → ∀ v, (extend v).getLsbD k = bits v k) : loadCompletes mk bits := by
  intro s c m t n offset hc ht hn ha
  rw [← effectiveAddress_cell] at ha ⊢
  refine ⟨_, (hexec ..).trans (loadCell_next (o := ⟨t, n, offset.getD 0#32⟩) hc rfl (by simp [ht, hn]) ha),
    fun k hk => ?_, rfl, signal_writeRegs s (list := [t]) (vs := [_]) rfl,
    frame_writeRegs (s.setSignal .sequential) [t] [_]⟩
  rw [reg_writeReg_same _ _ ht, hbits hk, State.cell]

theorem storeCompletes_of_storeCell {bits : Params → Word → Word → Nat → Bool} (place : Params → Word → Word → Word)
    (hexec : ∀ c m rs im s, exec (mk c m rs im) s = storeCell c rs im s (place s.params))
    (hbits : ∀ {k}, k < 32 → ∀ p old v, (place p old v).getLsbD k = bits p old v k) : storeCompletes mk bits := by
  intro s c m t n offset hc ht hn ha
  rw [← effectiveAddress_cell] at ha ⊢
  refine ⟨_, (hexec ..).trans (storeCell_next (o := ⟨t, n, offset.getD 0#32⟩) hc rfl (by simp [ht, hn]) ha),
    fun k hk => ?_, rfl, rfl, frame_writeCells (s.setSignal .sequential) [_] [_]⟩
  rw [writeCell_mem, read_write_same, hbits hk, State.cell]

end Sys2Proof.Proofs
end

section
/-! PROOF. Transfers of one cell: LDR and STR with their narrow forms (R161 to R165, R167 to R171). -/

namespace Sys2Proof.Proofs

open Sys2Proof.Machine

/-- Settles O26: the load that extends nothing. -/
theorem ldrCompletes : Obligations.LdrCompletes := fun _ =>
  loadCompletes_of_loadCell id (fun _ _ _ _ _ => rfl) fun _ _ => rfl

/-- Settles O27: each of the four extends the low 8 or 16 bits (`getLsbD_zeroExtend`, `getLsbD_signExtend`). -/
theorem narrowLoadsComplete : Obligations.NarrowLoadsComplete :=
  ⟨loadCompletes_of_loadCell zeroByte (fun _ _ _ _ _ => rfl) getLsbD_zeroExtend,
    loadCompletes_of_loadCell zeroHalf (fun _ _ _ _ _ => rfl) getLsbD_zeroExtend,
    loadCompletes_of_loadCell signByte (fun _ _ _ _ _ => rfl) (getLsbD_signExtend (by decide)),
    loadCompletes_of_loadCell signHalf (fun _ _ _ _ _ => rfl) (getLsbD_signExtend (by decide))⟩

/-- Settles O29: the store that places the register's word whole. -/
theorem strCompletes : Obligations.StrCompletes := fun _ =>
  storeCompletes_of_storeCell (fun _ _ v => v) (fun _ _ _ _ _ => rfl) fun _ _ _ _ => rfl

/-- Settles O30: STRSB places its word as STRB does, STRSH as STRH. -/
theorem narrowStoresComplete : Obligations.NarrowStoresComplete :=
  ⟨storeCompletes_of_storeCell (fun p => placeByte p.narrowStore) (fun _ _ _ _ _ => rfl) getLsbD_placeByte,
    storeCompletes_of_storeCell (fun p => placeByte p.narrowStore) (fun _ _ _ _ _ => rfl) getLsbD_placeByte,
    storeCompletes_of_storeCell (fun p => placeHalf p.narrowStore) (fun _ _ _ _ _ => rfl) getLsbD_placeHalf,
    storeCompletes_of_storeCell (fun p => placeHalf p.narrowStore) (fun _ _ _ _ _ => rfl) getLsbD_placeHalf⟩

end Sys2Proof.Proofs
end

section
/-! SUPPORT. Doubleword transfers (R166, R172, R173): the one fault REG_PAIR, and the next state of a valid pair. -/

namespace Sys2Proof.Proofs

open Sys2Proof.Machine Sys2Proof.Laws

/-! ### Which check raises a fault -/

theorem unlessFault_eq_fault {f : Option Fault} {out : Out} {r : Fault} :
    unlessFault f out = .fault r ↔ f = some r ∨ (f = none ∧ out = .fault r) := by
  cases f <;> simp [unlessFault]

theorem pairFault_eq_some (s : State) (t t2 : Nat) :
    s.pairFault t t2 = some (.regPair s.index t t2) ↔ ¬validPair t t2 := by
  by_cases hp : validPair t t2
  · rw [(pairFault_eq_none s t t2).2 hp]
    exact ⟨(nomatch ·), fun hnot => absurd hp hnot⟩
  · rw [State.pairFault, if_neg hp]; simp [hp]

theorem regFault_ne_regPair (s : State) (is : List Nat) (at' i j : Nat) : s.regFault is ≠ some (.regPair at' i j) := by
  simp [State.regFault]

theorem memFault_ne_regPair (s : State) (as : List Word) (at' i j : Nat) : s.memFault as ≠ some (.regPair at' i j) := by
  simp [State.memFault]

/-! ### The doubleword handler -/

theorem exec_ldrd (c : Cond) (m : UpdateMode) (rs : List Nat) (im : Option Word) (s : State) :
    exec (.ldrd c m rs im) s =
      doubleword c rs im s fun o a a2 s => (s.writeReg o.t (s.cell a)).writeReg o.t2 (s.cell a2) := rfl

theorem exec_strd (c : Cond) (m : UpdateMode) (rs : List Nat) (im : Option Word) (s : State) :
    exec (.strd c m rs im) s =
      doubleword c rs im s fun o a a2 s => (s.writeCell a (s.reg o.t)).writeCell a2 (s.reg o.t2) := rfl

variable {c : Cond} {r r2 n : Nat} {offset : Option Word} {s : State}
  {body : LsdOperands → Word → Word → State → State}

/-- Of the checks of R203, the pair check alone raises REG_PAIR, and it comes first. -/
theorem doubleword_eq_regPair_iff :
    doubleword c [r, r2, n] offset s body = .fault (.regPair s.index r r2) ↔ s.meets c = true ∧ ¬validPair r r2 := by
  unfold doubleword
  cases hc : s.meets c with
  | false => simp [gated_unmet _ hc]
  | true =>
    have hpair := pairFault_eq_some (s.setSignal .sequential) r r2
    rw [setSignal_index] at hpair
    simp [gated_met _ hc, lsdOperands, unlessFault_eq_fault, regFault_ne_regPair, memFault_ne_regPair, hpair]

/-- A valid pair and cells within MEM_SIZE pass the checks of R203. -/
theorem doubleword_completes (hc : s.meets c = true) (hp : validPair r r2) (hn : n < 16)
    (ha : expectedCell s n offset < s.params.memSize)
    (ha2 : (expectedCell s n offset + 1) % 2 ^ 32 < s.params.memSize) :
    doubleword c [r, r2, n] offset s body =
      .next (body ⟨r, r2, n, offset.getD 0#32⟩ (effectiveAddress s n (offset.getD 0#32))
        (effectiveAddress s n (offset.getD 0#32) + 1#32) (s.setSignal .sequential)) := by
  rw [← effectiveAddress_next_cell] at ha2
  rw [← effectiveAddress_cell] at ha
  exact doubleword_next (o := ⟨r, r2, n, offset.getD 0#32⟩) hc rfl hp hn ha ha2

end Sys2Proof.Proofs
end

section
/-! PROOF. Doubleword transfers: LDRD and STRD (R166, R172) and their register pairs (R173). -/

namespace Sys2Proof.Proofs

open Sys2Proof.Machine Sys2Proof.Laws

/-- Settles O28: the two registers of a valid pair differ, so the second write keeps the first. -/
theorem ldrdCompletes : Obligations.LdrdCompletes := by
  intro s c m r r2 n offset hc hp hn ha ha2
  obtain ⟨hr, hr2, hne⟩ : r < 16 ∧ r2 < 16 ∧ r ≠ r2 := by omega
  refine ⟨_, (exec_ldrd ..).trans <| doubleword_completes hc hp hn ha ha2, ?_, ?_, rfl,
    signal_writeRegs s (list := [r, r2]) (vs := [_, _]) rfl, frame_writeRegs (s.setSignal .sequential) [r, r2] [_, _]⟩
  · rw [reg_writeReg_other _ _ hne, reg_writeReg_same _ _ hr, ← effectiveAddress_cell]; rfl
  · rw [reg_writeReg_same _ _ hr2, ← effectiveAddress_next_cell]; rfl

/-- Settles O31: a cell and the next one modulo 2^32 differ, so the second write keeps the first. -/
theorem strdCompletes : Obligations.StrdCompletes := by
  intro s c m r r2 n offset hc hp hn ha ha2
  refine ⟨_, (exec_strd ..).trans <| doubleword_completes hc hp hn ha ha2, ?_, ?_, rfl, rfl, ?_⟩
  · have hne : expectedCell s n offset ≠ (expectedCell s n offset + 1) % 2 ^ 32 := by
      have := Nat.mod_lt (uint (s.reg n) + uint (offset.getD 0#32)) (y := 2 ^ 32) (by decide); omega
    rw [writeCell_mem, effectiveAddress_next_cell, read_write_other _ _ hne, writeCell_mem, effectiveAddress_cell,
      read_write_same]; rfl
  · rw [writeCell_mem, effectiveAddress_next_cell, read_write_same]; rfl
  · rw [← effectiveAddress_next_cell, ← effectiveAddress_cell]
    exact frame_writeCells (s.setSignal .sequential) [_, _] [_, _]

/-- Settles O40: LDRD and STRD make the same check (`doubleword_eq_regPair_iff`), whatever they then do; there are eight even
numbers below 15. -/
theorem registerPairCheck : Obligations.RegisterPairCheck := by
  intro s c m r r2 n offset i hi
  refine ⟨?_, ?_⟩
  · rcases List.mem_pair.1 hi with rfl | rfl
    · rw [exec_ldrd]; exact doubleword_eq_regPair_iff
    · rw [exec_strd]; exact doubleword_eq_regPair_iff
  · simp only [List.mem_cons, List.not_mem_nil, or_false]
    omega

end Sys2Proof.Proofs
end

section
/-! SUPPORT. Multiple transfers (R174): a list of writes leaves in each place the last value written to it, and the addresses of
a transfer are the cells of the closed form. -/

namespace Sys2Proof.Proofs

open Sys2Proof.Machine Sys2Proof.Laws Sys2Proof.Statements

/-! ### The last write of a list stands -/

theorem reg_writeRegs_last (s : State) {l : List (Nat × Word)} {j d : Nat} {v : Word} (hj : l[j]? = some (d, v))
    (hd : d < 16) (hlast : ∀ k e, j < k → l[k]? = some e → e.1 ≠ d) : (s.writeRegs l).reg d = v := by
  induction l generalizing s j with
  | nil => simp at hj
  | cons e l ih =>
    cases j with
    | zero =>
      obtain rfl : e = (d, v) := by simpa using hj
      have hrest : ∀ e ∈ l, e.1 ≠ d := fun e he => by
        obtain ⟨k, hk⟩ := List.mem_iff_getElem?.1 he
        exact hlast (k + 1) e k.succ_pos hk
      rw [State.writeRegs, reg_writeRegs_other _ _ hrest, reg_writeReg_same s v hd]
    | succ j => exact ih (s.writeReg e.1 e.2) hj fun k f hk hf => hlast (k + 1) f (by omega) hf

theorem read_writeCells_last (s : State) {l : List (Word × Word)} {j : Nat} {a v : Word} (hj : l[j]? = some (a, v))
    (hlast : ∀ k e, j < k → l[k]? = some e → uint e.1 ≠ uint a) : Memory.read (s.writeCells l).mem (uint a) = v := by
  induction l generalizing s j with
  | nil => simp at hj
  | cons e l ih =>
    cases j with
    | zero =>
      obtain rfl : e = (a, v) := by simpa using hj
      have hrest : ∀ e ∈ l, uint a ≠ uint e.1 := fun e he => by
        obtain ⟨k, hk⟩ := List.mem_iff_getElem?.1 he
        exact (hlast (k + 1) e k.succ_pos hk).symm
      rw [State.writeCells, read_writeCells_other _ _ hrest, writeCell_mem, read_write_same]
    | succ j => exact ih (s.writeCell e.1 e.2) hj fun k f hk hf => hlast (k + 1) f (by omega) hf

/-! ### The addresses -/

variable {mode : UpdateMode} {b : Word} {j k : Nat}

@[simp] theorem length_blockAddresses (mode : UpdateMode) (b : Word) (k : Nat) :
    (blockAddresses mode b k).length = k := by simp [blockAddresses]

theorem getElem?_blockAddresses (h : j < k) : (blockAddresses mode b k)[j]? = some (blockAddress mode b j) := by
  simp [blockAddresses, h]

theorem blockAddresses_cells (mode : UpdateMode) (b : Word) (k : Nat) :
    (blockAddresses mode b k).map uint = (List.range k).map (expectedBlockCell mode b) := by
  simp [blockAddresses, blockAddress_cell]

/-- Cells within MEM_SIZE and registers below 16 pass the checks of R203. -/
theorem multiple_completes {c : Cond} {n : Nat} {list : List Nat} {s : State}
    {body : LsmOperands → List Word → State → State} (hc : s.meets c = true) (hn : n < 16) (hl : ∀ k ∈ list, k < 16)
    (ha : ∀ j, j < list.length → expectedBlockCell mode (s.reg n) j < s.params.memSize) :
    multiple mode c (n :: list) none s body =
      .next (body ⟨n, list⟩ (blockAddresses mode (s.reg n) list.length) (s.setSignal .sequential)) := by
  refine multiple_next (o := ⟨n, list⟩) hc rfl (List.forall_mem_cons.2 ⟨hn, hl⟩) fun a hmem => ?_
  obtain ⟨j, hj, rfl⟩ := List.mem_map.1 hmem
  rw [blockAddress_cell]
  exact ha j (List.mem_range.1 hj)

/-! ### Completion -/

variable {mk : Cond → Suffix → List Nat → Option Word → Instr}

/-- Pairing the list with the cells keeps its places, so a register's last occurrence is the last write to it. -/
theorem loadMultipleCompletes_of_loadMultiple
    (hexec : ∀ c x rs im s, exec (mk c x rs im) s = loadMultiple mode c rs im s) : loadMultipleCompletes mk mode := by
  intro s c x n list hc hn hl ha
  refine ⟨_, (hexec ..).trans (multiple_completes hc hn hl ha), fun j d hj hlast => ?_, by simp,
    signal_writeRegs s (by simp), frame_writeRegs (s.setSignal .sequential) list _⟩
  obtain ⟨hlt, -⟩ := List.getElem?_eq_some_iff.1 hj
  refine reg_writeRegs_last _ (j := j) ?_ (hl d (List.mem_of_getElem? hj)) fun k e hk he heq => ?_
  · rw [List.getElem?_zip_eq_some, List.getElem?_map, getElem?_blockAddresses hlt, ← blockAddress_cell]
    exact ⟨hj, rfl⟩
  · exact hlast k hk (heq ▸ (List.getElem?_zip_eq_some.1 he).1)

/-- As for loads, a cell that no later element meets has its last write at that place of the list. -/
theorem storeMultipleCompletes_of_storeMultiple
    (hexec : ∀ c x rs im s, exec (mk c x rs im) s = storeMultiple mode c rs im s) : storeMultipleCompletes mk mode := by
  intro s c x n list hc hn hl ha
  refine ⟨_, (hexec ..).trans (multiple_completes hc hn hl ha), fun j d hj hlast => ?_, by simp, by simp, ?_⟩
  · obtain ⟨hlt, -⟩ := List.getElem?_eq_some_iff.1 hj
    rw [← blockAddress_cell]
    refine read_writeCells_last _ (j := j) ?_ fun k e hk he => ?_
    · rw [List.getElem?_zip_eq_some, List.getElem?_map, getElem?_blockAddresses hlt, hj]
      exact ⟨rfl, rfl⟩
    · have haddr := (List.getElem?_zip_eq_some.1 he).1
      have hklt : k < list.length := by simpa using (List.getElem?_eq_some_iff.1 haddr).1
      have heq : blockAddress mode (s.reg n) k = e.1 := by simpa [getElem?_blockAddresses hklt] using haddr
      rw [← heq, blockAddress_cell, blockAddress_cell]
      exact hlast k hk hklt
  · rw [← blockAddresses_cells]
    exact frame_writeCells (s.setSignal .sequential) _ _

end Sys2Proof.Proofs
end

section
/-! PROOF. Multiple transfers: LDM and STM in their five modes (R174 to R183), and the second spellings (R170, R171, R183). -/

namespace Sys2Proof.Proofs

open Sys2Proof.Machine

/-- Settles O32: the five differ in the mode alone. -/
theorem loadMultipleCompletes : Obligations.LoadMultipleCompletes :=
  ⟨loadMultipleCompletes_of_loadMultiple fun _ _ _ _ _ => rfl, loadMultipleCompletes_of_loadMultiple fun _ _ _ _ _ => rfl,
    loadMultipleCompletes_of_loadMultiple fun _ _ _ _ _ => rfl, loadMultipleCompletes_of_loadMultiple fun _ _ _ _ _ => rfl,
    loadMultipleCompletes_of_loadMultiple fun _ _ _ _ _ => rfl⟩

/-- Settles O33: the five differ in the mode alone. -/
theorem storeMultipleCompletes : Obligations.StoreMultipleCompletes :=
  ⟨storeMultipleCompletes_of_storeMultiple fun _ _ _ _ _ => rfl,
    storeMultipleCompletes_of_storeMultiple fun _ _ _ _ _ => rfl,
    storeMultipleCompletes_of_storeMultiple fun _ _ _ _ _ => rfl,
    storeMultipleCompletes_of_storeMultiple fun _ _ _ _ _ => rfl,
    storeMultipleCompletes_of_storeMultiple fun _ _ _ _ _ => rfl⟩

/-- No mode and IA displace the base alike, and nothing else of a multiple transfer reads the mode (R183). -/
theorem multiple_none_eq_ia (c : Cond) (rs : List Nat) (im : Option Word) (s : State)
    (body : LsmOperands → List Word → State → State) :
    multiple .none c rs im s body = multiple .ia c rs im s body := rfl

theorem loadMultiple_none_eq_ia (c : Cond) (rs : List Nat) (im : Option Word) (s : State) :
    loadMultiple .none c rs im s = loadMultiple .ia c rs im s := multiple_none_eq_ia ..

theorem storeMultiple_none_eq_ia (c : Cond) (rs : List Nat) (im : Option Word) (s : State) :
    storeMultiple .none c rs im s = storeMultiple .ia c rs im s := multiple_none_eq_ia ..

/-- Settles O35: STRSB and STRSH have the meanings of STRB and STRH; LDM and STM are IA, as no mode is
(`loadMultiple_none_eq_ia`, `storeMultiple_none_eq_ia`), and neither reads its suffix. -/
theorem secondSpellingsAgree : Obligations.SecondSpellingsAgree := fun s c _ _ _ rs im =>
  ⟨rfl, rfl, loadMultiple_none_eq_ia c rs im s, storeMultiple_none_eq_ia c rs im s⟩

end Sys2Proof.Proofs
end

section
/-! SUPPORT. Control transfer and SWI whose condition holds (R190, R191, R193): the next state of each as one update of the
state before. -/

namespace Sys2Proof.Proofs

open Sys2Proof.Machine Sys2Proof.Laws Sys2Proof.Statements

theorem uint_trunc32 (n : Nat) : uint (trunc32 n) = n % 2 ^ 32 := by
  rw [trunc32_toNat, uint, BitVec.toNat_ofNat]

variable {s : State} {c : Cond}

theorem exec_b_met (hc : s.meets c = true) (m : UpdateMode) (x : Suffix) (target : Nat) :
    exec (.b c m x [target] none) s = .next ((s.setSignal .sequential).writeReg 15 (trunc32 target)) :=
  show execB c m x [target] none s = _ from gated_met _ hc

theorem exec_bl_met (hc : s.meets c = true) (m : UpdateMode) (x : Suffix) (target : Nat) :
    exec (.bl c m x [target] none) s =
      .next (((s.setSignal .sequential).writeReg 14 (s.pc + 1#32)).writeReg 15 (trunc32 target)) :=
  show execBl c m x [target] none s = _ from gated_met _ hc

theorem exec_swi_met (hc : s.meets c = true) (m : UpdateMode) (x : Suffix) :
    exec (.swi c m x [] none) s = .next (s.setSignal .halt) :=
  show execSwi c m x [] none s = _ from gated_met _ hc

theorem frame_setSignal (s : State) (g : Signal) : frame s (s.setSignal g) [] [] :=
  ⟨fun _ _ _ => rfl, fun _ _ => rfl, rfl, rfl, rfl, rfl, rfl⟩

end Sys2Proof.Proofs
end

section
/-! PROOF. Control transfer and SWI (R190, R191, R193). -/

namespace Sys2Proof.Proofs

open Sys2Proof.Machine Sys2Proof.Laws

/-- Settles O36: the one register written is the PC, and its write is the branch. -/
theorem branchCompletes : Obligations.BranchCompletes := by
  intro s c m x target hc
  refine ⟨_, exec_b_met hc m x target, ?_, rfl, rfl, frame_writeRegs (s.setSignal .sequential) [15] [_]⟩
  rw [State.pc, reg_writeReg_same _ _ (by decide), uint_trunc32]

/-- Settles O37: the later write, of the PC, keeps the link register. -/
theorem branchWithLinkCompletes : Obligations.BranchWithLinkCompletes := by
  intro s c m x target hc
  refine ⟨_, exec_bl_met hc m x target, ?_, ?_, rfl, rfl, frame_writeRegs (s.setSignal .sequential) [14, 15] [_, _]⟩
  · rw [reg_writeReg_other _ _ (by decide), reg_writeReg_same _ _ (by decide)]
    exact BitVec.toNat_add ..
  · rw [State.pc, reg_writeReg_same _ _ (by decide), uint_trunc32]

/-- Settles O38: the step is the halt clause of O46, on the state that `exec_swi_met` gives with the fetch counted. -/
theorem swiHalts : Obligations.SwiHalts := by
  intro s c m x hc
  refine ⟨⟨_, exec_swi_met hc m x, rfl, rfl, frame_setSignal s .halt⟩, fun hrun hfetch hbudget => ?_⟩
  obtain ⟨-, -, hhalt, -⟩ := stepRunsDecodedInstruction s _ (.swi c m x [] none) hrun hfetch rfl hbudget
  exact ⟨_, hhalt _ (exec_swi_met (s := s.countFetch) hc m x) rfl, rfl, rfl, rfl, rfl, rfl⟩

end Sys2Proof.Proofs
end

section
/-! SUPPORT. The priority of faults (R203): what each shared operation answers, a given fault or a next state, and by it that
every instruction whose condition holds answers as the closed form `expectedFault` says. -/

namespace Sys2Proof.Proofs

open Sys2Proof.Machine Sys2Proof.Laws

/-! ### Outcomes by their fault -/

/-- The outcome is the given fault, or a next state when none is given. -/
inductive Answers : Option Fault → Out → Prop
  | next (t : State) : Answers none (.next t)
  | fault (f : Fault) : Answers (some f) (.fault f)

theorem Answers.eq_fault_iff {o : Option Fault} {out : Out} (h : Answers o out) (f : Fault) :
    out = .fault f ↔ o = some f := by cases h <;> simp

theorem Answers.exists_eq_next_iff {o : Option Fault} {out : Out} (h : Answers o out) :
    (∃ t, out = .next t) ↔ o = none := by cases h <;> simp

/-- The check made first has priority. -/
theorem answers_unlessFault {o : Option Fault} {out : Out} (h : Answers o out) (f : Option Fault) :
    Answers (f.or o) (unlessFault f out) := by
  cases f with
  | none => exact h
  | some f => exact .fault f

theorem answers_unlessFault_next (f : Option Fault) (t : State) : Answers f (unlessFault f (.next t)) := by
  simpa using answers_unlessFault (.next t) f

/-! ### The operands fit the format (R81, R87): a format's reader takes exactly the lengths that the format allows -/

section Operands

variable (rs : List Nat) (im : Option Word)

theorem isSome_dp3Operands : (dp3Operands rs im).isSome = Format.dp3.fits rs.length im.isSome := by
  cases im <;> rcases rs with _ | ⟨_, _ | ⟨_, _ | ⟨_, _ | ⟨_, _⟩⟩⟩⟩ <;> simp [dp3Operands, Format.fits]

theorem isSome_cmp2Operands : (cmp2Operands rs im).isSome = Format.cmp2.fits rs.length im.isSome := by
  cases im <;> rcases rs with _ | ⟨_, _ | ⟨_, _ | ⟨_, _⟩⟩⟩ <;> simp [cmp2Operands, Format.fits]

theorem isSome_lsOperands : (lsOperands rs im).isSome = Format.ls.fits rs.length im.isSome := by
  rcases rs with _ | ⟨_, _ | ⟨_, _ | ⟨_, _⟩⟩⟩ <;> simp [lsOperands, Format.fits]

theorem isSome_lsdOperands : (lsdOperands rs im).isSome = Format.lsd.fits rs.length im.isSome := by
  rcases rs with _ | ⟨_, _ | ⟨_, _ | ⟨_, _ | ⟨_, _⟩⟩⟩⟩ <;> simp [lsdOperands, Format.fits]

theorem isSome_lsmOperands : (lsmOperands rs im).isSome = Format.lsm.fits rs.length im.isSome := by
  cases im <;> cases rs <;> simp [lsmOperands, Format.fits]

theorem isSome_brOperand : (brOperand rs im).isSome = Format.br.fits rs.length im.isSome := by
  cases im <;> rcases rs with _ | ⟨_, _ | ⟨_, _⟩⟩ <;> simp [brOperand, Format.fits]

theorem isSome_sysOperands : (sysOperands rs im).isSome = Format.sys.fits rs.length im.isSome := by
  cases im <;> cases rs <;> simp [sysOperands, Format.fits]

end Operands

theorem cmp2Operands_eq_some {rs : List Nat} {im : Option Word} {o : Cmp2Operands} (h : cmp2Operands rs im = some o) :
    rs = o.n :: o.op2.registers := by
  unfold cmp2Operands at h
  split at h <;> cases h <;> rfl

theorem sysOperands_eq_some {rs : List Nat} {im : Option Word} (h : sysOperands rs im = some ()) : rs = [] := by
  unfold sysOperands at h
  split at h
  · rfl
  · cases h

/-! ### The checks in closed form -/

variable {i : Instr} {s : State}

@[simp] theorem setSignal_regFault (s : State) (g : Signal) (is : List Nat) :
    (s.setSignal g).regFault is = s.regFault is := rfl
@[simp] theorem setSignal_memFault (s : State) (g : Signal) (as : List Word) :
    (s.setSignal g).memFault as = s.memFault as := rfl
@[simp] theorem setSignal_pairFault (s : State) (g : Signal) (t t2 : Nat) :
    (s.setSignal g).pairFault t t2 = s.pairFault t t2 := rfl

theorem expectedPairFault_of_ne_lsd (hf : i.format ≠ .lsd) : expectedPairFault s i = none := by
  unfold expectedPairFault
  split
  · exact absurd ‹_› hf
  · rfl

theorem expectedPairFault_of_lsd {t t2 n : Nat} (hf : i.format = .lsd) (hr : i.record.regs = [t, t2, n]) :
    expectedPairFault s i = s.pairFault t t2 := by
  rw [expectedPairFault, hf, hr]; rfl

theorem expectedRegFault_of_ne_br (hf : i.format ≠ .br) : expectedRegFault s i = s.regFault i.record.regs := if_neg hf

theorem expectedRegFault_of_br (hf : i.format = .br) : expectedRegFault s i = none := if_pos hf

theorem expectedMemFault_of_cells {as : List Word} (h : transferCells s i = as.map uint) :
    expectedMemFault s i = s.memFault as := by
  rw [expectedMemFault, h, List.find?_map, Option.map_map]; rfl

/-- Only a transfer has cells to check. -/
theorem expectedMemFault_of_no_transfer (h : i.format ≠ .ls ∧ i.format ≠ .lsd ∧ i.format ≠ .lsm) :
    expectedMemFault s i = none := by
  obtain ⟨hls, hlsd, hlsm⟩ := h
  have hcells : transferCells s i = [] := by
    unfold transferCells
    split
    · exact absurd ‹_› hls
    · exact absurd ‹_› hlsd
    · exact absurd ‹_› hlsm
    · rfl
  rw [expectedMemFault, hcells]; rfl

/-- An instruction's record selects its own row (R96). -/
theorem instr?_record (i : Instr) : i.record.instr? = some i := by
  cases i with
  | ldr _ _ f => cases f <;> rfl
  | str _ _ f => cases f <;> rfl
  | _ => rfl

/-- The closed form past the gate and the opcode. -/
theorem expectedFault_of_met (hc : s.meets i.record.cond = true) :
    expectedFault s i.record =
      if i.format.fits i.record.regs.length i.record.imm.isSome = false then some (.malformed s.index)
      else (expectedPairFault s i).or ((expectedRegFault s i).or (expectedMemFault s i)) := by
  simp only [expectedFault, hc, instr?_record, Bool.true_eq_false, if_false]

/-! ### The handlers -/

/-- The shape of every meaning whose condition holds: MALFORMED exactly when the operands do not fit, then the checks. -/
theorem answers_onOperands {α : Type} {o : Option α} {body : State → α → Out} (hc : s.meets i.record.cond = true)
    (hfits : o.isSome = i.format.fits i.record.regs.length i.record.imm.isSome)
    (hbody : ∀ a, o = some a → Answers ((expectedPairFault s i).or ((expectedRegFault s i).or (expectedMemFault s i)))
      (body (s.setSignal .sequential) a)) :
    Answers (expectedFault s i.record) (gated i.record.cond s fun s => withOperands s o (body s)) := by
  rw [expectedFault_of_met hc, gated_met _ hc, ← hfits]
  cases o with
  | none => exact .fault _
  | some a => exact hbody a rfl

section Met

variable (hc : s.meets i.record.cond = true)
include hc

theorem answers_dp3 {write : Nat → Word → Word → State → State} (hf : i.format = .dp3) :
    Answers (expectedFault s i.record) (dp3 i.record.cond i.record.regs i.record.imm s write) := by
  refine answers_onOperands hc (hf ▸ isSome_dp3Operands _ _) fun o ho => ?_
  rw [expectedPairFault_of_ne_lsd (by simp [hf]), expectedRegFault_of_ne_br (by simp [hf]),
    expectedMemFault_of_no_transfer (by simp [hf]), (dp3Operands_eq_some ho).1, Option.none_or, Option.or_none]
  exact answers_unlessFault_next _ _

theorem answers_cmp2 {write : Word → Word → State → State} (hf : i.format = .cmp2) :
    Answers (expectedFault s i.record) (cmp2 i.record.cond i.record.regs i.record.imm s write) := by
  refine answers_onOperands hc (hf ▸ isSome_cmp2Operands _ _) fun o ho => ?_
  rw [expectedPairFault_of_ne_lsd (by simp [hf]), expectedRegFault_of_ne_br (by simp [hf]),
    expectedMemFault_of_no_transfer (by simp [hf]), cmp2Operands_eq_some ho, Option.none_or, Option.or_none]
  exact answers_unlessFault_next _ _

/-- The checks of a transfer of one cell, load or store: the registers, then the cell. -/
theorem answers_single {next : State → LsOperands → State} (hf : i.format = .ls) :
    Answers (expectedFault s i.record) (gated i.record.cond s fun s =>
      withOperands s (lsOperands i.record.regs i.record.imm) fun o =>
        unlessFault (s.regFault [o.t, o.n]) <|
          unlessFault (s.memFault [effectiveAddress s o.n o.offset]) <| .next (next s o)) := by
  refine answers_onOperands hc (hf ▸ isSome_lsOperands _ _) fun o ho => ?_
  obtain ⟨hregs, hoffset⟩ := lsOperands_eq_some ho
  have hcells : transferCells s i = [effectiveAddress s o.n o.offset].map uint := by
    rw [transferCells_single hf hregs, hoffset, List.map_singleton, effectiveAddress_cell]
  rw [expectedPairFault_of_ne_lsd (by simp [hf]), expectedRegFault_of_ne_br (by simp [hf]),
    expectedMemFault_of_cells hcells, hregs, Option.none_or]
  exact answers_unlessFault (answers_unlessFault_next _ _) _

theorem answers_loadCell {extend : Word → Word} (hf : i.format = .ls) :
    Answers (expectedFault s i.record) (loadCell i.record.cond i.record.regs i.record.imm s extend) :=
  answers_single hc hf

theorem answers_storeCell {place : Word → Word → Word} (hf : i.format = .ls) :
    Answers (expectedFault s i.record) (storeCell i.record.cond i.record.regs i.record.imm s place) :=
  answers_single hc hf

theorem answers_doubleword {body : LsdOperands → Word → Word → State → State} (hf : i.format = .lsd) :
    Answers (expectedFault s i.record) (doubleword i.record.cond i.record.regs i.record.imm s body) := by
  refine answers_onOperands hc (hf ▸ isSome_lsdOperands _ _) fun o ho => ?_
  obtain ⟨hregs, hoffset⟩ := lsdOperands_eq_some ho
  have hcells : transferCells s i =
      [effectiveAddress s o.n o.offset, effectiveAddress s o.n o.offset + 1#32].map uint := by
    rw [transferCells_double hf hregs, hoffset, List.map_cons, List.map_singleton, effectiveAddress_next_cell,
      effectiveAddress_cell]
  rw [expectedPairFault_of_lsd hf hregs, expectedRegFault_of_ne_br (by simp [hf]), expectedMemFault_of_cells hcells, hregs]
  exact answers_unlessFault (answers_unlessFault (answers_unlessFault_next _ _) _) _

theorem answers_multiple {body : LsmOperands → List Word → State → State} (hf : i.format = .lsm) :
    Answers (expectedFault s i.record)
      (multiple i.record.mode i.record.cond i.record.regs i.record.imm s body) := by
  refine answers_onOperands hc (hf ▸ isSome_lsmOperands _ _) fun o ho => ?_
  obtain ⟨hregs, -⟩ := lsmOperands_eq_some ho
  rw [expectedPairFault_of_ne_lsd (by simp [hf]), expectedRegFault_of_ne_br (by simp [hf]),
    expectedMemFault_of_cells (transferCells_multiple hf hregs), hregs, Option.none_or]
  exact answers_unlessFault (answers_unlessFault_next _ _) _

theorem answers_loadMultiple (hf : i.format = .lsm) :
    Answers (expectedFault s i.record) (loadMultiple i.record.mode i.record.cond i.record.regs i.record.imm s) :=
  answers_multiple hc hf

theorem answers_storeMultiple (hf : i.format = .lsm) :
    Answers (expectedFault s i.record) (storeMultiple i.record.mode i.record.cond i.record.regs i.record.imm s) :=
  answers_multiple hc hf

/-- A branch's entry is no register, so past MALFORMED it has no check (R190). -/
theorem answers_branch {next : State → Nat → State} (hf : i.format = .br) :
    Answers (expectedFault s i.record) (gated i.record.cond s fun s =>
      withOperands s (brOperand i.record.regs i.record.imm) fun target => .next (next s target)) := by
  refine answers_onOperands hc (hf ▸ isSome_brOperand _ _) fun target _ => ?_
  rw [expectedPairFault_of_ne_lsd (by simp [hf]), expectedRegFault_of_br hf,
    expectedMemFault_of_no_transfer (by simp [hf])]
  exact .next _

theorem answers_swi {next : State → State} (hf : i.format = .sys) :
    Answers (expectedFault s i.record) (gated i.record.cond s fun s =>
      withOperands s (sysOperands i.record.regs i.record.imm) fun _ => .next (next s)) := by
  refine answers_onOperands hc (hf ▸ isSome_sysOperands _ _) fun _ ho => ?_
  rw [expectedPairFault_of_ne_lsd (by simp [hf]), expectedRegFault_of_ne_br (by simp [hf]),
    expectedMemFault_of_no_transfer (by simp [hf]), sysOperands_eq_some ho]
  exact .next _

/-! ### Every instruction, every record -/

theorem answers_exec_of_met : Answers (expectedFault s i.record) (exec i s) := by
  cases i with
  | add | adc | sub | sbc | rsb | rsc => unfold exec; exact answers_dp3 hc rfl
  | and | orr | eor | bic => unfold exec; exact answers_dp3 hc rfl
  | cmn | cmp | tst | teq => unfold exec; exact answers_cmp2 hc rfl
  | ldr | ldrb | ldrh | ldrsb | ldrsh => unfold exec; exact answers_loadCell hc rfl
  | str | strb | strh | strsb | strsh => unfold exec; exact answers_storeCell hc rfl
  | ldrd | strd => unfold exec; exact answers_doubleword hc rfl
  | ldm | ldmia | ldmib | ldmda | ldmdb => unfold exec; exact answers_loadMultiple hc rfl
  | stm | stmia | stmib | stmda | stmdb => unfold exec; exact answers_storeMultiple hc rfl
  | b | bl => unfold exec; exact answers_branch hc rfl
  | swi => unfold exec; exact answers_swi hc rfl

end Met

theorem expectedFault_of_unmet {r : Record} (h : s.meets r.cond = false) : expectedFault s r = none := if_pos h

theorem expectedFault_of_unknown {r : Record} (hc : s.meets r.cond = true) (hi : r.instr? = none) :
    expectedFault s r = some (.unknownOpcode s.index) := by
  simp only [expectedFault, hc, hi, Bool.true_eq_false, if_false]

/-- Executing a record answers as the closed form says: the gate comes first, then the opcode, then the row's own checks. -/
theorem answers_execRecord (s : State) (r : Record) : Answers (expectedFault s r) (execRecord r s) := by
  cases hc : s.meets r.cond with
  | false =>
    rw [expectedFault_of_unmet hc, execRecord_unmet hc]
    exact .next _
  | true =>
    cases hi : r.instr? with
    | none =>
      rw [expectedFault_of_unknown hc hi, execRecord_of_unknown hi, gated_met _ hc]
      exact .fault _
    | some i =>
      obtain rfl := record_of_instr? hi
      rw [execRecord_of_instr? hi]
      exact answers_exec_of_met hc

/-! ### The faults of a well-formed record (R201) -/

theorem expectedPairFault_not_ofBuiltRecord {f : Fault} (h : expectedPairFault s i = some f) : f.ofBuiltRecord = false := by
  unfold expectedPairFault at h
  split at h
  · split at h <;> cases h
    rfl
  · cases h

theorem expectedRegFault_not_ofBuiltRecord {f : Fault} (h : expectedRegFault s i = some f) : f.ofBuiltRecord = false := by
  unfold expectedRegFault at h
  split at h
  · cases h
  · obtain ⟨k, -, rfl⟩ := Option.map_eq_some_iff.1 h
    rfl

theorem expectedMemFault_not_ofBuiltRecord {f : Fault} (h : expectedMemFault s i = some f) : f.ofBuiltRecord = false := by
  obtain ⟨a, -, rfl⟩ := Option.map_eq_some_iff.1 h
  rfl

/-- A well-formed instruction is of the table and its operands fit, so what it raises is one of the later checks. -/
theorem expectedFault_not_ofBuiltRecord {r : Record} {f : Fault} (hi : r.instr? = some i) (hwf : i.wf = true)
    (h : expectedFault s r = some f) : f.ofBuiltRecord = false := by
  obtain rfl := record_of_instr? hi
  cases hc : s.meets i.record.cond with
  | false => rw [expectedFault_of_unmet hc] at h; cases h
  | true =>
    rw [expectedFault_of_met hc, (wf_iff.1 hwf).1, if_neg (by decide)] at h
    rcases Option.or_eq_some_iff.1 h with hpair | ⟨-, h⟩
    · exact expectedPairFault_not_ofBuiltRecord hpair
    · rcases Option.or_eq_some_iff.1 h with hreg | ⟨-, hmem⟩
      · exact expectedRegFault_not_ofBuiltRecord hreg
      · exact expectedMemFault_not_ofBuiltRecord hmem

/-- Counting the fetch changes nothing a check reads. -/
theorem expectedFault_countFetch (s : State) (r : Record) : expectedFault s.countFetch r = expectedFault s r := rfl

end Sys2Proof.Proofs
end

section
/-! PROOF. The priority of faults (R203), and a step that faults (R202). -/

namespace Sys2Proof.Proofs

open Sys2Proof.Machine Sys2Proof.Laws

/-- Settles O41: each handler makes the checks of its format in the order of the closed form (`answers_execRecord`). -/
theorem faultPriority : Obligations.FaultPriority := fun s r =>
  ⟨(answers_execRecord s r).eq_fault_iff, (answers_execRecord s r).exists_eq_next_iff⟩

/-- Settles O42: the record's fault is that of O41, and the loop takes it into the status of the state that counted the fetch. -/
theorem faultingStepWritesNothing : Obligations.FaultingStepWritesNothing := by
  intro s t r f hrun hfetch hbudget hfault hstep
  rw [← expectedFault_countFetch] at hfault
  rw [step_of_fetched hrun hfetch (budgetSpent_eq_false_iff.2 hbudget),
    ((faultPriority s.countFetch r).1 f).2 hfault] at hstep
  cases hstep
  simp

end Sys2Proof.Proofs
end

section
/-! SUPPORT. The image invariant (`State.ImageInv`) along the steps of a run. -/

namespace Sys2Proof.Proofs

open Sys2Proof.Machine Sys2Proof.Laws

/-- A record of a well-formed image raises neither MALFORMED nor UNKNOWN_OPCODE, in whatever state it is executed. -/
theorem wellFormedImage_fault {image : List Record} {r : Record} {s : State} {f : Fault} (h : wellFormedImage image)
    (hr : r ∈ image) (hf : execRecord r s = .fault f) : f.ofBuiltRecord = false := by
  obtain ⟨i, hi, hwf⟩ := wellFormedImage_instr h hr
  exact expectedFault_not_ofBuiltRecord hi hwf (((answers_execRecord s r).eq_fault_iff f).1 hf)

/-- The advance of the PC can halt the run, and raises no fault. -/
theorem advance_faultedOnBuiltRecord {s : State} (h : s.status.faultedOnBuiltRecord = false) (pc : Word) :
    (s.advance pc).status.faultedOnBuiltRecord = false := by
  rw [advance_status]
  split
  · rfl
  · exact h

/-- A step of a machine with a well-formed image ends in neither MALFORMED nor UNKNOWN_OPCODE. -/
theorem step_faultedOnBuiltRecord {s t : State} (hinv : s.ImageInv) (h : step s = .next t) :
    t.status.faultedOnBuiltRecord = false := by
  obtain ⟨himage, hstatus⟩ := hinv
  cases step_cases h with
  | stays => exact hstatus
  | completes => rfl
  | exhausts => rfl
  | faults r f _ hfetch _ hfault => exact wellFormedImage_fault himage (List.mem_of_getElem? hfetch) hfault
  | runs r i u _ _ _ _ hexec =>
    obtain ⟨-, -, -, hu, -⟩ := exec_sameRun hexec
    exact advance_faultedOnBuiltRecord (hu ▸ hstatus) _
  | passesUnknown => exact advance_faultedOnBuiltRecord (s := s.countFetch.setSignal .sequential) hstatus _

theorem imageInv_step {s t : State} (hinv : s.ImageInv) (h : step s = .next t) : t.ImageInv := by
  obtain ⟨hprogram, -, -⟩ := programImageIsImmutable s t h
  exact ⟨hprogram ▸ hinv.1, step_faultedOnBuiltRecord hinv h⟩

theorem imageInv_steps {s : State} (hinv : s.ImageInv) (k : Nat) : (s.steps k).ImageInv := by
  induction k with
  | zero => exact hinv
  | succ k ih => exact imageInv_step ih (step_steps s k)

theorem imageInv_run {s : State} {image : List Record} (h : ∀ f, s.status ≠ .faulted f) (himage : wellFormedImage image)
    (budget k : Nat) : (s.run image budget k).ImageInv := by
  refine imageInv_steps ?_ k
  rw [beginRun_of_not_faulted h]
  exact ⟨himage, rfl⟩

theorem wellFormedImage_of_assemble {policy : ImmPolicy} {text : Text} {image : List Record} {diag : List Nat}
    (h : assemble policy text = .program image diag) : wellFormedImage image := by
  intro r hr
  obtain ⟨i, hi, hwf, -⟩ := assembledRecordsAreWellFormed policy text image diag h r hr
  rw [hi, Option.map_some, hwf]

end Sys2Proof.Proofs
end

section
/-! PROOF. MALFORMED and UNKNOWN_OPCODE come of no decoded program (R201, R91). -/

namespace Sys2Proof.Proofs

open Sys2Proof.Machine

/-- Settles O60: no step writes the image (O50), and a fault that a step takes is one of the closed form O41 on a well-formed
record (`step_faultedOnBuiltRecord`). -/
theorem stepKeepsImageInvariant : Obligations.StepKeepsImageInvariant := fun _ _ => imageInv_step

/-- Settles O44: an assembled image is well-formed (O4), a run begins with the image invariant, and every step keeps it (O60). -/
theorem assembledProgramsAreNeverMalformed : Obligations.AssembledProgramsAreNeverMalformed := by
  intro policy text image diag s budget k at' hassemble hs
  obtain ⟨-, hstatus⟩ := imageInv_run hs (wellFormedImage_of_assemble hassemble) budget k
  refine ⟨fun hmalformed => ?_, fun hunknown => ?_⟩
  · rw [hmalformed] at hstatus; cases hstatus
  · rw [hunknown] at hstatus; cases hstatus

end Sys2Proof.Proofs
end

section
/-! SUPPORT. The host interface (R211, R212, R214): each access within its bound as one update, and what `execute` by the host
returns. -/

namespace Sys2Proof.Proofs

open Sys2Proof.Machine Sys2Proof.Laws Sys2Proof.Statements

variable {s t : State} {i a : Nat}

/-! ### Registers -/

theorem regFault_single_of_lt (s : State) (h : i < 16) : s.regFault [i] = none :=
  (regFault_eq_none s [i]).2 (by simpa using h)

theorem regFault_single_of_ge (s : State) (h : 16 ≤ i) : s.regFault [i] = some (.regIndex s.index i) := by
  simp [State.regFault, h]

theorem getRegister_of_lt (s : State) (h : i < 16) : s.getRegister i = .ok (s.reg i) := by
  rw [State.getRegister, regFault_single_of_lt s h]

theorem getRegister_of_ge (s : State) (h : 16 ≤ i) : s.getRegister i = .error (.regIndex s.index i) := by
  rw [State.getRegister, regFault_single_of_ge s h]

theorem setRegister_of_lt (s : State) (h : i < 16) (v : Int) :
    s.setRegister i v = .ok ((s.writeReg i (fromInt s.params.immPolicy v)).setSignal s.signal) := by
  rw [State.setRegister, regFault_single_of_lt s h]

theorem setRegister_of_ge (s : State) (h : 16 ≤ i) (v : Int) : s.setRegister i v = .error (.regIndex s.index i) := by
  rw [State.setRegister, regFault_single_of_ge s h]

theorem setRegister_status {v : Int} (h : s.setRegister i v = .ok t) : t.status = s.status := by
  unfold State.setRegister at h
  split at h <;> cases h
  rfl

/-! ### Memory -/

theorem getMemory_of_lt (h : a < s.params.memSize) : s.getMemory a = .ok (Memory.read s.mem a) :=
  if_neg (Nat.not_le.2 h)

theorem getMemory_of_ge (h : s.params.memSize ≤ a) : s.getMemory a = .error (.memIndex s.index a) := if_pos h

theorem setMemory_of_lt (h : a < s.params.memSize) (v : Int) :
    s.setMemory a v = .ok { s with mem := Memory.write s.mem a (fromInt s.params.immPolicy v) } :=
  if_neg (Nat.not_le.2 h)

theorem setMemory_of_ge (h : s.params.memSize ≤ a) (v : Int) : s.setMemory a v = .error (.memIndex s.index a) := if_pos h

theorem setMemory_status {v : Int} (h : s.setMemory a v = .ok t) : t.status = s.status := by
  unfold State.setMemory at h
  split at h <;> cases h
  rfl

theorem frame_write_mem (s : State) (a : Nat) (v : Word) : frame s { s with mem := Memory.write s.mem a v } [] [a] :=
  ⟨fun _ _ _ => rfl, fun _ hb => read_write_other s.mem v (by simpa using hb), rfl, rfl, rfl, rfl, rfl⟩

/-! ### `execute` -/

/-- A record completes with its condition failed, or as the instruction of its row. -/
theorem execRecord_cases {r : Record} (h : execRecord r s = .next t) :
    t = s.setSignal .sequential ∨ ∃ j, s.meets (Instr.record j).cond = true ∧ exec j s = .next t := by
  cases hc : s.meets r.cond with
  | false => exact .inl (Host.Outcome.next.inj ((execRecord_unmet hc).symm.trans h)).symm
  | true =>
    cases hj : r.instr? with
    | none => rw [execRecord_of_unknown hj, gated_met _ hc] at h; cases h
    | some j => exact .inr ⟨j, by rwa [record_of_instr? hj], (execRecord_of_instr? hj s).symm.trans h⟩

theorem execRecord_sameRun {r : Record} (h : execRecord r s = .next t) : sameRun s t := by
  rcases execRecord_cases h with rfl | ⟨j, -, hexec⟩
  · exact ⟨rfl, rfl, rfl, rfl, rfl⟩
  · exact exec_sameRun hexec

/-- Without the signal of a branch the PC was not written (R121). -/
theorem execRecord_pc {r : Record} (h : execRecord r s = .next t) (hsignal : t.signal ≠ .branched) : t.pc = s.pc := by
  rcases execRecord_cases h with rfl | ⟨j, hc, hexec⟩
  · rfl
  · obtain ⟨hregs, hbranched, -⟩ := (onlyNamedRegistersChange j s t hexec).1 hc
    exact hregs 15 (by decide) (mt hbranched.2 hsignal)

/-- A host `execute` that continues reports whether the instruction branched, and uses the signal up. -/
theorem hostExecute_eq_continued {r : Record} {w : Bool} (h : s.hostExecute r = .continued w t) :
    ∃ u, execRecord r s = .next u ∧ t = u.setSignal .sequential ∧ (w = false → u.signal = .sequential) := by
  unfold State.hostExecute at h
  split at h
  next => cases h
  next => cases h
  next u hu =>
    split at h
    next hsignal => cases h; exact ⟨u, hu, rfl, fun _ => hsignal⟩
    next => cases h; exact ⟨u, hu, rfl, (nomatch ·)⟩
    next => cases h

theorem hostExecute_swi_met {c : Cond} (hc : s.meets c = true) (m : UpdateMode) (x : Suffix) :
    s.hostExecute ⟨.swi, c, m, x, [], none⟩ = .halt (s.setSignal .sequential) := by
  have hexec : execRecord ⟨.swi, c, m, x, [], none⟩ s = .next (s.setSignal .halt) := exec_swi_met hc m x
  rw [State.hostExecute, hexec]
  rfl

end Sys2Proof.Proofs
end

section
/-! PROOF. The host interface and a Faulted machine (R204, R211, R212, R214). -/

namespace Sys2Proof.Proofs

open Sys2Proof.Machine Sys2Proof.Laws Sys2Proof.Statements

/-- Settles O45: a run of a Faulted machine does not begin, and no host access writes the status. -/
theorem faultIsSticky : Obligations.FaultIsSticky := fun s f h =>
  ⟨fun image budget k => ⟨run_of_faulted h image budget k, steps_of_not_running (by simp [h]) k⟩,
    fun _ _ _ hset => (setRegister_status hset).trans h, fun _ _ _ hset => (setMemory_status hset).trans h, fun _ => h⟩

/-- Settles O57: within the bound the access is one register write, its signal put back; past it the register check fails. -/
theorem hostRegisterAccess : Obligations.HostRegisterAccess := by
  intro s i v
  refine ⟨fun hlt => ⟨getRegister_of_lt s hlt, _, setRegister_of_lt s hlt v, ?_, rfl, rfl, ?_⟩, fun hge => ?_⟩
  · exact reg_writeReg_same s _ hlt
  · exact frame_writeRegs s [i] [_]
  · exact ⟨⟨_, getRegister_of_ge s hge⟩, _, setRegister_of_ge s hge v⟩

/-- Settles O58: within MEM_SIZE the access is one write of the cell; past it the bounds check fails. -/
theorem hostMemoryAccess : Obligations.HostMemoryAccess := by
  intro s a v
  refine ⟨fun hlt => ⟨getMemory_of_lt hlt, _, setMemory_of_lt hlt v, ?_, rfl, rfl, frame_write_mem s a _⟩, fun hge => ?_⟩
  · exact read_write_same ..
  · exact ⟨⟨_, getMemory_of_ge hge⟩, _, setMemory_of_ge hge v⟩

/-- Settles O59: outside the loop no instruction writes the bookkeeping (`execRecord_sameRun`), and one that reports no write
of r15 did not branch (`execRecord_pc`). -/
theorem hostStatusAndExecute : Obligations.HostStatusAndExecute := by
  intro s
  refine ⟨rfl, fun v => ⟨rfl, ⟨fun _ _ _ => rfl, fun _ _ => rfl, rfl, rfl, rfl, rfl, rfl⟩, rfl⟩, fun r w t h => ?_,
    fun c m x hc => ⟨_, hostExecute_swi_met hc m x, rfl, frame_setSignal s .sequential⟩⟩
  obtain ⟨u, hexec, rfl, hsequential⟩ := hostExecute_eq_continued h
  obtain ⟨-, -, -, hstatus, hexecuted⟩ := execRecord_sameRun hexec
  exact ⟨hexecuted, hstatus, fun hw => execRecord_pc (t := u) hexec (by simp [hsequential hw])⟩

end Sys2Proof.Proofs
end

section
/-! SUPPORT. A call and its return as steps of an unbounded run (R21, R121, R191, R236). A frame `frame s.countFetch t …` of a
step is that of the instruction it ran: the fetch counts one, and all else is as in `s`. -/

namespace Sys2Proof.Proofs

open Sys2Proof.Machine Sys2Proof.Statements

theorem sumOf_zero (a : Word) : sumOf a 0#32 false = a := by
  rw [sumOf_eq_add, Bool.toNat_false, BitVec.add_zero, BitVec.add_zero]

variable {s t : State}

/-- A step that runs a branching instruction keeps the PC written: the branch clause of O46. -/
theorem step_of_branched {r : Record} {i : Instr} (hrun : s.status = .running) (hbudget : s.budget = 0)
    (hfetch : s.fetch = some r) (hi : r.instr? = some i) (hexec : exec i s.countFetch = .next t)
    (hsignal : t.signal = .branched) : step s = .next (t.setSignal .sequential) := by
  obtain ⟨-, hbranched, -⟩ := stepRunsDecodedInstruction s r i hrun hfetch hi fun hne => absurd hbudget hne
  exact hbranched t hexec hsignal

/-- The call: O37 for the loop. -/
theorem step_bl {c : Cond} {m : UpdateMode} {x : Suffix} {target : Nat} (hrun : s.status = .running)
    (hbudget : s.budget = 0) (hc : s.meets c = true) (hfetch : s.fetch = some ⟨.bl, c, m, x, [target], none⟩) :
    ∃ t, step s = .next t ∧ uint (t.reg 14) = (s.index + 1) % 2 ^ 32 ∧ uint t.pc = target % 2 ^ 32 ∧ t.sr = s.sr ∧
      frame s.countFetch t [14, 15] [] := by
  obtain ⟨u, hexec, hlink, hpc, hsr, hsignal, hframe⟩ := branchWithLinkCompletes s.countFetch c m x target hc
  exact ⟨_, step_of_branched hrun hbudget hfetch rfl hexec hsignal, hlink, hpc, hsr, hframe⟩

/-- The return idiom `ADD r15, r14, #0`: by O16 its sum is the link register, and its destination makes it a branch. -/
theorem step_return {m : UpdateMode} {x : Suffix} (hrun : s.status = .running) (hbudget : s.budget = 0) (hx : x ≠ .s)
    (hfetch : s.fetch = some ⟨.add, .none, m, x, [15, 14], some 0#32⟩) :
    ∃ t, step s = .next t ∧ t.pc = s.reg 14 ∧ t.sr = s.sr ∧ frame s.countFetch t [15] [] := by
  obtain ⟨u, hexec, hsum, ⟨-, hsr⟩, hsignal, hframe⟩ := addCompletes s.countFetch .none m x 15 14 (.imm 0#32) rfl
    (by decide) (by decide) (fun _ hk => absurd hk List.not_mem_nil) fun hs => absurd hs hx
  exact ⟨_, step_of_branched hrun hbudget hfetch rfl hexec hsignal, hsum.trans (sumOf_zero _), hsr hx, hframe⟩

end Sys2Proof.Proofs
end

section
/-! PROOF. A call returns to the instruction after it (R236). -/

namespace Sys2Proof.Proofs

open Sys2Proof.Machine

/-- Settles O39: the call (`step_bl`) puts the index after it in the link register and goes to the return idiom, which moves
the link register to the PC (`step_return`); what neither writes is as before both. -/
theorem callAndReturnResumes : Obligations.CallAndReturnResumes := by
  intro s c m m' x x' target hrun hbudget hc htarget hx hfetch hreturn
  obtain ⟨t, hcall, hlink, hpc, hsr, hregs, hcells, -, hprogram, hbudget', hstatus, -⟩ := step_bl hrun hbudget hc hfetch
  rw [Nat.mod_eq_of_lt htarget] at hpc
  have hfetch' : t.fetch = some ⟨.add, .none, m', x', [15, 14], some 0#32⟩ := by
    rw [State.fetch, State.index, hpc, hprogram]
    exact hreturn
  obtain ⟨u, hback, hpc', hsr', hregs', hcells', -, -, -, hstatus', -⟩ :=
    step_return (hstatus.trans hrun) (hbudget'.trans hbudget) hx hfetch'
  refine ⟨t, u, hcall, hback, hpc, by rw [hpc', hlink], hstatus'.trans (hstatus.trans hrun), hsr'.trans hsr,
    fun j hj hkept => ?_, fun a ha => (hcells' a ha).trans (hcells a ha)⟩
  exact (hregs' j hj fun hmem => hkept (List.mem_cons_of_mem 14 hmem)).trans (hregs j hj hkept)

end Sys2Proof.Proofs
end
